-- ==== Sys2Proof/Word.lean ====
section
/-! DEFINITION. The bit-vector types of the NVEnc conversion core: what the spec treats as bits
(register contents, host addresses, bytes of memory). Addresses an operation computes are
mathematical integers (R65), so they are plain `Nat`. -/

namespace Sys2Proof

/-- One byte of the data space (R60). -/
abbrev Byte := BitVec 8

/-- A 32-bit register of the register block (R31). -/
abbrev Word32 := BitVec 32

/-- A 64-bit register, and one 8-byte slot of the register block (R31). -/
abbrev Word64 := BitVec 64

end Sys2Proof
end

