-- ==== Sys2Proof/Config.lean ====
section
/-! DEFINITION. What an implementation fixes (R7), the names of the register block (R31), the
constant tables (R40, R41), and the free values. -/

namespace Sys2Proof

/-- The store policy CMD.NT selects (R93, R121): a hint that changes no value. -/
inductive StorePolicy where
  | cached
  | nonTemporal
  deriving DecidableEq, Repr

/-- The registers of a unit's register block, in slot order (R31). -/
inductive Reg where
  | cmd | dst0 | dst1 | dst2 | src0 | src1 | src2
  | width | height | srcPitchY | srcPitchC | dstPitchY | dstHeight
  | cropL | cropT | cropR | cropB | size | ctrl | status
  deriving DecidableEq, Repr

/-- `P_HB_WIDEN` (R7, R191): how a 16-bit source sample enters the arithmetic. -/
inductive Widen where
  | sext
  | zext
  deriving DecidableEq, Repr, Inhabited

namespace Config

/-- One rescale triple `(MUL, SHIFT, OFF)` (R41). The constraints of R7 are in the types: `MUL` and
`OFF` are signed 32-bit values (read by `toInt`), `SHIFT` lies in 0..29. -/
structure Coef where
  mul   : Word32
  shift : Fin 30
  off   : Word32
  deriving DecidableEq, Repr, Inhabited

/-- The OPEN parameters that a value depends on (R7). `N_UNITS` and `REG_BASE[u]` are the length of
the state's list of units and each unit's `base`. -/
structure Params where
  coefY : Coef
  coefC : Coef
  widen : Widen
  deriving DecidableEq, Repr, Inhabited

/-- A rescale triple from three integers; `none` refuses a triple that breaks a constraint of R7
("a model refuses a configuration that breaks one"). -/
def Coef.ofInts (mul shift off : Int) : Option Coef :=
  if h : (-2 ^ 31 ≤ mul ∧ mul < 2 ^ 31) ∧ (0 ≤ shift ∧ shift ≤ 29) ∧ (-2 ^ 31 ≤ off ∧ off < 2 ^ 31) then
    some { mul := BitVec.ofInt 32 mul, shift := ⟨shift.toNat, by omega⟩, off := BitVec.ofInt 32 off }
  else none

/-- R40: `WEIGHT[0] = (1, 3)` and `WEIGHT[1] = (3, 1)`, the same from reset for ever. -/
def weight (i : Fin 2) : Nat × Nat :=
  if i = 0 then (1, 3) else (3, 1)

/-- Width of an address (R7): the data space holds 2^64 bytes (R60). -/
def spaceBytes : Nat := 2 ^ 64

/-- `VEC_BYTES` (R7): fixed 32, informative only. -/
def vecBytes : Nat := 32

/-- `SCALAR_THRESHOLD` (R7): fixed 128, informative only. -/
def scalarThreshold : Nat := 128

/-- The parameter values of the platform's one format pair. R41: "Their values are OPEN parameters";
no source gives a number, so the constant has no body a proof can read (log 1). -/
opaque platformParams : Params

/-- FREE VALUE (log 8). A byte the spec leaves open: the draws of R75 (races) and of R199 (a rescale
intermediate outside 32 bits). The first argument is the counter `State.draws`, the second the
byte's address. -/
opaque freeByte : Nat → Nat → Byte

/-- FREE VALUE (log 8). A choice the spec leaves open: which bytes hold their final value after a
reset while BUSY (R252) or after a refused access (R61), and VDIRTY while BUSY (R38). The first
argument is the counter `State.draws`, the second the byte's address. -/
opaque freeBool : Nat → Nat → Bool

end Config

end Sys2Proof
end

