-- ==== Sys2Proof/Syntax.lean ====
section
/-! DEFINITION. The instructions of the block: one constructor per row of the opcode map (R92), and
the command statement of the host assembly (R99). -/

namespace Sys2Proof

/-- The nine operations (R2, R92). The operands are descriptor registers, not fields of the command
word (R91), so the only field left is NT; MOVE.C and MOVE.NT fix it. -/
inductive Instr where
  /-- MOVE.C, R125 -/
  | moveC
  /-- MOVE.NT, R126 -/
  | moveNT
  /-- CVT.P422.SP420, R147 -/
  | cvtP422 (nt : StorePolicy)
  /-- CVT.P422.SP420.I, R148 -/
  | cvtP422I (nt : StorePolicy)
  /-- CVT.PL420.SP420, R163 -/
  | cvtPl420 (nt : StorePolicy)
  /-- CVT.PL420.SP420.UV, R164 -/
  | cvtPl420Uv (nt : StorePolicy)
  /-- COPY.PL444, R181 -/
  | copyPl444 (nt : StorePolicy)
  /-- CVT.PK444W.SP420W, R201 -/
  | cvtPk444w (nt : StorePolicy)
  /-- CVT.PK444W.SP420W.I, R204 -/
  | cvtPk444wI (nt : StorePolicy)
  deriving DecidableEq, Repr

/-- The `crop=(l,t,r,b)` key of a command statement (R99). -/
structure Crop where
  left   : Word64
  top    : Word64
  right  : Word64
  bottom : Word64
  deriving DecidableEq, Repr

/-- A command statement `<mnemonic> key=value, …` of the host assembly (R99). `op` names the
mnemonic (the policy inside it counts for nothing); `args` are the given keys but `crop` and `nt`. -/
structure Command where
  op   : Instr
  args : List (Reg × Word64)
  crop : Option Crop
  nt   : Option StorePolicy
  deriving DecidableEq, Repr

end Sys2Proof
end

