-- ==== Sys2Proof/Machine/State.lean ====
section
/-! DEFINITION. The state of the machine as plain data: the units (R30, R31, R33, R36, R38), the
memory (R60, R61), the fault record (R225), the parameters (R7), the host (R42, R254), and the
model's own fields (the schedule, the unit whose step it is, the counter of free values). -/

namespace Sys2Proof.Machine

/-- A cause of a precondition fault (R223). -/
inductive Cause where
  | noFault
  | illegalOpcode
  | reservedBits
  | cropRange
  | parity
  | pitch
  | dstHeight
  | align
  | nullPointer
  | addrWrap
  | overlap
  deriving DecidableEq, Repr

/-- The stored registers of a register block (R31); the latch (R36) is a copy of them. -/
structure Descriptor where
  cmd       : Word32
  dst0      : Word64
  dst1      : Word64
  dst2      : Word64
  src0      : Word64
  src1      : Word64
  src2      : Word64
  width     : Word32
  height    : Word32
  srcPitchY : Word32
  srcPitchC : Word32
  dstPitchY : Word32
  dstHeight : Word32
  cropL     : Word32
  cropT     : Word32
  cropR     : Word32
  cropB     : Word32
  size      : Word64
  deriving DecidableEq, Repr

/-- R251: every register is 0 after reset. -/
def Descriptor.reset : Descriptor :=
  { cmd := 0, dst0 := 0, dst1 := 0, dst2 := 0, src0 := 0, src1 := 0, src2 := 0, width := 0,
    height := 0, srcPitchY := 0, srcPitchC := 0, dstPitchY := 0, dstHeight := 0, cropL := 0,
    cropT := 0, cropR := 0, cropB := 0, size := 0 }

/-- A plane footprint `F(start, pitch, rows, rowbytes)` (R70). -/
structure Footprint where
  start    : Nat
  pitch    : Nat
  rows     : Nat
  rowbytes : Nat
  deriving DecidableEq, Repr

/-- A range of bytes the memory admits to operations (R61). -/
structure Region where
  base : Nat
  size : Nat
  deriving DecidableEq, Repr

/-- One unit (R30, R234). -/
structure UnitState where
  /-- `REG_BASE[u]` (R7, R31), a parameter. -/
  base   : Word64
  /-- The live registers (R31). -/
  regs   : Descriptor
  /-- The latched descriptor (R36). -/
  latch  : Descriptor
  /-- STATUS.BUSY (R33). -/
  busy   : Bool
  /-- STATUS.DONE (R33). -/
  done   : Bool
  /-- STATUS.FAULT (R33). -/
  fault  : Bool
  /-- STATUS.CAUSE (R33, R223). -/
  cause  : Cause
  /-- VDIRTY (R38). -/
  vdirty : Bool
  /-- The model's own (log 9): a refused access ended the operation's steps (R61, R35). -/
  stuck  : Bool
  /-- The model's own (log 10): what other agents may have written since START, for R75. -/
  foreignWrites : List Footprint
  /-- The model's own (log 10): where a read of this operation may have returned any value since START, for R75. -/
  openReads : List Footprint
  deriving DecidableEq, Repr

/-- A unit after reset (R251); its register block stays where the platform put it. -/
def UnitState.reset (base : Word64) : UnitState :=
  { base := base, regs := Descriptor.reset, latch := Descriptor.reset, busy := false, done := false,
    fault := false, cause := .noFault, vdirty := false, stuck := false, foreignWrites := [],
    openReads := [] }

/-- What a fault record entry says (R225). -/
inductive FaultKind where
  /-- A precondition fault (R221). -/
  | precondition (c : Cause)
  /-- A unit that stays BUSY for ever on a refused access (R61). -/
  | stuck
  deriving DecidableEq, Repr

/-- An entry of the fault record (R225). -/
structure FaultEntry where
  unit : Nat
  kind : FaultKind
  deriving DecidableEq, Repr

/-- A statement of the host's program (R98, R100): register accesses at host addresses, the WAIT
loop, and the host's own accesses to memory, one byte each (log 11). -/
inductive HostStmt where
  /-- A host store of `bytes` bytes at a host address of the register blocks (WR). -/
  | regStore (addr : Word64) (bytes : Nat) (value : Word64)
  /-- A host load of `bytes` bytes at a host address of the register blocks (RD). -/
  | regLoad (addr : Word64) (bytes : Nat)
  /-- WAIT: the load loop on STATUS at `addr`, until bit 0 of the value read is 0. -/
  | wait (addr : Word64)
  /-- A host store of one byte of memory. -/
  | memStore (addr : Word64) (value : Byte)
  /-- A host load of one byte of memory. -/
  | memLoad (addr : Word64)
  deriving DecidableEq, Repr

/-- The host (R30, R42): the rest of its program, and the values its loads returned, oldest first
(a byte load's value zero-extended; the loads of a WAIT loop are not listed). -/
structure HostState where
  prog  : List HostStmt
  loads : List Word64
  deriving DecidableEq, Repr

/-- Who moves in a step (log 6). -/
inductive Agent where
  | host
  | unit (u : Nat)
  /-- The platform's reset event (R250). -/
  | platformReset
  deriving DecidableEq, Repr

/-- Memory: the bytes that differ from what an unlisted address reads as, addresses rising. -/
abbrev Memory := List Host.Cell

/-- The whole machine. -/
structure State where
  /-- The OPEN parameters a value depends on (R7, R41, R191). No step changes them. -/
  params   : Config.Params
  /-- The units, unit `u` at index `u`; `N_UNITS` is their number (R234). -/
  units    : List UnitState
  /-- The data space (R60). -/
  mem      : Memory
  /-- The bytes admitted to operations (R61). No step changes them. -/
  admitted : List Region
  /-- The fault record (R225). -/
  record   : List FaultEntry
  /-- The host (R42, R254). -/
  host     : HostState
  /-- The model's own (log 6): who moves in the coming steps. -/
  turns    : List Agent
  /-- The model's own (log 7): the unit whose step an instruction is. -/
  cur      : Nat
  /-- The model's own (log 8): how many free values have been drawn. -/
  draws    : Nat
  deriving DecidableEq, Repr

/-- What stops the machine. No step does: `step` runs an instruction only on a unit that exists. -/
inductive Fault where
  /-- Raised by a meaning when the state's `cur` names no unit (R234 numbers them 0 to N_UNITS − 1).
  Safe: no operation runs, so no claim about a next state follows. -/
  | noSuchUnit
  deriving DecidableEq, Repr

/-- What the model gives no meaning. -/
inductive Refusal where
  /-- Raised by `exec`'s arm of an instruction without a meaning; there is none. Safe. -/
  | notModelled (mnemonic : String)
  /-- Raised by the host's step for a register-block access that is not a naturally aligned 8-byte
  one: R32 "is not modelled and a model refuses it". Safe. -/
  | registerAccess
  /-- Raised by the host's step for a register access at an address of no unit's register block
  (R31, R233 give the block no other register). Safe. -/
  | noRegisterBlock
  /-- Raised by the step of a configuration without units: R7 "a model refuses a configuration that
  breaks one" (N_UNITS ≥ 1). Safe. -/
  | badConfig
  deriving DecidableEq, Repr

/-- A launch (R254): the parameters, every unit in the state of R251, the memory with the bytes it
admits, the host's program; and the schedule. -/
def State.launch (params : Config.Params) (bases : List Word64) (mem : Memory)
    (admitted : List Region) (prog : List HostStmt) (turns : List Agent) : State :=
  { params := params, units := bases.map UnitState.reset, mem := mem, admitted := admitted,
    record := [], host := { prog := prog, loads := [] }, turns := turns, cur := 0, draws := 0 }

/-- The machine after reset (R251), as a launch with nothing placed: one unit at `REG_BASE[0] = 0`
(log 3), no memory listed (log 2), the whole space admitted (log 4), no host program (log 5), and the
platform's uninterpreted parameters (log 1). -/
def State.reset : State :=
  State.launch Config.platformParams [0] [] [{ base := 0, size := Config.spaceBytes }] [] []

end Sys2Proof.Machine
end

