-- ==== Sys2Proof/Machine/Arith.lean ====
section
/-! DEFINITION. The arithmetic of the operations, on mathematical integers (R9), narrowed at the end. -/

namespace Sys2Proof.Machine

/-- R9: `sat_u8(v) = min(max(v, 0), 255)`. -/
def satU8 (v : Int) : Nat :=
  (min (max v 0) 255).toNat

/-- R9: `sat_u16(v) = min(max(v, 0), 65535)`. -/
def satU16 (v : Int) : Nat :=
  (min (max v 0) 65535).toNat

/-- R9: the 16-bit value read as two's complement. -/
def sext16 (v : Nat) : Int :=
  (BitVec.ofNat 16 v).toInt

/-- R9: the 16-bit value read as unsigned. -/
def zext16 (v : Nat) : Int :=
  ((BitVec.ofNat 16 v).toNat : Int)

/-- R141: `avg_u8(a, b) = (a + b + 1) >> 1`. -/
def avgU8 (a b : Nat) : Nat :=
  (a + b + 1) >>> 1

/-- R142: `tap_u8(up, down, (w0, w1)) = sat_u8((up × w0 + down × w1 + 2) >> 2)`. -/
def tapU8 (up down : Nat) (w : Nat × Nat) : Nat :=
  satU8 (((up * w.1 + down * w.2 + 2 : Nat) : Int) >>> 2)

/-- R191: the widening of a source sample. -/
def widen (w : Widen) (v : Nat) : Int :=
  match w with
  | .sext => sext16 v
  | .zext => zext16 v

/-- R195: `bias(k) = 2^(k−1)` for k ≥ 1 and `bias(0) = 0`. -/
def bias : Nat → Int
  | 0 => 0
  | k + 1 => 2 ^ k

/-- R199: the range of the 32-bit intermediate. -/
def in32 (v : Int) : Bool :=
  decide (-2 ^ 31 ≤ v) && decide (v ≤ 2 ^ 31 - 1)

/-- The rescale shared by R196, R197 and R198: `sum` times the multiplier, rounded and shifted by `k`,
plus the offset, saturated to u16. `none` where an intermediate leaves 32 bits: R199, "any u16
value". -/
def rescale (c : Config.Coef) (k : Nat) (sum : Int) : Option Nat :=
  let product := sum * c.mul.toInt
  let biased := product + bias k
  let out := (biased >>> k) + c.off.toInt
  if in32 sum && in32 product && in32 biased && in32 out then some (satU16 out) else none

/-- R196: luma rescale `rsY` of a widened sample. -/
def rsY (c : Config.Coef) (s : Int) : Option Nat :=
  rescale c c.shift.val s

/-- R197: progressive chroma `rsCp` of two widened samples. -/
def rsCp (c : Config.Coef) (a b : Int) : Option Nat :=
  rescale c (c.shift.val + 1) (a + b)

/-- R198: interlaced chroma `rsCi` of two widened samples. -/
def rsCi (c : Config.Coef) (up down : Int) (w : Nat × Nat) : Option Nat :=
  rescale c (c.shift.val + 2) (up * w.1 + down * w.2)

end Sys2Proof.Machine
end

