-- ==== Sys2Proof/Decode.lean ====
section
/-! DEFINITION. The command word CMD32 (R90): its fields, the decoder, the encoder, and the registers
each operation reads (R91). A command is the value of the CMD register, never bytes in memory
(R80). -/

namespace Sys2Proof

/-- Why a command word is no operation: checks 1 and 2 of R222. -/
inductive DecodeError where
  /-- R94: OP is not in the opcode map. -/
  | illegalOpcode
  /-- R95: a legal OP with RSVD ≠ 0. -/
  | reservedBits
  deriving DecidableEq, Repr

/-- OP, bits 7:0 of CMD (R90). -/
def cmdOp (w : Word32) : Nat := (w.extractLsb' 0 8).toNat

/-- NT, bit 8 of CMD (R90): 0 cached, 1 non-temporal (R93). -/
def cmdNt (w : Word32) : StorePolicy :=
  if w.getLsbD 8 then .nonTemporal else .cached

/-- RSVD, bits 31:9 of CMD (R90). -/
def cmdRsvd (w : Word32) : Nat := (w.extractLsb' 9 23).toNat

/-- The opcode map R92: OP, then NT. -/
def operationOf (op : Nat) (nt : StorePolicy) : Option Instr :=
  match op with
  | 0x01 =>
    match nt with
    | .cached => some .moveC
    | .nonTemporal => some .moveNT
  | 0x10 => some (.cvtP422 nt)
  | 0x11 => some (.cvtP422I nt)
  | 0x20 => some (.cvtPl420 nt)
  | 0x21 => some (.cvtPl420Uv nt)
  | 0x30 => some (.copyPl444 nt)
  | 0x40 => some (.cvtPk444w nt)
  | 0x41 => some (.cvtPk444wI nt)
  | _ => none

/-- The operation a command word names, by OP and NT whatever RSVD holds: R37, "the one `d.CMD.OP` selects". -/
def namedOperation (w : Word32) : Option Instr :=
  operationOf (cmdOp w) (cmdNt w)

/-- R96: "A decoder tells the operation from OP alone, then the policy from NT, then checks RSVD". -/
def decode (w : Word32) : Except DecodeError Instr :=
  match namedOperation w with
  | none => .error .illegalOpcode
  | some i => if cmdRsvd w = 0 then .ok i else .error .reservedBits

/-- The NT bit of an instruction's word (R92). -/
def ntOf : Instr → StorePolicy
  | .moveC => .cached
  | .moveNT => .nonTemporal
  | .cvtP422 nt => nt
  | .cvtP422I nt => nt
  | .cvtPl420 nt => nt
  | .cvtPl420Uv nt => nt
  | .copyPl444 nt => nt
  | .cvtPk444w nt => nt
  | .cvtPk444wI nt => nt

/-- The OP of an instruction (R92). -/
def opcodeOf : Instr → BitVec 8
  | .moveC => 0x01
  | .moveNT => 0x01
  | .cvtP422 _ => 0x10
  | .cvtP422I _ => 0x11
  | .cvtPl420 _ => 0x20
  | .cvtPl420Uv _ => 0x21
  | .copyPl444 _ => 0x30
  | .cvtPk444w _ => 0x40
  | .cvtPk444wI _ => 0x41

/-- NT as a bit (R93). -/
def policyBit : StorePolicy → BitVec 1
  | .cached => 0
  | .nonTemporal => 1

/-- The CMD value of an instruction (R92): RSVD = 0, NT, OP. -/
def encode (i : Instr) : Word32 :=
  ((0 : BitVec 23) ++ policyBit (ntOf i)) ++ opcodeOf i

/-- The policy of an operation's stores (R93, R121): COPY.PL444 stores non-temporally whatever NT
holds. No value depends on it (R81). -/
def storePolicyOf : Instr → StorePolicy
  | .copyPl444 _ => .nonTemporal
  | .moveC => .cached
  | .moveNT => .nonTemporal
  | .cvtP422 nt => nt
  | .cvtP422I nt => nt
  | .cvtPl420 nt => nt
  | .cvtPl420Uv nt => nt
  | .cvtPk444w nt => nt
  | .cvtPk444wI nt => nt

/-- `i` with its NT field set, where its mnemonic leaves NT open (R92, R99). -/
def withPolicy (nt : StorePolicy) : Instr → Instr
  | .moveC => .moveC
  | .moveNT => .moveNT
  | .cvtP422 _ => .cvtP422 nt
  | .cvtP422I _ => .cvtP422I nt
  | .cvtPl420 _ => .cvtPl420 nt
  | .cvtPl420Uv _ => .cvtPl420Uv nt
  | .copyPl444 _ => .copyPl444 nt
  | .cvtPk444w _ => .cvtPk444w nt
  | .cvtPk444wI _ => .cvtPk444wI nt

/-- R91: the registers an operation reads, in ascending offset order; CMD is not among them. -/
def registersRead : Instr → List Reg
  | .moveC => [.dst0, .src0, .size]
  | .moveNT => [.dst0, .src0, .size]
  | .cvtP422 _ =>
    [.dst0, .src0, .width, .height, .srcPitchY, .dstPitchY, .dstHeight, .cropL, .cropT, .cropR, .cropB]
  | .cvtP422I _ =>
    [.dst0, .src0, .width, .height, .srcPitchY, .dstPitchY, .dstHeight, .cropL, .cropT, .cropR, .cropB]
  | .cvtPl420 _ =>
    [.dst0, .src0, .src1, .src2, .width, .height, .srcPitchY, .srcPitchC, .dstPitchY, .dstHeight,
      .cropL, .cropT, .cropR, .cropB]
  | .cvtPl420Uv _ =>
    [.dst0, .src1, .src2, .width, .height, .srcPitchC, .dstPitchY, .dstHeight,
      .cropL, .cropT, .cropR, .cropB]
  | .copyPl444 _ =>
    [.dst0, .dst1, .dst2, .src0, .src1, .src2, .width, .height, .srcPitchY, .srcPitchC, .dstPitchY,
      .cropL, .cropT, .cropR, .cropB]
  | .cvtPk444w _ =>
    [.dst0, .src0, .width, .height, .srcPitchY, .dstPitchY, .dstHeight, .cropL, .cropT, .cropR, .cropB]
  | .cvtPk444wI _ =>
    [.dst0, .src0, .width, .height, .srcPitchY, .dstPitchY, .dstHeight, .cropL, .cropT, .cropR, .cropB]

/-- The instruction the decoder reads from the table's word `w` of `nbits` bits: the CMD register
takes the word's low 32 bits, bits above `nbits` being 0. -/
def decodeTableWord (nbits w : Nat) : Option Instr :=
  match decode (BitVec.ofNat 32 (w % 2 ^ nbits)) with
  | .ok i => some i
  | .error _ => none

end Sys2Proof
end

