-- ==== Sys2Proof/Machine/Flags.lean ====
section
/-! DEFINITION. The flags of the block: STATUS is all there is (R33: "These are the only flags of the
block; there are no condition codes or predicates"). Each way a flag is set or cleared, once. -/

namespace Sys2Proof.Machine

/-- The cause codes (R223). -/
def Cause.code : Cause → BitVec 8
  | .noFault => 0x00
  | .illegalOpcode => 0x01
  | .reservedBits => 0x02
  | .cropRange => 0x03
  | .parity => 0x04
  | .pitch => 0x05
  | .dstHeight => 0x06
  | .align => 0x07
  | .nullPointer => 0x08
  | .addrWrap => 0x09
  | .overlap => 0x0A

/-- The cause of a command word the decoder rejects: checks 1 and 2 of R222. -/
def causeOfDecodeError : DecodeError → Cause
  | .illegalOpcode => .illegalOpcode
  | .reservedBits => .reservedBits

/-- A flag as a number. -/
def flagNat (b : Bool) : Nat := if b then 1 else 0

/-- The value of STATUS (R31): BUSY[0], DONE[1], FAULT[2], CAUSE[15:8], every other bit 0. -/
def statusValue (un : UnitState) : Nat :=
  flagNat un.busy + 2 * flagNat un.done + 4 * flagNat un.fault + 256 * un.cause.code.toNat

/-- R34: `DONE <- 0; FAULT <- 0; CAUSE <- 0`. -/
def clearStatus (un : UnitState) : UnitState :=
  { un with done := false, fault := false, cause := .noFault }

/-- R221: `VDIRTY <- 0; BUSY <- 0; FAULT <- 1; STATUS.CAUSE <- CAUSE`. -/
def endInFault (c : Cause) (un : UnitState) : UnitState :=
  { un with vdirty := false, busy := false, fault := true, cause := c, foreignWrites := [],
            openReads := [] }

/-- R224, FINISH: `VDIRTY <- 0; BUSY <- 0; DONE <- 1`. -/
def endInDone (un : UnitState) : UnitState :=
  { un with vdirty := false, busy := false, done := true, foreignWrites := [], openReads := [] }

/-- R35, R61: the unit stays BUSY = 1 for ever. -/
def endStuck (un : UnitState) : UnitState :=
  { un with stuck := true }

/-- R36: `latch <- (CMD, …, SIZE); DONE <- 0; FAULT <- 0; CAUSE <- 0; BUSY <- 1`. VDIRTY may be 1 while
BUSY (R38): `vdirty` is a free value. -/
def beginBusy (vdirty : Bool) (foreign openReads : List Footprint) (un : UnitState) : UnitState :=
  { un with latch := un.regs, done := false, fault := false, cause := .noFault, busy := true,
            vdirty := vdirty, stuck := false, foreignWrites := foreign, openReads := openReads }

/-- A unit that has a step: an idle unit has none (R237), and after a refused access the operation
"makes no further step" (R61). -/
def UnitState.ready (un : UnitState) : Bool :=
  un.busy && !un.stuck

end Sys2Proof.Machine
end

