-- ==== Sys2Proof/Machine/Ops.lean ====
section
/-! DEFINITION. The named operations over memory, registers and units, and the end of an operation:
a precondition fault (R221, the block's only exception), FINISH (R224), a refused access (R61). There
is no return from a fault (R230): CLEAR or the next START clears it. -/

namespace Sys2Proof.Machine

/-! ### Memory -/

/-- What an address that is not listed reads as (log 2): DESIGN CHOICE, the "every byte not given is
0x00" of the programs of 95_test_vectors.md. -/
def Memory.unlisted : Byte := 0

/-- The byte at an address. -/
def Memory.read : Memory → Nat → Byte
  | [], _ => Memory.unlisted
  | (k, v) :: rest, a => if k = a then v else Memory.read rest a

/-- A cell in front of a list, unless its byte is what an unlisted address reads as. -/
def Memory.put (a : Nat) (v : Byte) (rest : Memory) : Memory :=
  if v = Memory.unlisted then rest else (a, v) :: rest

/-- Write one byte, keeping the canonical form. -/
def Memory.write : Memory → Nat → Byte → Memory
  | [], a, v => Memory.put a v []
  | (k, w) :: rest, a, v =>
    if a < k then Memory.put a v ((k, w) :: rest)
    else if a = k then Memory.put a v rest
    else (k, w) :: Memory.write rest a v

/-- Write a list of bytes, in order. -/
def Memory.writeAll (m : Memory) (cells : List Host.Cell) : Memory :=
  cells.foldl (fun m c => m.write c.1 c.2) m

/-- Whether every address of a list is above `lo`, rising, in the data space, with a byte an unlisted
address does not read as. -/
def Memory.wfFrom : Option Nat → Memory → Bool
  | _, [] => true
  | lo, (k, v) :: rest =>
    (match lo with
      | none => true
      | some b => decide (b < k)) &&
    decide (k < Config.spaceBytes) && decide (v ≠ Memory.unlisted) && Memory.wfFrom (some k) rest

/-- The canonical form: addresses strictly rising, in the data space (R60), no entry equal to what an
unlisted address reads as. -/
def Memory.wf (m : Memory) : Bool :=
  Memory.wfFrom none m

/-- R61: whether the memory admits an operation's access to a byte. -/
def admits (rs : List Region) (a : Nat) : Bool :=
  rs.any fun r => decide (r.base ≤ a) && decide (a < r.base + r.size)

/-- R62: `MemRead(a, n)`, the n-byte value at `a`, little-endian. -/
def readLE (rd : Nat → Byte) (a : Nat) : Nat → Nat
  | 0 => 0
  | n + 1 => (rd a).toNat + 256 * readLE rd (a + 1) n

/-- R62: byte `k` of a value stored little-endian. -/
def byteOfLE (v k : Nat) : Byte :=
  BitVec.ofNat 8 (v / 256 ^ k)

/-! ### Registers of a register block (R31) -/

/-- Offset of a register in its block (R31). -/
def regOff : Reg → Nat
  | .cmd => 0x00
  | .dst0 => 0x08
  | .dst1 => 0x10
  | .dst2 => 0x18
  | .src0 => 0x20
  | .src1 => 0x28
  | .src2 => 0x30
  | .width => 0x38
  | .height => 0x40
  | .srcPitchY => 0x48
  | .srcPitchC => 0x50
  | .dstPitchY => 0x58
  | .dstHeight => 0x60
  | .cropL => 0x68
  | .cropT => 0x70
  | .cropR => 0x78
  | .cropB => 0x80
  | .size => 0x88
  | .ctrl => 0x90
  | .status => 0x98

/-- The register of a slot, slot `off / 8` (R31); `none` is a reserved slot. -/
def regOfSlot : Nat → Option Reg
  | 0 => some .cmd
  | 1 => some .dst0
  | 2 => some .dst1
  | 3 => some .dst2
  | 4 => some .src0
  | 5 => some .src1
  | 6 => some .src2
  | 7 => some .width
  | 8 => some .height
  | 9 => some .srcPitchY
  | 10 => some .srcPitchC
  | 11 => some .dstPitchY
  | 12 => some .dstHeight
  | 13 => some .cropL
  | 14 => some .cropT
  | 15 => some .cropR
  | 16 => some .cropB
  | 17 => some .size
  | 18 => some .ctrl
  | 19 => some .status
  | _ => none

/-- The value a load of a register returns (R31, R32): a 32-bit register in bits 31:0 of its slot,
CTRL 0, STATUS its flags. -/
def UnitState.load (un : UnitState) : Reg → Word64
  | .cmd => un.regs.cmd.setWidth 64
  | .dst0 => un.regs.dst0
  | .dst1 => un.regs.dst1
  | .dst2 => un.regs.dst2
  | .src0 => un.regs.src0
  | .src1 => un.regs.src1
  | .src2 => un.regs.src2
  | .width => un.regs.width.setWidth 64
  | .height => un.regs.height.setWidth 64
  | .srcPitchY => un.regs.srcPitchY.setWidth 64
  | .srcPitchC => un.regs.srcPitchC.setWidth 64
  | .dstPitchY => un.regs.dstPitchY.setWidth 64
  | .dstHeight => un.regs.dstHeight.setWidth 64
  | .cropL => un.regs.cropL.setWidth 64
  | .cropT => un.regs.cropT.setWidth 64
  | .cropR => un.regs.cropR.setWidth 64
  | .cropB => un.regs.cropB.setWidth 64
  | .size => un.regs.size
  | .ctrl => 0
  | .status => BitVec.ofNat 64 (statusValue un)

/-- The live registers after a store of `v` to a RW register (R31: bits 63:32 of a 32-bit register's
slot are ignored); a store to STATUS has no effect (R32). CTRL is not a stored register: its store
is the host's START or CLEAR (R34). -/
def Descriptor.store (d : Descriptor) (r : Reg) (v : Word64) : Descriptor :=
  match r with
  | .cmd => { d with cmd := v.setWidth 32 }
  | .dst0 => { d with dst0 := v }
  | .dst1 => { d with dst1 := v }
  | .dst2 => { d with dst2 := v }
  | .src0 => { d with src0 := v }
  | .src1 => { d with src1 := v }
  | .src2 => { d with src2 := v }
  | .width => { d with width := v.setWidth 32 }
  | .height => { d with height := v.setWidth 32 }
  | .srcPitchY => { d with srcPitchY := v.setWidth 32 }
  | .srcPitchC => { d with srcPitchC := v.setWidth 32 }
  | .dstPitchY => { d with dstPitchY := v.setWidth 32 }
  | .dstHeight => { d with dstHeight := v.setWidth 32 }
  | .cropL => { d with cropL := v.setWidth 32 }
  | .cropT => { d with cropT := v.setWidth 32 }
  | .cropR => { d with cropR := v.setWidth 32 }
  | .cropB => { d with cropB := v.setWidth 32 }
  | .size => { d with size := v }
  | .ctrl => d
  | .status => d

/-! ### Units -/

/-- Replace unit `u`. -/
def State.setUnit (s : State) (u : Nat) (un : UnitState) : State :=
  { s with units := s.units.set u un }

/-- R221, R225: end the operation of the current unit with the precondition fault `c`: no memory
access, the flags of `endInFault`, an entry in the fault record. -/
def State.raiseFault (s : State) (un : UnitState) (c : Cause) : State :=
  { s.setUnit s.cur (endInFault c un) with
    record := s.record ++ [{ unit := s.cur, kind := .precondition c }] }

/-- R224: end the operation of the current unit with DONE, its writes performed. -/
def State.finish (s : State) (un : UnitState) (cells : List Host.Cell) : State :=
  { s.setUnit s.cur (endInDone un) with
    mem := s.mem.writeAll cells
    draws := s.draws + 1 }

/-- R61, R225: the operation of the current unit makes no further step; the writes it already made
stay, and the fault record notes it. -/
def State.getStuck (s : State) (un : UnitState) (cells : List Host.Cell) : State :=
  { s.setUnit s.cur (endStuck un) with
    mem := s.mem.writeAll cells
    draws := s.draws + 1
    record := s.record ++ [{ unit := s.cur, kind := .stuck }] }

end Sys2Proof.Machine
end

