-- ==== Sys2Proof/Machine/Operands.lean ====
section
/-! DEFINITION. Operands: the latched descriptor's geometry (R65 to R69), footprints (R70), and the
PLAN of an operation, which says once what the operation checks, reads and writes (R71, R222). -/

namespace Sys2Proof.Machine

/-! ### Geometry of a descriptor: every register read as a non-negative integer (R97) -/

/-- R66: `out_w`, on integers. -/
def outWInt (d : Descriptor) : Int :=
  (d.width.toNat : Int) - d.cropL.toNat - d.cropR.toNat

/-- R66: `out_h`, on integers. -/
def outHInt (d : Descriptor) : Int :=
  (d.height.toNat : Int) - d.cropT.toNat - d.cropB.toNat

/-- `out_w` where CROP_RANGE passes. -/
def outW (d : Descriptor) : Nat := (outWInt d).toNat

/-- `out_h` where CROP_RANGE passes. -/
def outH (d : Descriptor) : Nat := (outHInt d).toNat

/-- R68: `CBASE = d.DST0 + d.DST_PITCH_Y × d.DST_HEIGHT`. -/
def cbase (d : Descriptor) : Nat :=
  d.dst0.toNat + d.dstPitchY.toNat * d.dstHeight.toNat

/-- R71: start of a source footprint, `base + T × pitch + col_bytes × L`. -/
def srcStart (base : Word64) (pitch : Word32) (top colBytes : Nat) : Nat :=
  base.toNat + top * pitch.toNat + colBytes

/-- Row pairing of the interlaced operations (R144, R202): output chroma row `j = 2g + i` belongs to
field `i = j mod 2` of group `g = j / 2`; `up` is row 4g + i. -/
def fieldUp (j : Nat) : Nat := 4 * (j / 2) + j % 2

/-- R144, R202: `down` is row 4g + i + 2. -/
def fieldDown (j : Nat) : Nat := 4 * (j / 2) + j % 2 + 2

/-- R145, R203: field `i` uses `WEIGHT[i]`. -/
def fieldWeight (j : Nat) : Nat × Nat :=
  Config.weight ⟨j % 2, Nat.mod_lt j (by decide)⟩

/-! ### Footprints (R70) -/

/-- Address of byte `b` of row `r`. -/
def Footprint.addr (f : Footprint) (r b : Nat) : Nat :=
  f.start + r * f.pitch + b

/-- R70: "It is empty when rows = 0 or rowbytes = 0". -/
def Footprint.isEmpty (f : Footprint) : Bool :=
  decide (f.rows = 0) || decide (f.rowbytes = 0)

/-- Whether an address is in the footprint. -/
def Footprint.has (f : Footprint) (a : Nat) : Bool :=
  (List.range f.rows).any fun r => decide (f.addr r 0 ≤ a) && decide (a < f.addr r f.rowbytes)

/-- Whether two footprints share a byte: some row of one meets some row of the other. -/
def Footprint.overlaps (f g : Footprint) : Bool :=
  !f.isEmpty && !g.isEmpty &&
  (List.range f.rows).any fun r => (List.range g.rows).any fun q =>
    decide (f.addr r 0 < g.addr q g.rowbytes) && decide (g.addr q 0 < f.addr r f.rowbytes)

/-- Check 9 of R222: a non-empty footprint has a byte address ≥ 2^64 (its last byte is its highest). -/
def Footprint.wraps (f : Footprint) : Bool :=
  !f.isEmpty && decide (Config.spaceBytes ≤ f.addr (f.rows - 1) (f.rowbytes - 1))

/-- The bytes of one address, for a byte another agent writes. -/
def byteFootprint (a : Nat) : Footprint :=
  { start := a, pitch := 0, rows := 1, rowbytes := 1 }

/-- Check 10 of R222: two distinct footprints share a byte. -/
def anyOverlap : List Footprint → Bool
  | [] => false
  | f :: rest => rest.any (fun g => f.overlaps g) || anyOverlap rest

/-! ### Plans -/

/-- The value of one written sample, from the sample or the two samples it is computed from
(`MemRead` at these addresses); `none` is "any value" (R199). -/
inductive Sample where
  | one (a : Nat) (f : Nat → Option Nat)
  | two (a b : Nat) (f : Nat → Nat → Option Nat)

/-- The addresses of the samples read. -/
def Sample.sources : Sample → List Nat
  | .one a _ => [a]
  | .two a b _ => [a, b]

/-- The value, where `rd` reads the sample at an address. -/
def Sample.value (rd : Nat → Nat) : Sample → Option Nat
  | .one a f => f (rd a)
  | .two a b f => f (rd a) (rd b)

/-- A source plane: its base register (for NULL_POINTER) and its footprint (R71). -/
structure SrcPlane where
  base : Word64
  fp   : Footprint

/-- A destination plane: its base register, its place (R71), its samples per row, the bytes of a
sample (R64), and the sample written at row `r`, column `x`. -/
structure DstPlane where
  base   : Word64
  start  : Nat
  pitch  : Nat
  rows   : Nat
  cols   : Nat
  bytes  : Nat
  sample : Nat → Nat → Sample

/-- The destination footprint (R71). -/
def DstPlane.fp (p : DstPlane) : Footprint :=
  { start := p.start, pitch := p.pitch, rows := p.rows, rowbytes := p.cols * p.bytes }

/-- What an operation does: the checks 3 to 7 of R222 in order, each with its fault; the source
planes; the destination planes with what is written there. -/
structure Plan where
  pre : List (Bool × Cause)
  src : List SrcPlane
  dst : List DstPlane

/-- The first check that fails (R222, R228). -/
def firstFailing : List (Bool × Cause) → Option Cause
  | [] => none
  | (failed, c) :: rest => if failed then some c else firstFailing rest

/-- The source footprints. -/
def Plan.srcFps (p : Plan) : List Footprint := p.src.map SrcPlane.fp

/-- The destination footprints. -/
def Plan.dstFps (p : Plan) : List Footprint := p.dst.map DstPlane.fp

/-- Every plane's base register with its footprint. -/
def Plan.planes (p : Plan) : List (Word64 × Footprint) :=
  p.src.map (fun q => (q.base, q.fp)) ++ p.dst.map (fun q => (q.base, q.fp))

/-- Check 8 of R222: "some plane of the operation with a non-empty footprint has base register 0". -/
def Plan.nullPointer (p : Plan) : Bool :=
  p.planes.any fun q => decide (q.1 = 0) && !q.2.isEmpty

/-- Check 9 of R222. -/
def Plan.addrWrap (p : Plan) : Bool :=
  p.planes.any fun q => q.2.wraps

/-- Check 10 of R222. -/
def Plan.overlap (p : Plan) : Bool :=
  anyOverlap (p.planes.map Prod.snd)

/-- CHECKS, orders 3 to 10 of R222. Orders 1 and 2 are the decoder's. -/
def Plan.check (p : Plan) : Option Cause :=
  firstFailing (p.pre ++
    [(p.nullPointer, .nullPointer), (p.addrWrap, .addrWrap), (p.overlap, .overlap)])

/-- One byte an operation writes: where, from which bytes, and its value (`none`: any value). -/
structure ByteWrite where
  addr  : Nat
  reads : List Nat
  value : Option Byte

/-- Byte `b` of row `r` of a destination plane, where `rd` reads memory. -/
def DstPlane.byteWrite (rd : Nat → Byte) (p : DstPlane) (r b : Nat) : ByteWrite :=
  { addr := p.fp.addr r b
    reads := (p.sample r (b / p.bytes)).sources.flatMap fun a => (List.range p.bytes).map (a + ·)
    value := ((p.sample r (b / p.bytes)).value fun a => readLE rd a p.bytes).map
      fun v => byteOfLE v (b % p.bytes) }

/-- Every byte an operation writes (R72: "every byte of every destination footprint"). -/
def Plan.byteWrites (rd : Nat → Byte) (p : Plan) : List ByteWrite :=
  p.dst.flatMap fun q => (List.range q.rows).flatMap fun r =>
    (List.range (q.cols * q.bytes)).map fun b => q.byteWrite rd r b

/-- Whether the memory admits every access a byte write needs (R61, R35). -/
def ByteWrite.admittedBy (rs : List Region) (w : ByteWrite) : Bool :=
  w.reads.all (admits rs) && admits rs w.addr

/-- R75, first rule: whether the value of the byte written at `a` comes from a read that returns any value: of a
source byte in the destination of another BUSY operation (`fps`). -/
def readsOpen (fps : List Footprint) (p : Plan) (a : Nat) : Bool :=
  fps.any fun f => (p.byteWrites fun _ => Memory.unlisted).any fun w =>
    decide (w.addr = a) && w.reads.any fun r => f.has r && p.srcFps.any fun g => g.has r

/-- R75: whether a byte of the destination holds any value at DONE: another agent may have written a byte of a
source footprint, or this byte; or the operation may have read any value for it. -/
def racedAt (un : UnitState) (p : Plan) (a : Nat) : Bool :=
  (un.foreignWrites.any fun f => f.has a || p.srcFps.any fun g => f.overlaps g) ||
  readsOpen un.openReads p a

/-- The cell a byte write leaves at DONE (R73), with the free values of R75 and R199. -/
def ByteWrite.cell (draw : Nat → Byte) (raced : Nat → Bool) (w : ByteWrite) : Host.Cell :=
  (w.addr, if raced w.addr then draw w.addr else w.value.getD (draw w.addr))

end Sys2Proof.Machine
end

