-- ==== Sys2Proof/Machine/Run.lean ====
section
/-! DEFINITION. Running one operation on the current unit, from its plan: CHECKS (R222), then every
access as one atomic step at the STATUS change (R257), then FINISH (R224); or a refused access (R61). -/

namespace Sys2Proof.Machine

/-- The bytes the current unit's operation leaves at DONE (R73, R75, R199). -/
def finalCells (s : State) (un : UnitState) (p : Plan) : List Host.Cell :=
  (p.byteWrites s.mem.read).map
    (ByteWrite.cell (Config.freeByte s.draws) (racedAt un p))

/-- The bytes of an operation that does not reach DONE, each byte written or not as the free choice
`n` says (R74 leaves the order open), and only where every access the byte needs is admitted: after a
refused access (R61) and at a reset while BUSY (R252). DESIGN CHOICE (log 27): a byte that R75 leaves to a race holds,
when written, a free value, and else what another agent last stored there; R252 and R61 say nothing of races. -/
def partialCells (n : Nat) (admitted : List Region) (mem : Memory) (un : UnitState) (p : Plan) :
    List Host.Cell :=
  ((p.byteWrites mem.read).filter
    (fun w => w.admittedBy admitted && Config.freeBool n w.addr)).map
      (ByteWrite.cell (Config.freeByte n) (racedAt un p))

/-- Whether every access of the operation is admitted (R61). -/
def Plan.admittedBy (rs : List Region) (rd : Nat → Byte) (p : Plan) : Bool :=
  (p.byteWrites rd).all (ByteWrite.admittedBy rs)

/-- One operation of the current unit, given its plan. -/
def runPlan (plan : Config.Params → Descriptor → Plan) (s : State) :
    Host.Outcome State Fault Refusal :=
  match s.units[s.cur]? with
  | none => .fault .noSuchUnit
  | some un =>
    match (plan s.params un.latch).check with
    | some c => .next (s.raiseFault un c)
    | none =>
      if (plan s.params un.latch).admittedBy s.admitted s.mem.read then
        .next (s.finish un (finalCells s un (plan s.params un.latch)))
      else
        .next (s.getStuck un (partialCells s.draws s.admitted s.mem un (plan s.params un.latch)))

end Sys2Proof.Machine
end

