-- ==== Sys2Proof/Machine/BulkMove.lean ====
section
/-! DEFINITION. The Bulk Row Mover: MOVE.C (R125), MOVE.NT (R126). -/

namespace Sys2Proof.Machine

/-- R125, R126: byte `DST0 + i` takes byte `SRC0 + i`, for `i` in `[0, SIZE)`; no check of orders 3 to 7
applies (R222). -/
def movePlan (d : Descriptor) : Plan :=
  { pre := []
    src := [{ base := d.src0, fp := { start := d.src0.toNat, pitch := 0, rows := 1, rowbytes := d.size.toNat } }]
    dst := [{ base := d.dst0, start := d.dst0.toNat, pitch := 0, rows := 1, cols := d.size.toNat, bytes := 1,
              sample := fun _ i => .one (d.src0.toNat + i) some }] }

/-- R125. -/
def planMoveC (_ : Config.Params) (d : Descriptor) : Plan := movePlan d

/-- R126. -/
def planMoveNT (_ : Config.Params) (d : Descriptor) : Plan := movePlan d

/-- MOVE.C (R125). -/
def execMoveC (s : State) : Host.Outcome State Fault Refusal :=
  runPlan planMoveC s

/-- MOVE.NT (R126): the policy changes no byte (R121). -/
def execMoveNT (s : State) : Host.Outcome State Fault Refusal :=
  runPlan planMoveNT s

end Sys2Proof.Machine
end

