-- ==== Sys2Proof/Machine/Packed422.lean ====
section
/-! DEFINITION. Packed 4:2:2 to semi-planar 4:2:0: CVT.P422.SP420 (R147), CVT.P422.SP420.I (R148). -/

namespace Sys2Proof.Machine

/-- Some value is odd: the PARITY check of R146, R162, R200. -/
def anyOddGeometry (d : Descriptor) : Bool :=
  [d.width, d.height, d.cropL, d.cropT, d.cropR, d.cropB].any fun v => decide (v.toNat % 2 = 1)

/-- CROP_RANGE (R66): `out_w < 0` or `out_h < 0`. -/
def cropOutOfRange (d : Descriptor) : Bool :=
  decide (outWInt d < 0) || decide (outHInt d < 0)

/-- `S = d.SRC0 + d.CROP_T × Yp + 2 × d.CROP_L` (R71). -/
def p422Start (d : Descriptor) : Nat :=
  srcStart d.src0 d.srcPitchY d.cropT.toNat (2 * d.cropL.toNat)

/-- R140: address of `Ysrc(r, x)`. -/
def p422Luma (d : Descriptor) (r x : Nat) : Nat :=
  p422Start d + r * d.srcPitchY.toNat + 2 * x

/-- R140: address of `Csrc(r, x)`. -/
def p422Chroma (d : Descriptor) (r x : Nat) : Nat :=
  p422Start d + r * d.srcPitchY.toNat + 2 * x + 1

/-- Source plane FS0 of the P422 operations (R71). -/
def p422Src (d : Descriptor) : SrcPlane :=
  { base := d.src0
    fp := { start := p422Start d, pitch := d.srcPitchY.toNat, rows := outH d, rowbytes := 2 * outW d } }

/-- Destination luma plane FD0 of the P422 operations: "luma rows are stored directly" (R147, R148). -/
def p422LumaDst (d : Descriptor) : DstPlane :=
  { base := d.dst0, start := d.dst0.toNat, pitch := d.dstPitchY.toNat, rows := outH d, cols := outW d, bytes := 1,
    sample := fun r x => .one (p422Luma d r x) some }

/-- Destination chroma plane FD1 of the P422 operations, from the sample written at row `j`, byte `x`. DESIGN CHOICE
(log 28): the `out_h / 2` rows of R71 are rounded down where out_h is odd, which PARITY then refuses. -/
def p422ChromaDst (d : Descriptor) (sample : Nat → Nat → Sample) : DstPlane :=
  { base := d.dst0, start := cbase d, pitch := d.dstPitchY.toNat, rows := outH d / 2, cols := outW d, bytes := 1,
    sample := sample }

/-- The checks of R146; `parity` is the operation's PARITY condition. -/
def p422Pre (d : Descriptor) (parity : Bool) : List (Bool × Cause) :=
  [(cropOutOfRange d, .cropRange),
   (parity, .parity),
   (decide (d.srcPitchY.toNat < 2 * d.width.toNat) || decide (d.dstPitchY.toNat < outW d), .pitch),
   (decide (d.dstHeight.toNat < outH d), .dstHeight)]

/-- R147: chroma row `j` is the rounded average of cropped rows `2j` and `2j + 1`. -/
def planCvtP422 (_ : Config.Params) (d : Descriptor) : Plan :=
  { pre := p422Pre d (anyOddGeometry d)
    src := [p422Src d]
    dst := [p422LumaDst d,
      p422ChromaDst d fun j x => .two (p422Chroma d (2 * j) x) (p422Chroma d (2 * j + 1) x)
        fun a b => some (avgU8 a b)] }

/-- R148: chroma row `2g + i` is the tap of rows `4g + i` and `4g + i + 2` with `WEIGHT[i]`. -/
def planCvtP422I (_ : Config.Params) (d : Descriptor) : Plan :=
  { pre := p422Pre d (anyOddGeometry d || decide (outH d % 4 ≠ 0))
    src := [p422Src d]
    dst := [p422LumaDst d,
      p422ChromaDst d fun j x => .two (p422Chroma d (fieldUp j) x) (p422Chroma d (fieldDown j) x)
        fun a b => some (tapU8 a b (fieldWeight j))] }

/-- CVT.P422.SP420 (R147); the store policy changes no value (R93). -/
def execCvtP422 (_nt : StorePolicy) (s : State) : Host.Outcome State Fault Refusal :=
  runPlan planCvtP422 s

/-- CVT.P422.SP420.I (R148); the store policy changes no value (R93). -/
def execCvtP422I (_nt : StorePolicy) (s : State) : Host.Outcome State Fault Refusal :=
  runPlan planCvtP422I s

end Sys2Proof.Machine
end

