-- ==== Sys2Proof/Machine/HighBit.lean ====
section
/-! DEFINITION. High-bit-depth gather/rescale: CVT.PK444W.SP420W (R201), CVT.PK444W.SP420W.I (R204). -/

namespace Sys2Proof.Machine

/-- `S = d.SRC0 + d.CROP_T × Yp + 6 × d.CROP_L` (R71). -/
def pk444Start (d : Descriptor) : Nat :=
  srcStart d.src0 d.srcPitchY d.cropT.toNat (6 * d.cropL.toNat)

/-- R190, R193: address of channel `c` of cropped pixel `x` of cropped row `r`. -/
def pk444Channel (d : Descriptor) (c r x : Nat) : Nat :=
  pk444Start d + r * d.srcPitchY.toNat + 6 * x + 2 * c

/-- FS0 (R71). -/
def pk444Src (d : Descriptor) : SrcPlane :=
  { base := d.src0
    fp := { start := pk444Start d, pitch := d.srcPitchY.toNat, rows := outH d, rowbytes := 6 * outW d } }

/-- FD0: luma sample `(r, x)` is `rsY(Ysrc(r, x))` (R196, R201). -/
def pk444LumaDst (p : Config.Params) (d : Descriptor) : DstPlane :=
  { base := d.dst0, start := d.dst0.toNat, pitch := d.dstPitchY.toNat, rows := outH d, cols := outW d, bytes := 2,
    sample := fun r x => .one (pk444Channel d 0 r x) fun v => rsY p.coefY (widen p.widen v) }

/-- FD1 (R192): sample `2k` of chroma row `j` is the first channel of pair `k`, sample `2k + 1` the
second; both come from cropped pixel `2k` (R194), rows `up j` and `down j`. `combine j` is the
operation's chroma rule on widened samples. DESIGN CHOICE (log 28): the `out_h / 2` rows of R71 are rounded
down where out_h is odd, which PARITY then refuses. -/
def pk444ChromaDst (p : Config.Params) (d : Descriptor) (up down : Nat → Nat)
    (combine : Nat → Int → Int → Option Nat) : DstPlane :=
  { base := d.dst0, start := cbase d, pitch := d.dstPitchY.toNat, rows := outH d / 2, cols := outW d, bytes := 2,
    sample := fun j x =>
      .two (pk444Channel d (1 + x % 2) (up j) (2 * (x / 2))) (pk444Channel d (1 + x % 2) (down j) (2 * (x / 2)))
        fun a b => combine j (widen p.widen a) (widen p.widen b) }

/-- The checks of R200; `parity` is the operation's PARITY condition. -/
def pk444Pre (d : Descriptor) (parity : Bool) : List (Bool × Cause) :=
  [(cropOutOfRange d, .cropRange),
   (parity, .parity),
   (decide (d.srcPitchY.toNat < 6 * d.width.toNat) || decide (d.dstPitchY.toNat < 2 * outW d), .pitch),
   (decide (d.dstHeight.toNat < outH d), .dstHeight),
   ([d.src0.toNat, d.srcPitchY.toNat, d.dst0.toNat, d.dstPitchY.toNat].any (fun v => decide (v % 2 = 1)), .align)]

/-- R201: chroma row `j` from rows `2j` and `2j + 1` by `rsCp` (R197). -/
def planCvtPk444w (p : Config.Params) (d : Descriptor) : Plan :=
  { pre := pk444Pre d (anyOddGeometry d)
    src := [pk444Src d]
    dst := [pk444LumaDst p d,
      pk444ChromaDst p d (fun j => 2 * j) (fun j => 2 * j + 1) fun _ a b => rsCp p.coefC a b] }

/-- R204: chroma row `2g + i` from rows `4g + i` and `4g + i + 2` by `rsCi` with `WEIGHT[i]` (R198, R202,
R203). -/
def planCvtPk444wI (p : Config.Params) (d : Descriptor) : Plan :=
  { pre := pk444Pre d (anyOddGeometry d || decide (outH d % 4 ≠ 0))
    src := [pk444Src d]
    dst := [pk444LumaDst p d,
      pk444ChromaDst p d fieldUp fieldDown fun j a b => rsCi p.coefC a b (fieldWeight j)] }

/-- CVT.PK444W.SP420W (R201); the store policy changes no value (R93). -/
def execCvtPk444w (_nt : StorePolicy) (s : State) : Host.Outcome State Fault Refusal :=
  runPlan planCvtPk444w s

/-- CVT.PK444W.SP420W.I (R204); the store policy changes no value (R93). -/
def execCvtPk444wI (_nt : StorePolicy) (s : State) : Host.Outcome State Fault Refusal :=
  runPlan planCvtPk444wI s

end Sys2Proof.Machine
end

