-- ==== Sys2Proof/Machine/Planar420.lean ====
section
/-! DEFINITION. Planar 4:2:0 to semi-planar 4:2:0: CVT.PL420.SP420 (R163), CVT.PL420.SP420.UV (R164). -/

namespace Sys2Proof.Machine

/-- R71: start of FS0. -/
def pl420LumaStart (d : Descriptor) : Nat :=
  srcStart d.src0 d.srcPitchY d.cropT.toNat d.cropL.toNat

/-- R71, R69: start of FS1 or FS2; the crop is halved for the chroma planes (where it is odd, PARITY refuses the
operation: log 28). -/
def pl420ChromaStart (base : Word64) (d : Descriptor) : Nat :=
  srcStart base d.srcPitchC (d.cropT.toNat / 2) (d.cropL.toNat / 2)

/-- R160: address of `U(j, k)`, in the plane at SRC1. -/
def pl420U (d : Descriptor) (j k : Nat) : Nat :=
  pl420ChromaStart d.src1 d + j * d.srcPitchC.toNat + k

/-- R160: address of `V(j, k)`, in the plane at SRC2. -/
def pl420V (d : Descriptor) (j k : Nat) : Nat :=
  pl420ChromaStart d.src2 d + j * d.srcPitchC.toNat + k

/-- FS0 (R71). -/
def pl420LumaSrc (d : Descriptor) : SrcPlane :=
  { base := d.src0
    fp := { start := pl420LumaStart d, pitch := d.srcPitchY.toNat, rows := outH d, rowbytes := outW d } }

/-- FS1 and FS2 (R71). DESIGN CHOICE (log 28): halves are rounded down where out_h or out_w is odd, which PARITY then
refuses. -/
def pl420ChromaSrc (base : Word64) (d : Descriptor) : SrcPlane :=
  { base := base
    fp := { start := pl420ChromaStart base d, pitch := d.srcPitchC.toNat, rows := outH d / 2,
            rowbytes := outW d / 2 } }

/-- FD0: the luma copy (R163, R127). -/
def pl420LumaDst (d : Descriptor) : DstPlane :=
  { base := d.dst0, start := d.dst0.toNat, pitch := d.dstPitchY.toNat, rows := outH d, cols := outW d, bytes := 1,
    sample := fun r x => .one (pl420LumaStart d + r * d.srcPitchY.toNat + x) some }

/-- FD1: byte `2k` of chroma row `j` is `U(j, k)` and byte `2k + 1` is `V(j, k)` (R161). DESIGN CHOICE (log 28): the
`out_h / 2` rows of R71 are rounded down where out_h is odd, which PARITY then refuses. -/
def pl420ChromaDst (d : Descriptor) : DstPlane :=
  { base := d.dst0, start := cbase d, pitch := d.dstPitchY.toNat, rows := outH d / 2, cols := outW d, bytes := 1,
    sample := fun j x =>
      if x % 2 = 0 then .one (pl420U d j (x / 2)) some else .one (pl420V d j (x / 2)) some }

/-- R163, with the checks of R162. -/
def planCvtPl420 (_ : Config.Params) (d : Descriptor) : Plan :=
  { pre :=
      [(cropOutOfRange d, .cropRange),
       (anyOddGeometry d, .parity),
       (decide (d.srcPitchY.toNat < d.width.toNat) || decide (d.srcPitchC.toNat < d.width.toNat / 2) ||
          decide (d.dstPitchY.toNat < outW d), .pitch),
       (decide (d.dstHeight.toNat < outH d), .dstHeight)]
    src := [pl420LumaSrc d, pl420ChromaSrc d.src1 d, pl420ChromaSrc d.src2 d]
    dst := [pl420LumaDst d, pl420ChromaDst d] }

/-- R164, with the UV column of R162: "CVT.PL420.SP420.UV has no FS0 and no FD0" (R71). -/
def planCvtPl420Uv (_ : Config.Params) (d : Descriptor) : Plan :=
  { pre :=
      [(cropOutOfRange d, .cropRange),
       (anyOddGeometry d, .parity),
       (decide (d.srcPitchC.toNat < d.width.toNat / 2) || decide (d.dstPitchY.toNat < outW d), .pitch),
       (decide (d.dstHeight.toNat < outH d), .dstHeight)]
    src := [pl420ChromaSrc d.src1 d, pl420ChromaSrc d.src2 d]
    dst := [pl420ChromaDst d] }

/-- CVT.PL420.SP420 (R163); the store policy changes no value (R93). -/
def execCvtPl420 (_nt : StorePolicy) (s : State) : Host.Outcome State Fault Refusal :=
  runPlan planCvtPl420 s

/-- CVT.PL420.SP420.UV (R164); the store policy changes no value (R93). -/
def execCvtPl420Uv (_nt : StorePolicy) (s : State) : Host.Outcome State Fault Refusal :=
  runPlan planCvtPl420Uv s

end Sys2Proof.Machine
end

