-- ==== Sys2Proof/Machine/Planar444.lean ====
section
/-! DEFINITION. Planar 4:4:4 identity copy: COPY.PL444 (R180, R181, R182). -/

namespace Sys2Proof.Machine

/-- R71, R180: start of the source footprint of a plane with this base and pitch. -/
def pl444Start (base : Word64) (pitch : Word32) (d : Descriptor) : Nat :=
  srcStart base pitch d.cropT.toNat d.cropL.toNat

/-- FS0, FS1, FS2 (R71): plane 0 has pitch SRC_PITCH_Y, planes 1 and 2 SRC_PITCH_C (R180). -/
def pl444Src (base : Word64) (pitch : Word32) (d : Descriptor) : SrcPlane :=
  { base := base
    fp := { start := pl444Start base pitch d, pitch := pitch.toNat, rows := outH d, rowbytes := outW d } }

/-- FD0, FD1, FD2 (R71), each a copy of its source plane (R181). -/
def pl444Dst (dst src : Word64) (pitch : Word32) (d : Descriptor) : DstPlane :=
  { base := dst, start := dst.toNat, pitch := d.dstPitchY.toNat, rows := outH d, cols := outW d, bytes := 1,
    sample := fun r x => .one (pl444Start src pitch d + r * pitch.toNat + x) some }

/-- R181, with the checks of R182. -/
def planCopyPl444 (_ : Config.Params) (d : Descriptor) : Plan :=
  { pre :=
      [(cropOutOfRange d, .cropRange),
       (decide (d.srcPitchY.toNat < d.width.toNat) || decide (d.srcPitchC.toNat < d.width.toNat) ||
          decide (d.dstPitchY.toNat < outW d), .pitch)]
    src := [pl444Src d.src0 d.srcPitchY d, pl444Src d.src1 d.srcPitchC d, pl444Src d.src2 d.srcPitchC d]
    dst := [pl444Dst d.dst0 d.src0 d.srcPitchY d, pl444Dst d.dst1 d.src1 d.srcPitchC d,
            pl444Dst d.dst2 d.src2 d.srcPitchC d] }

/-- COPY.PL444 (R181): NT is ignored, every store is non-temporal (R93). -/
def execCopyPl444 (_nt : StorePolicy) (s : State) : Host.Outcome State Fault Refusal :=
  runPlan planCopyPl444 s

end Sys2Proof.Machine
end

