-- ==== Sys2Proof/Machine/Dispatch.lean ====
section
/-! DEFINITION. The dispatch: one arm per operation of the opcode map (R92). -/

namespace Sys2Proof.Machine

def exec (i : Instr) (s : State) : Host.Outcome State Fault Refusal :=
  match i with
  | .moveC => Sys2Proof.Machine.execMoveC s
  | .moveNT => Sys2Proof.Machine.execMoveNT s
  | .cvtP422 nt => Sys2Proof.Machine.execCvtP422 nt s
  | .cvtP422I nt => Sys2Proof.Machine.execCvtP422I nt s
  | .cvtPl420 nt => Sys2Proof.Machine.execCvtPl420 nt s
  | .cvtPl420Uv nt => Sys2Proof.Machine.execCvtPl420Uv nt s
  | .copyPl444 nt => Sys2Proof.Machine.execCopyPl444 nt s
  | .cvtPk444w nt => Sys2Proof.Machine.execCvtPk444w nt s
  | .cvtPk444wI nt => Sys2Proof.Machine.execCvtPk444wI nt s

end Sys2Proof.Machine
end

