-- ==== Sys2Proof/Machine/HostAccess.lean ====
section
/-! DEFINITION. What the host and the platform do to the machine: register accesses (R31, R32, R34, R36),
memory accesses with the races of R75, the WAIT loop (R98), and reset (R250 to R252). -/

namespace Sys2Proof.Machine

/-! ### The operation a latched descriptor names -/

/-- The plan of an instruction: what it checks, reads and writes (R71, R222). -/
def planOf : Instr → Config.Params → Descriptor → Plan
  | .moveC => planMoveC
  | .moveNT => planMoveNT
  | .cvtP422 _ => planCvtP422
  | .cvtP422I _ => planCvtP422I
  | .cvtPl420 _ => planCvtPl420
  | .cvtPl420Uv _ => planCvtPl420Uv
  | .copyPl444 _ => planCopyPl444
  | .cvtPk444w _ => planCvtPk444w
  | .cvtPk444wI _ => planCvtPk444wI

/-- The plan of a latched descriptor whose CHECKS pass; `none` where they raise a fault, which makes no
memory access (R221). -/
def passingPlan (p : Config.Params) (d : Descriptor) : Option Plan :=
  match decode d.cmd with
  | .error _ => none
  | .ok i =>
    match (planOf i p d).check with
    | some _ => none
    | none => some (planOf i p d)

/-- The destination footprints of the operation a unit runs, whose bytes other agents read as any value (R75), whether
or not CHECKS will raise a fault, RESERVED_BITS among them; none while it is idle, nor for an OP outside the map. -/
def busyDstFps (p : Config.Params) (un : UnitState) : List Footprint :=
  if un.busy then
    match namedOperation un.latch.cmd with
    | none => []
    | some i => (planOf i p un.latch).dstFps
  else []

/-- The footprints the operation a unit runs may write: its destination's, but none where CHECKS raise a fault
(R221). -/
def busyWrittenFps (p : Config.Params) (un : UnitState) : List Footprint :=
  if un.busy then
    match passingPlan p un.latch with
    | none => []
    | some pl => pl.dstFps
  else []

/-! ### Register accesses -/

/-- Whether a host address lies in a unit's register block: 32 slots of 8 bytes (R31). DESIGN CHOICE (log 18):
host addresses have 64 bits and a block does not wrap, so the slots of a block past address 2^64 are
reached by no access. R31 leaves `REG_BASE[u]` to the platform and says nothing of such a block. -/
def inBlock (base addr : Word64) : Bool :=
  decide (base.toNat ≤ addr.toNat) && decide (addr.toNat < base.toNat + 256)

/-- The unit whose register block holds a host address, and the slot offset. -/
def blockOf (units : List UnitState) (addr : Word64) : Option (Nat × Nat) :=
  match units.findIdx? (fun un => inBlock un.base addr) with
  | none => none
  | some u =>
    match units[u]? with
    | none => none
    | some un => some (u, addr.toNat - un.base.toNat)

/-- Where a register access goes: a unit and a slot, or a refusal (R32: "naturally aligned 8-byte loads
and stores" only). -/
def regTarget (s : State) (addr : Word64) (bytes : Nat) : Except Refusal (Nat × Nat) :=
  match blockOf s.units addr with
  | none => .error .noRegisterBlock
  | some (u, off) =>
    if bytes = 8 ∧ addr.toNat % 8 = 0 ∧ off % 8 = 0 then .ok (u, off / 8) else .error .registerAccess

/-- A BUSY unit is told what another agent may write while it runs, and where its own reads may return any value
(R75). -/
def noteForeign (written openReads : List Footprint) (un : UnitState) : UnitState :=
  if un.busy then
    { un with foreignWrites := un.foreignWrites ++ written, openReads := un.openReads ++ openReads }
  else un

/-- R36, START accepted on the idle unit `u`. The operation and every other BUSY operation are concurrent from
here on, so what each one may write is a foreign write to the other, and what the other reads in its destination
is any value (R75, R234). -/
def State.beginOperation (s : State) (u : Nat) (un : UnitState) : State :=
  let started := beginBusy (Config.freeBool s.draws 0)
    (s.units.flatMap (busyWrittenFps s.params)) (s.units.flatMap (busyDstFps s.params)) un
  { s with
    units := (s.units.map (noteForeign (busyWrittenFps s.params started) (busyDstFps s.params started))).set u started
    draws := s.draws + 1 }

/-- A store of `v` to CTRL (R34): without effect while BUSY; else CLEAR (bit 1), then START (bit 0). -/
def State.storeCtrl (s : State) (u : Nat) (un : UnitState) (v : Word64) : State :=
  if un.busy then s
  else
    let cleared := if v.getLsbD 1 then clearStatus un else un
    if v.getLsbD 0 then s.beginOperation u cleared else s.setUnit u cleared

/-- A host store to a slot of unit `u` (R31, R32, R34). -/
def State.storeSlot (s : State) (u slot : Nat) (v : Word64) : State :=
  match s.units[u]? with
  | none => s
  | some un =>
    match regOfSlot slot with
    | none => s
    | some .ctrl => s.storeCtrl u un v
    | some r => s.setUnit u { un with regs := un.regs.store r v }

/-- The value of a host load from a slot of unit `u` (R31, R32): reserved slots read 0. -/
def State.loadSlot (s : State) (u slot : Nat) : Word64 :=
  match s.units[u]? with
  | none => 0
  | some un =>
    match regOfSlot slot with
    | none => 0
    | some r => un.load r

/-! ### The host's memory accesses -/

/-- A host store of one byte: it writes the byte, and is a foreign write to every BUSY operation (R75). -/
def State.hostStore (s : State) (a : Word64) (v : Byte) : State :=
  { s with
    mem := s.mem.write a.toNat v
    units := s.units.map (noteForeign [byteFootprint a.toNat] []) }

/-- Whether a byte is in the destination footprints of a BUSY operation (R75). -/
def State.busyDst (s : State) (a : Nat) : Bool :=
  s.units.any fun un => (busyDstFps s.params un).any fun f => f.has a

/-- The byte a host load returns: any value in a BUSY operation's destination (R75, R258). -/
def State.hostByte (s : State) (a : Nat) : Byte :=
  if s.busyDst a then Config.freeByte s.draws a else s.mem.read a

/-! ### One step of the host -/

/-- The host has run its statement and goes on with the rest. -/
def State.advance (s : State) (rest : List HostStmt) : State :=
  { s with host := { s.host with prog := rest } }

/-- A load returned a value to the host. -/
def State.returned (s : State) (v : Word64) : State :=
  { s with host := { s.host with loads := s.host.loads ++ [v] } }

/-- One statement of the host (R98, R100). -/
def runStmt (st : HostStmt) (rest : List HostStmt) (s : State) : Host.Outcome State Fault Refusal :=
  match st with
  | .regStore addr bytes v =>
    match regTarget s addr bytes with
    | .error r => .refused r
    | .ok (u, slot) => .next ((s.storeSlot u slot v).advance rest)
  | .regLoad addr bytes =>
    match regTarget s addr bytes with
    | .error r => .refused r
    | .ok (u, slot) => .next ((s.returned (s.loadSlot u slot)).advance rest)
  | .wait addr =>
    match regTarget s addr 8 with
    | .error r => .refused r
    | .ok (u, slot) => if (s.loadSlot u slot).getLsbD 0 then .next s else .next (s.advance rest)
  | .memStore a v => .next ((s.hostStore a v).advance rest)
  | .memLoad a =>
    .next (({ s with draws := s.draws + 1 }.returned ((s.hostByte a.toNat).setWidth 64)).advance rest)

/-- The host's turn: its next statement; nothing once its program is over. -/
def hostStep (s : State) : Host.Outcome State Fault Refusal :=
  match s.host.prog with
  | [] => .next s
  | st :: rest => runStmt st rest s

/-! ### Reset -/

/-- What a reset while BUSY leaves of unit `u`'s operation (R252): "each byte of its destination
footprints holds either its value before START or the final value". Nothing of an operation that would
fault, or that already makes no further step. -/
def resetCells (s : State) (u : Nat) (un : UnitState) : List Host.Cell :=
  if un.ready then
    match passingPlan s.params un.latch with
    | none => []
    | some p => partialCells (s.draws + u) s.admitted s.mem un p
  else []

/-- `resetCells` of the units from number `u` on. -/
def resetCellsFrom (s : State) : Nat → List UnitState → List Host.Cell
  | _, [] => []
  | u, un :: rest => resetCells s u un ++ resetCellsFrom s (u + 1) rest

/-- R250, R251, R252: the platform's reset, which reaches every unit at once. The host, its program,
the parameters and the memory map are not the block's. -/
def State.platformReset (s : State) : State :=
  { s with
    units := s.units.map fun un => UnitState.reset un.base
    mem := s.mem.writeAll (resetCellsFrom s 0 s.units)
    record := []
    draws := s.draws + s.units.length }

end Sys2Proof.Machine
end

