-- ==== Sys2Proof/Machine/Step.lean ====
section
/-! DEFINITION. One step: an agent moves (R30). The schedule says which; when it is empty, a ready unit
moves before the host, so that every ready unit takes its step (R256). -/

namespace Sys2Proof.Machine

/-- A unit's turn: its operation as one step (R257); nothing while it is idle (R237) or stuck (R61).
The command is decoded from the latch (R90); a word the decoder rejects ends in its fault (R222). -/
def unitStep (u : Nat) (s : State) : Host.Outcome State Fault Refusal :=
  match s.units[u]? with
  | none => .next s
  | some un =>
    if un.ready then
      match decode un.latch.cmd with
      | .ok i => exec i { s with cur := u }
      | .error e => .next ({ s with cur := u }.raiseFault un (causeOfDecodeError e))
    else .next s

/-- The turn of one agent. -/
def takeTurn (a : Agent) (s : State) : Host.Outcome State Fault Refusal :=
  match a with
  | .host => hostStep s
  | .unit u => unitStep u s
  | .platformReset => .next s.platformReset

/-- Who moves when the schedule is empty: the first ready unit, else the host (R256: fairness). -/
def defaultTurn (s : State) : Agent :=
  match s.units.findIdx? UnitState.ready with
  | some u => .unit u
  | none => .host

/-- One step of the machine. A configuration without units is refused (R7). -/
def step (s : State) : Host.Outcome State Fault Refusal :=
  if s.units.isEmpty then .refused .badConfig
  else
    match s.turns with
    | [] => takeTurn (defaultTurn s) s
    | a :: rest => takeTurn a { s with turns := rest }

/-- `s` with the table's word as the command unit 0 has accepted a START for and whose turn is next:
the CMD register holds it, the latch is the live registers with it (R36). It stands for the host's
`WR CMD` and `START` (log 5). -/
def State.withFetchWord (s : State) (nbits w : Nat) : State :=
  let word : Word32 := BitVec.ofNat 32 (w % 2 ^ nbits)
  { s with
    turns := .unit 0 :: s.turns
    units := s.units.modify 0 fun un =>
      { un with
        regs := { un.regs with cmd := word }
        latch := { un.regs with cmd := word }
        done := false, fault := false, cause := .noFault, busy := true, stuck := false, foreignWrites := [],
        openReads := [] } }

end Sys2Proof.Machine
end

