-- ==== Sys2Proof/WellFormed.lean ====
section
/-! DEFINITION. Well-formedness: of an instruction, and of a command statement of the host assembly
(R99). -/

namespace Sys2Proof

/-- R92, R93: an instruction is well formed when its NT field is one its opcode row allows. The
types already say so: MOVE.C and MOVE.NT have no field, and the seven other rows take any NT. -/
def Instr.wf : Instr → Bool
  | .moveC => true
  | .moveNT => true
  | .cvtP422 nt => (policyBit nt).toNat < 2
  | .cvtP422I nt => (policyBit nt).toNat < 2
  | .cvtPl420 nt => (policyBit nt).toNat < 2
  | .cvtPl420Uv nt => (policyBit nt).toNat < 2
  | .copyPl444 nt => (policyBit nt).toNat < 2
  | .cvtPk444w nt => (policyBit nt).toNat < 2
  | .cvtPk444wI nt => (policyBit nt).toNat < 2

/-- The four registers the `crop` key stands for (R99). -/
def isCropReg (r : Reg) : Bool :=
  r = .cropL ∨ r = .cropT ∨ r = .cropR ∨ r = .cropB

/-- The keys but `crop` that a mnemonic requires (R99). -/
def requiredKeys (i : Instr) : List Reg :=
  (registersRead i).filter fun r => !isCropReg r

/-- Whether a mnemonic reads the crop window, so that it takes the key `crop` (R91). -/
def takesCrop (i : Instr) : Bool :=
  (registersRead i).contains .cropL

/-- Whether a mnemonic takes the key `nt` (R99: "not accepted for MOVE.C and MOVE.NT"). -/
def takesNt : Instr → Bool
  | .moveC => false
  | .moveNT => false
  | .cvtP422 _ => true
  | .cvtP422I _ => true
  | .cvtPl420 _ => true
  | .cvtPl420Uv _ => true
  | .copyPl444 _ => true
  | .cvtPk444w _ => true
  | .cvtPk444wI _ => true

/-- Every required key is given (R99). -/
def Command.keysGiven (c : Command) : Bool :=
  (requiredKeys c.op).all fun r => (c.args.map Prod.fst).contains r

/-- No key is given that the mnemonic does not read (R99: "an assembly error"). -/
def Command.keysRead (c : Command) : Bool :=
  (c.args.map Prod.fst).all fun r => (requiredKeys c.op).contains r

/-- No key is given twice. -/
def Command.keysOnce (c : Command) : Bool :=
  (c.args.map Prod.fst).Nodup

/-- The key `crop` is given only where it is read (R99). -/
def Command.cropOk (c : Command) : Bool :=
  c.crop.isNone || takesCrop c.op

/-- The key `nt` is given only where it is accepted (R99). -/
def Command.ntOk (c : Command) : Bool :=
  c.nt.isNone || takesNt c.op

/-- A command statement the assembler accepts (R99). -/
def Command.wf (c : Command) : Bool :=
  c.keysGiven && c.keysRead && c.keysOnce && c.cropOk && c.ntOk

end Sys2Proof
end

