-- ==== Sys2Proof/Machine/Asm.lean ====
section
/-! DEFINITION. The host assembly (R98, R99, R100): each statement as the host accesses it stands for. -/

namespace Sys2Proof.Machine

/-- The host address of a register of the block at `base` (R31, R98), modulo 2^64. DESIGN CHOICE (log 18): for a
block that passes 2^64, which R31 leaves open, this is an address low in the space, outside the block as
`inBlock` has it. -/
def regAddr (base : Word64) (r : Reg) : Word64 :=
  base + BitVec.ofNat 64 (regOff r)

/-- `WR <reg>, <value>` (R98): one 8-byte host store. -/
def asmWr (base : Word64) (r : Reg) (v : Word64) : HostStmt :=
  .regStore (regAddr base r) 8 v

/-- `RD <reg>` (R98): one 8-byte host load. -/
def asmRd (base : Word64) (r : Reg) : HostStmt :=
  .regLoad (regAddr base r) 8

/-- `START` (R98): `WR CTRL, 0x1`. -/
def asmStart (base : Word64) : HostStmt := asmWr base .ctrl 1

/-- `CLEAR` (R98): `WR CTRL, 0x2`. -/
def asmClear (base : Word64) : HostStmt := asmWr base .ctrl 2

/-- `WAIT` (R98). -/
def asmWait (base : Word64) : HostStmt := .wait (regAddr base .status)

/-- The value a command statement gives a register; crop defaults to (0,0,0,0) (R99). -/
def argValue (c : Command) (r : Reg) : Word64 :=
  match r with
  | .cropL => (c.crop.map Crop.left).getD 0
  | .cropT => (c.crop.map Crop.top).getD 0
  | .cropR => (c.crop.map Crop.right).getD 0
  | .cropB => (c.crop.map Crop.bottom).getD 0
  | r => ((c.args.find? fun p => decide (p.1 = r)).map Prod.snd).getD 0

/-- R99: "one WR per register of rule R91 in ascending offset order, then WR CMD, …, then START"; `none`
is an assembly error. -/
def expand (base : Word64) (c : Command) : Option (List HostStmt) :=
  if c.wf then
    some ((registersRead c.op).map (fun r => asmWr base r (argValue c r)) ++
      [asmWr base .cmd ((encode (withPolicy (c.nt.getD .cached) c.op)).setWidth 64), asmStart base])
  else none

end Sys2Proof.Machine
end

