-- ==== Sys2Proof/Machine/MovePattern.lean ====
section
/-! DEFINITION. The informative access pattern of the Bulk Row Mover (R122, R123, R124). No meaning uses
it; the statements say it leaves the same memory as the rule's per-byte copy. -/

namespace Sys2Proof.Machine

/-- R123: `h = (VEC_BYTES − (d.DST0 mod VEC_BYTES)) mod VEC_BYTES`. -/
def headBytes (dst : Nat) : Nat :=
  (Config.vecBytes - dst % Config.vecBytes) % Config.vecBytes

/-- R123: `floor((d.SIZE − h) / CHUNK_BYTES)`. -/
def chunkCount (dst size chunk : Nat) : Nat :=
  (size - headBytes dst) / chunk

/-- R123: `rem = d.SIZE − h − chunks × CHUNK_BYTES`. -/
def tailRem (dst size chunk : Nat) : Nat :=
  size - headBytes dst - chunkCount dst size chunk * chunk

/-- The offsets one piece of `len` bytes from `first` copies. -/
def pieceOffsets (first len : Nat) : List Nat :=
  (List.range len).map (first + ·)

/-- The offsets the mover copies, in its order, for a head of `head` bytes (h, or a whole vector), a
chunk width (R7, OPEN) and a tail width T. -/
def moveOffsets (dst size chunk head tail : Nat) : List Nat :=
  if size < Config.scalarThreshold then pieceOffsets 0 size
  else
    pieceOffsets 0 head ++
    (List.range (chunkCount dst size chunk)).flatMap
      (fun k => pieceOffsets (headBytes dst + k * chunk) chunk) ++
    (if tailRem dst size chunk = 0 then [] else pieceOffsets (size - tail) tail)

/-- Copy the bytes at a list of offsets one after another, each read from the memory at that moment. -/
def copyOffsets (src dst : Nat) (m : Memory) (offsets : List Nat) : Memory :=
  offsets.foldl (fun m i => m.write (dst + i) (m.read (src + i))) m

end Sys2Proof.Machine
end

