-- ==== Sys2Proof/Safety.lean ====
section
/-! DEFINITION. What counts as a well-formed state and a good end of a run, in the terms the statements
use. -/

namespace Sys2Proof.Machine

/-- R33, R38, R223 for one unit: at most one of BUSY, DONE, FAULT; CAUSE is a cause exactly while FAULT = 1;
VDIRTY and a stuck operation only while BUSY = 1. -/
def UnitState.flagsOk (un : UnitState) : Prop :=
  ¬ (un.busy = true ∧ un.done = true) ∧ ¬ (un.busy = true ∧ un.fault = true) ∧
  ¬ (un.done = true ∧ un.fault = true) ∧ (un.fault = true ↔ un.cause ≠ .noFault) ∧
  (un.vdirty = true → un.busy = true) ∧ (un.stuck = true → un.busy = true)

/-- R225 for unit `u`: what its STATUS or its standstill shows is in the fault record. -/
def recordedOk (record : List FaultEntry) (u : Nat) (un : UnitState) : Prop :=
  (un.fault = true → { unit := u, kind := .precondition un.cause } ∈ record) ∧
  (un.stuck = true → { unit := u, kind := .stuck } ∈ record)

/-- The invariant of the machine: memory in canonical form, every unit's flags as R33 and R38 say, every
fault and every stuck unit in the fault record (R225). -/
def State.Inv (s : State) : Prop :=
  s.mem.wf = true ∧
  ∀ u un, s.units[u]? = some un → un.flagsOk ∧ recordedOk s.record u un

/-- R238: "the host program has executed its last statement and every unit has BUSY = 0". -/
def State.runOver (s : State) : Bool :=
  s.host.prog.isEmpty && s.units.all fun un => !un.busy

/-- R238: a run "ends well when, in addition, the fault record of rule R225 is empty". -/
def State.endsWell (s : State) : Bool :=
  s.runOver && s.record.isEmpty

/-- R234: two plans run concurrently without a race: "neither operation's destination footprints meet the
other's source or destination footprints". -/
def raceFree (p q : Plan) : Bool :=
  (p.dstFps.all fun f => (q.srcFps ++ q.dstFps).all fun g => !f.overlaps g) &&
  (q.dstFps.all fun f => (p.srcFps ++ p.dstFps).all fun g => !f.overlaps g)

/-! ### Terms of the statements about one operation -/

/-- Address `a` is a byte of the rows of a plane (R70). -/
def inRows (start pitch rows rowbytes a : Nat) : Prop :=
  ∃ r, r < rows ∧ ∃ b, b < rowbytes ∧ a = start + r * pitch + b

/-- No byte of a destination footprint of `p`, which the unit runs, is left to a race by what the unit has noted of
other agents (R75). -/
def unraced (un : UnitState) (p : Plan) : Prop :=
  ∀ f ∈ p.dstFps, ∀ a, f.has a = true → racedAt un p a = false

/-- Address `a` is a byte of one of some footprints (R70). -/
def covered (fps : List Footprint) (a : Nat) : Prop :=
  ∃ f ∈ fps, f.has a = true

/-- R222: CHECKS, decode checks among them, pass on the descriptor `d`, whose operation is `i`. -/
def checksPass (i : Instr) (p : Config.Params) (d : Descriptor) : Prop :=
  decode d.cmd = .ok i ∧ (planOf i p d).check = none

/-- R75: beside an operation of plan `p`, the byte that an operation of plan `q` writes at `a` holds any value: `p`
writes that byte, or some source byte of `q` (where `writes`: an operation whose CHECKS fail writes nothing, R221), or
the byte is computed from a read of `p`'s destination. -/
def racesAt (writes : Prop) (p q : Plan) (a : Nat) : Prop :=
  (writes ∧ (covered p.dstFps a ∨ ∃ x, covered p.dstFps x ∧ covered q.srcFps x)) ∨
  ∃ w ∈ q.byteWrites (fun _ => 0), w.addr = a ∧ ∃ r ∈ w.reads, covered p.dstFps r ∧ covered q.srcFps r

/-- R61, R72: address `a` is one that operation `i` on the descriptor `d` accesses: every byte of its destination
footprints and of its source footprints, but for the chroma channels of the odd pixels of a PK444W source, bytes 8 to
11 of each pair of pixels, which R194 does not use (log 13). -/
def accessed (i : Instr) (p : Config.Params) (d : Descriptor) (a : Nat) : Prop :=
  covered (planOf i p d).dstFps a ∨
  ∃ f ∈ (planOf i p d).srcFps, ∃ r, r < f.rows ∧ ∃ b, b < f.rowbytes ∧ a = f.start + r * f.pitch + b ∧
    ((∃ nt, i = .cvtPk444w nt ∨ i = .cvtPk444wI nt) → b % 12 < 8)

/-- `later` is the unit `un` later in the operation it runs: BUSY with a step left, the same latch (R36), nothing lost
of what the unit has noted of other agents. -/
def UnitState.runsOn (un later : UnitState) : Prop :=
  later.busy = true ∧ later.stuck = false ∧ later.latch = un.latch ∧
  un.foreignWrites <+: later.foreignWrites ∧ un.openReads <+: later.openReads

/-- The current unit `un` can run `i` to DONE without a race: CHECKS pass (R222), every access the
operation needs is admitted (R61), and no byte of its destination is left to a race (R75). -/
def ready (i : Instr) (s : State) (un : UnitState) : Prop :=
  s.mem.wf = true ∧ s.units[s.cur]? = some un ∧ (planOf i s.params un.latch).check = none ∧
  (planOf i s.params un.latch).admittedBy s.admitted s.mem.read = true ∧
  unraced un (planOf i s.params un.latch)

/-- The state after FINISH (R224) of the current unit `un`, with memory `m`: nothing else changes but the
model's counter of free values. -/
def afterDone (s : State) (un : UnitState) (m : Memory) : State :=
  { s with
    mem := m
    units := s.units.set s.cur
      { un with vdirty := false, busy := false, done := true, foreignWrites := [], openReads := [] }
    draws := s.draws + 1 }

/-- The state after the current unit `un` raised a precondition fault (R221, R225): memory is as it was, and
nothing else changes but the unit's STATUS and VDIRTY and the fault record. -/
def afterFault (s : State) (un : UnitState) (c : Cause) : State :=
  { s with
    units := s.units.set s.cur
      { un with vdirty := false, busy := false, fault := true, cause := c, foreignWrites := [],
                openReads := [] }
    record := s.record ++ [{ unit := s.cur, kind := .precondition c }] }

/-- The state after a refused access of the current unit `un` (R61, R225), with memory `m`. -/
def afterStuck (s : State) (un : UnitState) (m : Memory) : State :=
  { s with
    mem := m
    units := s.units.set s.cur { un with stuck := true }
    draws := s.draws + 1
    record := s.record ++ [{ unit := s.cur, kind := .stuck }] }

/-- `c` is the cause of the first condition of a list that holds (R222, R228). -/
def firstHolds : List (Prop × Cause) → Cause → Prop
  | [], _ => False
  | (p, c) :: rest, x => (p ∧ x = c) ∨ (¬ p ∧ firstHolds rest x)

/-- A plane as the rows of R71 give it: base register, start, pitch, rows, rowbytes. -/
structure PlaneRow where
  base     : Nat
  start    : Nat
  pitch    : Nat
  rows     : Nat
  rowbytes : Nat

/-- Address `a` is a byte of a plane's footprint (R70). -/
def PlaneRow.covers (p : PlaneRow) (a : Nat) : Prop :=
  inRows p.start p.pitch p.rows p.rowbytes a

/-- Checks 8, 9 and 10 of R222 on the planes of an operation. -/
def pointerChecks (planes : List PlaneRow) : List (Prop × Cause) :=
  [(∃ p ∈ planes, p.base = 0 ∧ ∃ a, p.covers a, .nullPointer),
   (∃ p ∈ planes, ∃ a, p.covers a ∧ 2 ^ 64 ≤ a, .addrWrap),
   (¬ planes.Pairwise (fun p q => ∀ a, ¬ (p.covers a ∧ q.covers a)), .overlap)]

/-- The current unit `un` running `i` raises exactly the first failing check of `checks`, and no fault when
none fails. -/
def raisesFirst (i : Instr) (s : State) (un : UnitState) (checks : List (Prop × Cause)) : Prop :=
  (∀ c, firstHolds checks c → exec i s = .next (afterFault s un c)) ∧
  ((∀ c, ¬ firstHolds checks c) →
    ∃ m, exec i s = .next (afterDone s un m) ∨ exec i s = .next (afterStuck s un m))

/-- Some of the six geometry registers is odd (the PARITY check). -/
def oddGeometry (d : Descriptor) : Prop :=
  d.width.toNat % 2 = 1 ∨ d.height.toNat % 2 = 1 ∨ d.cropL.toNat % 2 = 1 ∨ d.cropT.toNat % 2 = 1 ∨
  d.cropR.toNat % 2 = 1 ∨ d.cropB.toNat % 2 = 1

/-- R66: CROP_RANGE. -/
def cropRangeFails (d : Descriptor) : Prop :=
  (d.width.toNat : Int) - d.cropL.toNat - d.cropR.toNat < 0 ∨
  (d.height.toNat : Int) - d.cropT.toNat - d.cropB.toNat < 0

/-- R66: `out_w`, where CROP_RANGE passes. -/
def croppedWidth (d : Descriptor) : Nat := d.width.toNat - d.cropL.toNat - d.cropR.toNat

/-- R66: `out_h`, where CROP_RANGE passes. -/
def croppedHeight (d : Descriptor) : Nat := d.height.toNat - d.cropT.toNat - d.cropB.toNat

/-- `s` with the latched descriptor of unit `u` replaced, everything else as it is. -/
def relatch (s : State) (u : Nat) (d : Descriptor) : State :=
  { s with units := s.units.modify u fun un => { un with latch := d } }

/-- How many units have a step (R237, R61). -/
def readyCount (s : State) : Nat :=
  (s.units.filter UnitState.ready).length

/-- R62: the 16-bit value at `a`, "byte(a) + 256 × byte(a + 1)", where `rd` reads memory. -/
def word16 (rd : Nat → Byte) (a : Nat) : Nat :=
  (rd a).toNat + 256 * (rd (a + 1)).toNat

/-- R191: a 16-bit sample widened: as two's complement under `sext`, as unsigned under `zext`. -/
def widened (w : Widen) (v : Nat) : Int :=
  if w = .sext ∧ 2 ^ 15 ≤ v then v - 2 ^ 16 else v

/-- The register access a host statement makes: its host address and its number of bytes (R31, R98). -/
def registerAccessOf : HostStmt → Option (Word64 × Nat)
  | .regStore addr bytes _ => some (addr, bytes)
  | .regLoad addr bytes => some (addr, bytes)
  | .wait addr => some (addr, 8)
  | .memStore _ _ => none
  | .memLoad _ => none

/-- R199: all four intermediates of a rescale of `sum` by `c` with shift `k` lie in the signed 32-bit range. -/
def intermediatesFit (c : Config.Coef) (k : Nat) (sum : Int) : Prop :=
  let fits := fun v : Int => -2 ^ 31 ≤ v ∧ v ≤ 2 ^ 31 - 1
  let biased := sum * c.mul.toInt + (if k = 0 then 0 else 2 ^ (k - 1))
  fits sum ∧ fits (sum * c.mul.toInt) ∧ fits biased ∧ fits (biased / 2 ^ k + c.off.toInt)

/-- R196 to R198, the value: rounded, shifted by `k`, offset, saturated to [0, 65535]. -/
def rescaledValue (c : Config.Coef) (k : Nat) (sum : Int) : Nat :=
  (max 0 (min 65535
    ((sum * c.mul.toInt + (if k = 0 then 0 else 2 ^ (k - 1))) / 2 ^ k + c.off.toInt))).toNat

/-- `s` with one turn more in front of its schedule: unit `u`'s. -/
def unitTurnNext (s : State) (u : Nat) : State :=
  { s with turns := .unit u :: s.turns }

/-- `s` with one turn more in front of its schedule, the host's, at statement `st` with `rest` after it. -/
def hostTurnNext (s : State) (st : HostStmt) (rest : List HostStmt) : State :=
  { s with turns := .host :: s.turns, host := { s.host with prog := st :: rest } }

/-- `s` with the host's program gone on to `rest`. -/
def hostGoesOn (s : State) (rest : List HostStmt) : State :=
  { s with host := { s.host with prog := rest } }

/-- Whenever the operation that unit `u` of `s`, `un`, runs comes to its end (CHECKS pass, every access admitted), it
ends DONE and every byte that meets `bytes` holds a free value (R75). -/
def freeAtDone (s : State) (u : Nat) (un : UnitState) (bytes : Nat → Prop) : Prop :=
  ∀ (t : State) (later : UnitState) (i : Instr), t.mem.wf = true → t.params = s.params →
    t.units[u]? = some later → un.runsOn later → decode un.latch.cmd = .ok i →
    (planOf i s.params un.latch).check = none →
    (planOf i s.params un.latch).admittedBy t.admitted t.mem.read = true →
    ∃ t', step (unitTurnNext t u) = .next t' ∧
      (∃ ended, t'.units[u]? = some ended ∧ ended.done = true ∧ ended.busy = false) ∧
      ∀ a, bytes a → t'.mem.read a = Config.freeByte t.draws a

end Sys2Proof.Machine
end

