-- ==== Sys2Proof/Certificates/Slice0/Obligations.lean ====
section
/-! DEFINITION. The statements for the provers. -/

open Sys2Proof Sys2Proof.Machine

/-! ### Encoding -/

/-- R92 with R96: a word is an operation's command exactly when it is that operation's encoding, for every
32-bit word and every operation with every NT. -/
def Obligations.DecodeIsExactlyEncode : Prop :=
  ∀ (w : Word32) (i : Instr), decode w = .ok i ↔ w = encode i

/-- R92: the CMD values of the opcode map, each written out. -/
def Obligations.OpcodeMapWords : Prop :=
  decode 0x00000001 = .ok .moveC ∧ decode 0x00000101 = .ok .moveNT ∧
  decode 0x00000010 = .ok (.cvtP422 .cached) ∧ decode 0x00000110 = .ok (.cvtP422 .nonTemporal) ∧
  decode 0x00000011 = .ok (.cvtP422I .cached) ∧ decode 0x00000111 = .ok (.cvtP422I .nonTemporal) ∧
  decode 0x00000020 = .ok (.cvtPl420 .cached) ∧ decode 0x00000120 = .ok (.cvtPl420 .nonTemporal) ∧
  decode 0x00000021 = .ok (.cvtPl420Uv .cached) ∧ decode 0x00000121 = .ok (.cvtPl420Uv .nonTemporal) ∧
  decode 0x00000030 = .ok (.copyPl444 .cached) ∧ decode 0x00000130 = .ok (.copyPl444 .nonTemporal) ∧
  decode 0x00000040 = .ok (.cvtPk444w .cached) ∧ decode 0x00000140 = .ok (.cvtPk444w .nonTemporal) ∧
  decode 0x00000041 = .ok (.cvtPk444wI .cached) ∧ decode 0x00000141 = .ok (.cvtPk444wI .nonTemporal)

/-- R94, R221: the operation of a latched command whose OP is not in the map ends in Fault(ILLEGAL_OPCODE),
with no memory access. -/
def Obligations.IllegalOpcodeFaults : Prop :=
  ∀ (s : State) (u : Nat) (un : UnitState), s.units[u]? = some un → un.busy = true → un.stuck = false →
    un.latch.cmd.toNat % 256 ∉ [0x01, 0x10, 0x11, 0x20, 0x21, 0x30, 0x40, 0x41] →
    step (unitTurnNext s u) = .next (afterFault { s with cur := u } un .illegalOpcode)

/-- R95, R221: a legal OP with bits 31:9 not zero ends in Fault(RESERVED_BITS), with no memory access; bits 63:32 of
the CMD slot are not part of CMD. -/
def Obligations.ReservedBitsFault : Prop :=
  ∀ (s : State) (u : Nat) (un : UnitState), s.units[u]? = some un →
    (un.busy = true → un.stuck = false →
      un.latch.cmd.toNat % 256 ∈ [0x01, 0x10, 0x11, 0x20, 0x21, 0x30, 0x40, 0x41] →
      un.latch.cmd.toNat / 512 ≠ 0 →
      step (unitTurnNext s u) = .next (afterFault { s with cur := u } un .reservedBits)) ∧
    ∀ v : Word64, ∃ un', (s.storeSlot u (0x00 / 8) v).units[u]? = some un' ∧
      un'.regs.cmd.toNat = v.toNat % 2 ^ 32

/-- R90, R257: when a BUSY unit's turn comes, the step runs the operation its latched CMD decodes to, with
that unit as the current one and its turn spent. -/
def Obligations.StepRunsDecodedCommand : Prop :=
  ∀ (s : State) (u : Nat) (un : UnitState) (i : Instr), s.units[u]? = some un → un.busy = true →
    un.stuck = false → decode un.latch.cmd = .ok i →
    step (unitTurnNext s u) = exec i { s with cur := u }

/-! ### The register block -/

/-- R31: off the other units' blocks, the host address `REG_BASE[u] + off` reaches register `r` of unit `u`; and R98: the
host's turn at a WR or RD that reaches a slot is that slot's store or load, after which its program goes on. -/
def Obligations.RegisterAddressesReachTheirSlots : Prop :=
  (∀ (s : State) (u : Nat) (un : UnitState) (r : Reg), s.units[u]? = some un →
    un.base.toNat % 8 = 0 → un.base.toNat + 256 ≤ 2 ^ 64 →
    (∀ v vn, s.units[v]? = some vn → v ≠ u →
      vn.base.toNat + 256 ≤ un.base.toNat ∨ un.base.toNat + 256 ≤ vn.base.toNat) →
    ∃ slot, regTarget s (regAddr un.base r) 8 = .ok (u, slot) ∧ regOfSlot slot = some r) ∧
  ∀ (s : State) (u slot : Nat) (addr v : Word64) (rest : List HostStmt),
    regTarget s addr 8 = .ok (u, slot) →
    step (hostTurnNext s (.regStore addr 8 v) rest) = .next (hostGoesOn (s.storeSlot u slot v) rest) ∧
    step (hostTurnNext s (.regLoad addr 8) rest) =
      .next { s with host := { prog := rest, loads := s.host.loads ++ [s.loadSlot u slot] } }

/-- R31: a RW register reads back the last value stored to its defined bits; a 32-bit register's slot
reads 0 in bits 63:32. -/
def Obligations.StoredRegisterReadsBack : Prop :=
  ∀ (s : State) (u slot : Nat) (un : UnitState) (r : Reg) (v : Word64), s.units[u]? = some un →
    regOfSlot slot = some r → r ≠ .ctrl → r ≠ .status →
    (s.storeSlot u slot v).loadSlot u slot =
      if r ∈ [.dst0, .dst1, .dst2, .src0, .src1, .src2, .size] then v
      else BitVec.ofNat 64 (v.toNat % 2 ^ 32)

/-- R31, R36: a store to one RW register changes no other register, no latch, no flag and no memory; while
BUSY too, where the running operation's latch stays as it was. -/
def Obligations.RegisterStoreFrame : Prop :=
  ∀ (s : State) (u slot : Nat) (un : UnitState) (r : Reg) (v : Word64), s.units[u]? = some un →
    regOfSlot slot = some r → r ≠ .ctrl → r ≠ .status →
    ∃ d, s.storeSlot u slot v = { s with units := s.units.set u { un with regs := d } } ∧
      ∀ slot' r', regOfSlot slot' = some r' → r' ≠ r →
        (s.storeSlot u slot v).loadSlot u slot' = s.loadSlot u slot'

/-- R32: a register-block access that is not a naturally aligned 8-byte one is refused. -/
def Obligations.UnalignedRegisterAccessRefused : Prop :=
  ∀ (s : State) (rest : List HostStmt) (u : Nat) (un : UnitState) (addr v : Word64) (bytes : Nat),
    s.units[u]? = some un → un.base.toNat ≤ addr.toNat → addr.toNat < un.base.toNat + 256 →
    (bytes ≠ 8 ∨ addr.toNat % 8 ≠ 0) →
    step (hostTurnNext s (.regStore addr bytes v) rest) = .refused .registerAccess ∧
    step (hostTurnNext s (.regLoad addr bytes) rest) = .refused .registerAccess

/-- R32, R31: a store to STATUS or to a reserved slot has no effect; a load of CTRL or of a reserved slot
returns 0. -/
def Obligations.StatusAndReservedSlots : Prop :=
  ∀ (s : State) (u slot : Nat) (v : Word64), slot < 32 →
    (slot = 0x98 / 8 ∨ 0xA0 / 8 ≤ slot → s.storeSlot u slot v = s) ∧
    (slot = 0x90 / 8 ∨ 0xA0 / 8 ≤ slot → s.loadSlot u slot = 0)

/-- R31, R33, R223: a load of STATUS returns BUSY in bit 0, DONE in bit 1, FAULT in bit 2, the cause's code in
bits 15:8 (0 for no fault, else its code of R223), and 0 in every other bit. -/
def Obligations.StatusWordFields : Prop :=
  ∀ (s : State) (u : Nat) (un : UnitState), s.units[u]? = some un →
    ∃ code : Byte,
      (un.cause, code) ∈
        [(Cause.noFault, 0x00), (.illegalOpcode, 0x01), (.reservedBits, 0x02), (.cropRange, 0x03), (.parity, 0x04),
         (.pitch, 0x05), (.dstHeight, 0x06), (.align, 0x07), (.nullPointer, 0x08), (.addrWrap, 0x09),
         (.overlap, 0x0A)] ∧
      ∀ k, (s.loadSlot u (0x98 / 8)).getLsbD k =
        if k = 0 then un.busy else if k = 1 then un.done else if k = 2 then un.fault
        else if 8 ≤ k ∧ k < 16 then code.getLsbD (k - 8) else false

/-- R34, R260: a store to CTRL when BUSY = 1 has no effect, so a START then is lost. -/
def Obligations.CtrlStoreWhileBusyLost : Prop :=
  ∀ (s : State) (u : Nat) (un : UnitState) (v : Word64), s.units[u]? = some un → un.busy = true →
    s.storeSlot u (0x90 / 8) v = s

/-- R34: when BUSY = 0, CLEAR alone clears DONE, FAULT and CAUSE and changes nothing else; a store with neither
bit has no effect. -/
def Obligations.ClearAcknowledges : Prop :=
  ∀ (s : State) (u : Nat) (un : UnitState) (v : Word64), s.units[u]? = some un → un.busy = false →
    v.getLsbD 0 = false →
    (v.getLsbD 1 = true → s.storeSlot u (0x90 / 8) v =
      { s with units := s.units.set u { un with done := false, fault := false, cause := .noFault } }) ∧
    (v.getLsbD 1 = false → s.storeSlot u (0x90 / 8) v = s)

/-- R36, R34: an accepted START, with or without CLEAR, latches every register, clears DONE, FAULT and CAUSE,
sets BUSY, and leaves memory, the live registers, the fault record and the other units' registers and
flags. -/
def Obligations.StartLatchesAndBegins : Prop :=
  ∀ (s : State) (u : Nat) (un : UnitState) (v : Word64), s.units[u]? = some un → un.busy = false →
    v.getLsbD 0 = true →
    ∃ un', (s.storeSlot u (0x90 / 8) v).units[u]? = some un' ∧
      un'.latch = un.regs ∧ un'.regs = un.regs ∧ un'.busy = true ∧ un'.done = false ∧ un'.fault = false ∧
      un'.cause = .noFault ∧ un'.stuck = false ∧
      (s.storeSlot u (0x90 / 8) v).mem = s.mem ∧ (s.storeSlot u (0x90 / 8) v).record = s.record ∧
      ∀ w wn, w ≠ u → s.units[w]? = some wn →
        ∃ f g, (s.storeSlot u (0x90 / 8) v).units[w]? =
          some { wn with foreignWrites := wn.foreignWrites ++ f, openReads := wn.openReads ++ g }

/-! ### The results of the nine operations -/

/-- R125: MOVE.C ends DONE with byte `DST0 + i` equal to byte `SRC0 + i` for `i` in `[0, SIZE)` and every
other byte unchanged. -/
def Obligations.MoveCCopies : Prop :=
  ∀ (s : State) (un : UnitState), ready .moveC s un →
    ∃ m, exec .moveC s = .next (afterDone s un m) ∧
      (∀ i, i < un.latch.size.toNat →
        m.read (un.latch.dst0.toNat + i) = s.mem.read (un.latch.src0.toNat + i)) ∧
      (∀ a, (∀ i, i < un.latch.size.toNat → a ≠ un.latch.dst0.toNat + i) → m.read a = s.mem.read a)

/-- R126: MOVE.NT ends DONE with the same copy, the policy being a hint. -/
def Obligations.MoveNTCopies : Prop :=
  ∀ (s : State) (un : UnitState), ready .moveNT s un →
    ∃ m, exec .moveNT s = .next (afterDone s un m) ∧
      (∀ i, i < un.latch.size.toNat →
        m.read (un.latch.dst0.toNat + i) = s.mem.read (un.latch.src0.toNat + i)) ∧
      (∀ a, (∀ i, i < un.latch.size.toNat → a ≠ un.latch.dst0.toNat + i) → m.read a = s.mem.read a)

/-- R147: CVT.P422.SP420 ends DONE with the even bytes in the luma plane, the rounded average of the odd bytes
of rows 2j and 2j + 1 in chroma row j, and every other byte unchanged. -/
def Obligations.CvtP422Converts : Prop :=
  ∀ (nt : StorePolicy) (s : State) (un : UnitState), ready (.cvtP422 nt) s un →
    let d := un.latch
    let yp := d.srcPitchY.toNat
    let dp := d.dstPitchY.toNat
    let w := croppedWidth d
    let h := croppedHeight d
    let start := d.src0.toNat + d.cropT.toNat * yp + 2 * d.cropL.toNat
    let chroma := d.dst0.toNat + dp * d.dstHeight.toNat
    ∃ m, exec (.cvtP422 nt) s = .next (afterDone s un m) ∧
      (∀ r, r < h → ∀ x, x < w →
        m.read (d.dst0.toNat + r * dp + x) = s.mem.read (start + r * yp + 2 * x)) ∧
      (∀ j, j < h / 2 → ∀ x, x < w →
        (m.read (chroma + j * dp + x)).toNat =
          ((s.mem.read (start + 2 * j * yp + 2 * x + 1)).toNat +
            (s.mem.read (start + (2 * j + 1) * yp + 2 * x + 1)).toNat + 1) >>> 1) ∧
      (∀ a, ¬ inRows d.dst0.toNat dp h w a → ¬ inRows chroma dp (h / 2) w a → m.read a = s.mem.read a)

/-- R148, R144, R145: CVT.P422.SP420.I ends DONE with the even bytes in the luma plane and, in chroma row 2g + i,
`(up × w0 + down × w1 + 2) >> 2` of the odd bytes of rows 4g + i and 4g + i + 2, with (w0, w1) = (1, 3) for field 0
and (3, 1) for field 1; every other byte is unchanged. -/
def Obligations.CvtP422InterlacedConverts : Prop :=
  ∀ (nt : StorePolicy) (s : State) (un : UnitState), ready (.cvtP422I nt) s un →
    let d := un.latch
    let yp := d.srcPitchY.toNat
    let dp := d.dstPitchY.toNat
    let w := croppedWidth d
    let h := croppedHeight d
    let start := d.src0.toNat + d.cropT.toNat * yp + 2 * d.cropL.toNat
    let chroma := d.dst0.toNat + dp * d.dstHeight.toNat
    ∃ m, exec (.cvtP422I nt) s = .next (afterDone s un m) ∧
      (∀ r, r < h → ∀ x, x < w →
        m.read (d.dst0.toNat + r * dp + x) = s.mem.read (start + r * yp + 2 * x)) ∧
      (∀ g, g < h / 4 → ∀ x, x < w →
        (m.read (chroma + (2 * g) * dp + x)).toNat =
          ((s.mem.read (start + (4 * g) * yp + 2 * x + 1)).toNat +
            3 * (s.mem.read (start + (4 * g + 2) * yp + 2 * x + 1)).toNat + 2) >>> 2 ∧
        (m.read (chroma + (2 * g + 1) * dp + x)).toNat =
          (3 * (s.mem.read (start + (4 * g + 1) * yp + 2 * x + 1)).toNat +
            (s.mem.read (start + (4 * g + 3) * yp + 2 * x + 1)).toNat + 2) >>> 2) ∧
      (∀ a, ¬ inRows d.dst0.toNat dp h w a → ¬ inRows chroma dp (h / 2) w a → m.read a = s.mem.read a)

/-- R163, R160, R161: CVT.PL420.SP420 ends DONE with the luma plane copied, U at even and V at odd bytes of each
chroma row, and every other byte unchanged. -/
def Obligations.CvtPl420Converts : Prop :=
  ∀ (nt : StorePolicy) (s : State) (un : UnitState), ready (.cvtPl420 nt) s un →
    let d := un.latch
    let yp := d.srcPitchY.toNat
    let cp := d.srcPitchC.toNat
    let dp := d.dstPitchY.toNat
    let w := croppedWidth d
    let h := croppedHeight d
    let chroma := d.dst0.toNat + dp * d.dstHeight.toNat
    ∃ m, exec (.cvtPl420 nt) s = .next (afterDone s un m) ∧
      (∀ r, r < h → ∀ x, x < w →
        m.read (d.dst0.toNat + r * dp + x) =
          s.mem.read (d.src0.toNat + (d.cropT.toNat + r) * yp + d.cropL.toNat + x)) ∧
      (∀ j, j < h / 2 → ∀ k, k < w / 2 →
        m.read (chroma + j * dp + 2 * k) =
          s.mem.read (d.src1.toNat + (d.cropT.toNat / 2 + j) * cp + d.cropL.toNat / 2 + k) ∧
        m.read (chroma + j * dp + 2 * k + 1) =
          s.mem.read (d.src2.toNat + (d.cropT.toNat / 2 + j) * cp + d.cropL.toNat / 2 + k)) ∧
      (∀ a, ¬ inRows d.dst0.toNat dp h w a → ¬ inRows chroma dp (h / 2) w a → m.read a = s.mem.read a)

/-- R164: CVT.PL420.SP420.UV ends DONE with U at even and V at odd bytes of each chroma row, and every other byte
unchanged, the destination luma plane among them. -/
def Obligations.CvtPl420UvConverts : Prop :=
  ∀ (nt : StorePolicy) (s : State) (un : UnitState), ready (.cvtPl420Uv nt) s un →
    let d := un.latch
    let cp := d.srcPitchC.toNat
    let dp := d.dstPitchY.toNat
    let w := croppedWidth d
    let h := croppedHeight d
    let chroma := d.dst0.toNat + dp * d.dstHeight.toNat
    ∃ m, exec (.cvtPl420Uv nt) s = .next (afterDone s un m) ∧
      (∀ j, j < h / 2 → ∀ k, k < w / 2 →
        m.read (chroma + j * dp + 2 * k) =
          s.mem.read (d.src1.toNat + (d.cropT.toNat / 2 + j) * cp + d.cropL.toNat / 2 + k) ∧
        m.read (chroma + j * dp + 2 * k + 1) =
          s.mem.read (d.src2.toNat + (d.cropT.toNat / 2 + j) * cp + d.cropL.toNat / 2 + k)) ∧
      (∀ a, ¬ inRows chroma dp (h / 2) w a → m.read a = s.mem.read a)

/-- R181, R180: COPY.PL444 ends DONE with the three cropped planes copied (source pitch SRC_PITCH_Y for plane 0
and SRC_PITCH_C for planes 1 and 2), and every other byte unchanged. -/
def Obligations.CopyPl444Copies : Prop :=
  ∀ (nt : StorePolicy) (s : State) (un : UnitState), ready (.copyPl444 nt) s un →
    let d := un.latch
    let yp := d.srcPitchY.toNat
    let cp := d.srcPitchC.toNat
    let dp := d.dstPitchY.toNat
    let w := croppedWidth d
    let h := croppedHeight d
    ∃ m, exec (.copyPl444 nt) s = .next (afterDone s un m) ∧
      (∀ r, r < h → ∀ x, x < w →
        m.read (d.dst0.toNat + r * dp + x) =
          s.mem.read (d.src0.toNat + (d.cropT.toNat + r) * yp + d.cropL.toNat + x) ∧
        m.read (d.dst1.toNat + r * dp + x) =
          s.mem.read (d.src1.toNat + (d.cropT.toNat + r) * cp + d.cropL.toNat + x) ∧
        m.read (d.dst2.toNat + r * dp + x) =
          s.mem.read (d.src2.toNat + (d.cropT.toNat + r) * cp + d.cropL.toNat + x)) ∧
      (∀ a, ¬ inRows d.dst0.toNat dp h w a → ¬ inRows d.dst1.toNat dp h w a → ¬ inRows d.dst2.toNat dp h w a →
        m.read a = s.mem.read a)

/-- R201, R62, R191, R193, R194: CVT.PK444W.SP420W ends DONE; luma sample (r, x) is `rsY` of channel 0, pair k of chroma row j
is `rsCp` of channels 1 and 2 of pixel 2k of rows 2j and 2j + 1, wherever that value is exact (R199: elsewhere it
is any u16 value); every other byte is unchanged. -/
def Obligations.CvtPk444wConverts : Prop :=
  ∀ (nt : StorePolicy) (s : State) (un : UnitState), ready (.cvtPk444w nt) s un →
    let d := un.latch
    let p := s.params
    let yp := d.srcPitchY.toNat
    let dp := d.dstPitchY.toNat
    let w := croppedWidth d
    let h := croppedHeight d
    let start := d.src0.toNat + d.cropT.toNat * yp + 6 * d.cropL.toNat
    let chroma := d.dst0.toNat + dp * d.dstHeight.toNat
    let src := fun c r x => widened p.widen (word16 s.mem.read (start + r * yp + 6 * x + 2 * c))
    ∃ m, exec (.cvtPk444w nt) s = .next (afterDone s un m) ∧
      (∀ r, r < h → ∀ x, x < w → ∀ v, rsY p.coefY (src 0 r x) = some v →
        word16 m.read (d.dst0.toNat + r * dp + 2 * x) = v) ∧
      (∀ j, j < h / 2 → ∀ k, k < w / 2 →
        (∀ v, rsCp p.coefC (src 1 (2 * j) (2 * k)) (src 1 (2 * j + 1) (2 * k)) = some v →
          word16 m.read (chroma + j * dp + 4 * k) = v) ∧
        (∀ v, rsCp p.coefC (src 2 (2 * j) (2 * k)) (src 2 (2 * j + 1) (2 * k)) = some v →
          word16 m.read (chroma + j * dp + 4 * k + 2) = v)) ∧
      (∀ a, ¬ inRows d.dst0.toNat dp h (2 * w) a → ¬ inRows chroma dp (h / 2) (2 * w) a →
        m.read a = s.mem.read a)

/-- R204, R62, R191, R202, R203: CVT.PK444W.SP420W.I ends DONE; luma as in R201, and pair k of chroma row 2g + i is `rsCi` of
channels 1 and 2 of pixel 2k of rows 4g + i and 4g + i + 2 with WEIGHT[i], wherever that value is exact; every
other byte is unchanged. -/
def Obligations.CvtPk444wInterlacedConverts : Prop :=
  ∀ (nt : StorePolicy) (s : State) (un : UnitState), ready (.cvtPk444wI nt) s un →
    let d := un.latch
    let p := s.params
    let yp := d.srcPitchY.toNat
    let dp := d.dstPitchY.toNat
    let w := croppedWidth d
    let h := croppedHeight d
    let start := d.src0.toNat + d.cropT.toNat * yp + 6 * d.cropL.toNat
    let chroma := d.dst0.toNat + dp * d.dstHeight.toNat
    let src := fun c r x => widened p.widen (word16 s.mem.read (start + r * yp + 6 * x + 2 * c))
    ∃ m, exec (.cvtPk444wI nt) s = .next (afterDone s un m) ∧
      (∀ r, r < h → ∀ x, x < w → ∀ v, rsY p.coefY (src 0 r x) = some v →
        word16 m.read (d.dst0.toNat + r * dp + 2 * x) = v) ∧
      (∀ g, g < h / 4 → ∀ i, i < 2 → ∀ k, k < w / 2 →
        let weight : Nat × Nat := if i = 0 then (1, 3) else (3, 1)
        (∀ v, rsCi p.coefC (src 1 (4 * g + i) (2 * k)) (src 1 (4 * g + i + 2) (2 * k)) weight = some v →
          word16 m.read (chroma + (2 * g + i) * dp + 4 * k) = v) ∧
        (∀ v, rsCi p.coefC (src 2 (4 * g + i) (2 * k)) (src 2 (4 * g + i + 2) (2 * k)) weight = some v →
          word16 m.read (chroma + (2 * g + i) * dp + 4 * k + 2) = v)) ∧
      (∀ a, ¬ inRows d.dst0.toNat dp h (2 * w) a → ¬ inRows chroma dp (h / 2) (2 * w) a →
        m.read a = s.mem.read a)

/-! ### Preconditions: the first failing check, and only it -/

/-- R125, R222: MOVE.C and MOVE.NT raise NULL_POINTER, ADDR_WRAP or OVERLAP, the first that fails, and no
other fault. -/
def Obligations.MoveChecksInOrder : Prop :=
  ∀ (i : Instr) (s : State) (un : UnitState), i = .moveC ∨ i = .moveNT → s.units[s.cur]? = some un →
    let src := un.latch.src0.toNat
    let dst := un.latch.dst0.toNat
    let size := un.latch.size.toNat
    raisesFirst i s un
      [(0 < size ∧ (src = 0 ∨ dst = 0), .nullPointer),
       (0 < size ∧ (2 ^ 64 < src + size ∨ 2 ^ 64 < dst + size), .addrWrap),
       (0 < size ∧ src < dst + size ∧ dst < src + size, .overlap)]

/-- R146, R222, R71: the checks of CVT.P422.SP420 and CVT.P422.SP420.I, in order. -/
def Obligations.P422ChecksInOrder : Prop :=
  ∀ (i : Instr) (nt : StorePolicy) (s : State) (un : UnitState),
    i = .cvtP422 nt ∨ i = .cvtP422I nt → s.units[s.cur]? = some un →
    let d := un.latch
    let yp := d.srcPitchY.toNat
    let dp := d.dstPitchY.toNat
    let w := croppedWidth d
    let h := croppedHeight d
    raisesFirst i s un
      ([(cropRangeFails d, .cropRange),
        (oddGeometry d ∨ (i = .cvtP422I nt ∧ h % 4 ≠ 0), .parity),
        (yp < 2 * d.width.toNat ∨ dp < w, .pitch),
        (d.dstHeight.toNat < h, .dstHeight)] ++
       pointerChecks
        [⟨d.src0.toNat, d.src0.toNat + d.cropT.toNat * yp + 2 * d.cropL.toNat, yp, h, 2 * w⟩,
         ⟨d.dst0.toNat, d.dst0.toNat, dp, h, w⟩,
         ⟨d.dst0.toNat, d.dst0.toNat + dp * d.dstHeight.toNat, dp, h / 2, w⟩])

/-- R162, R222, R71: the checks of CVT.PL420.SP420 and of CVT.PL420.SP420.UV, which has no FS0 and no FD0, in
order. -/
def Obligations.Pl420ChecksInOrder : Prop :=
  ∀ (nt : StorePolicy) (s : State) (un : UnitState), s.units[s.cur]? = some un →
    let d := un.latch
    let yp := d.srcPitchY.toNat
    let cp := d.srcPitchC.toNat
    let dp := d.dstPitchY.toNat
    let w := croppedWidth d
    let h := croppedHeight d
    let fs0 : PlaneRow := ⟨d.src0.toNat, d.src0.toNat + d.cropT.toNat * yp + d.cropL.toNat, yp, h, w⟩
    let fs1 : PlaneRow :=
      ⟨d.src1.toNat, d.src1.toNat + d.cropT.toNat / 2 * cp + d.cropL.toNat / 2, cp, h / 2, w / 2⟩
    let fs2 : PlaneRow :=
      ⟨d.src2.toNat, d.src2.toNat + d.cropT.toNat / 2 * cp + d.cropL.toNat / 2, cp, h / 2, w / 2⟩
    let fd0 : PlaneRow := ⟨d.dst0.toNat, d.dst0.toNat, dp, h, w⟩
    let fd1 : PlaneRow := ⟨d.dst0.toNat, d.dst0.toNat + dp * d.dstHeight.toNat, dp, h / 2, w⟩
    raisesFirst (.cvtPl420 nt) s un
      ([(cropRangeFails d, .cropRange),
        (oddGeometry d, .parity),
        (yp < d.width.toNat ∨ cp < d.width.toNat / 2 ∨ dp < w, .pitch),
        (d.dstHeight.toNat < h, .dstHeight)] ++ pointerChecks [fs0, fs1, fs2, fd0, fd1]) ∧
    raisesFirst (.cvtPl420Uv nt) s un
      ([(cropRangeFails d, .cropRange),
        (oddGeometry d, .parity),
        (cp < d.width.toNat / 2 ∨ dp < w, .pitch),
        (d.dstHeight.toNat < h, .dstHeight)] ++ pointerChecks [fs1, fs2, fd1])

/-- R182, R222, R71: the checks of COPY.PL444, in order: no PARITY and no DST_HEIGHT check. -/
def Obligations.Pl444ChecksInOrder : Prop :=
  ∀ (nt : StorePolicy) (s : State) (un : UnitState), s.units[s.cur]? = some un →
    let d := un.latch
    let yp := d.srcPitchY.toNat
    let cp := d.srcPitchC.toNat
    let dp := d.dstPitchY.toNat
    let w := croppedWidth d
    let h := croppedHeight d
    let fs : Word64 → Nat → PlaneRow := fun base pitch =>
      ⟨base.toNat, base.toNat + d.cropT.toNat * pitch + d.cropL.toNat, pitch, h, w⟩
    let fd : Word64 → PlaneRow := fun base => ⟨base.toNat, base.toNat, dp, h, w⟩
    raisesFirst (.copyPl444 nt) s un
      ([(cropRangeFails d, .cropRange),
        (yp < d.width.toNat ∨ cp < d.width.toNat ∨ dp < w, .pitch)] ++
       pointerChecks [fs d.src0 yp, fs d.src1 cp, fs d.src2 cp, fd d.dst0, fd d.dst1, fd d.dst2])

/-- R200, R222, R71: the checks of CVT.PK444W.SP420W and CVT.PK444W.SP420W.I, in order. -/
def Obligations.Pk444wChecksInOrder : Prop :=
  ∀ (i : Instr) (nt : StorePolicy) (s : State) (un : UnitState),
    i = .cvtPk444w nt ∨ i = .cvtPk444wI nt → s.units[s.cur]? = some un →
    let d := un.latch
    let yp := d.srcPitchY.toNat
    let dp := d.dstPitchY.toNat
    let w := croppedWidth d
    let h := croppedHeight d
    raisesFirst i s un
      ([(cropRangeFails d, .cropRange),
        (oddGeometry d ∨ (i = .cvtPk444wI nt ∧ h % 4 ≠ 0), .parity),
        (yp < 6 * d.width.toNat ∨ dp < 2 * w, .pitch),
        (d.dstHeight.toNat < h, .dstHeight),
        (d.src0.toNat % 2 = 1 ∨ yp % 2 = 1 ∨ d.dst0.toNat % 2 = 1 ∨ dp % 2 = 1, .align)] ++
       pointerChecks
        [⟨d.src0.toNat, d.src0.toNat + d.cropT.toNat * yp + 6 * d.cropL.toNat, yp, h, 6 * w⟩,
         ⟨d.dst0.toNat, d.dst0.toNat, dp, h, 2 * w⟩,
         ⟨d.dst0.toNat, d.dst0.toNat + dp * d.dstHeight.toNat, dp, h / 2, 2 * w⟩])

/-! ### The frame of every operation -/

/-- R37, R221, R224, R61: an operation ends in one of three ways, each of which leaves every register, every latch,
every other unit, the host and the parameters as they were; a fault leaves memory too. -/
def Obligations.OperationEndsOneOfThreeWays : Prop :=
  ∀ (i : Instr) (s t : State) (un : UnitState), s.units[s.cur]? = some un → exec i s = .next t →
    (∃ c, t = afterFault s un c) ∨ t = afterDone s un t.mem ∨ t = afterStuck s un t.mem

/-- R72: whatever way an operation ends, a byte outside its destination footprints keeps its value. -/
def Obligations.OnlyDestinationBytesChange : Prop :=
  ∀ (i : Instr) (s t : State) (un : UnitState) (a : Nat), s.mem.wf = true → s.units[s.cur]? = some un →
    exec i s = .next t → (∀ f ∈ (planOf i s.params un.latch).dstFps, f.has a = false) →
    t.mem.read a = s.mem.read a

/-- R91: an operation reads no register but those listed for it: with another latch that agrees on them (as a
register's value, `UnitState.load`, reads), it ends the same way in everything but the latch itself. -/
def Obligations.UnlistedRegistersIgnored : Prop :=
  ∀ (i : Instr) (s t : State) (un : UnitState) (d : Descriptor), s.units[s.cur]? = some un →
    (∀ r ∈ registersRead i, { un with regs := d }.load r = { un with regs := un.latch }.load r) →
    exec i s = .next t → exec i (relatch s s.cur d) = .next (relatch t s.cur d)

/-- R67: MOVE with SIZE = 0, and any other operation with out_w = 0 or out_h = 0, makes no memory access (none has to
be admitted) and ends DONE once CHECKS pass. -/
def Obligations.ZeroSizeMakesNoAccess : Prop :=
  ∀ (i : Instr) (s : State) (un : UnitState), s.units[s.cur]? = some un →
    (planOf i s.params un.latch).check = none →
    (if i = .moveC ∨ i = .moveNT then un.latch.size = 0
      else croppedWidth un.latch = 0 ∨ croppedHeight un.latch = 0) →
    exec i s = .next (afterDone s un s.mem)

/-- R61, R35, R225: an operation that accesses a refused byte leaves the unit BUSY and makes no further step, which the
fault record notes; a byte then holds its old value or the one DONE would have left, and a refused byte its old value (a
byte left to a race a free value for the latter: log 27). An operation that accesses no refused byte ends DONE. Which
bytes it accesses: log 13. -/
def Obligations.RefusedAccessLeavesBusy : Prop :=
  ∀ (i : Instr) (s : State) (un : UnitState), s.mem.wf = true → s.units[s.cur]? = some un →
    (planOf i s.params un.latch).check = none →
    ((∃ a, accessed i s.params un.latch a ∧ admits s.admitted a = false) →
      (planOf i s.params un.latch).admittedBy s.admitted s.mem.read = false ∧
      ∃ m m', exec i s = .next (afterStuck s un m) ∧
        exec i { s with admitted := [{ base := 0, size := 2 ^ 64 }] } =
          .next (afterDone { s with admitted := [{ base := 0, size := 2 ^ 64 }] } un m') ∧
        (∀ a, m.read a = s.mem.read a ∨ m.read a = m'.read a) ∧
        (∀ a, admits s.admitted a = false → m.read a = s.mem.read a)) ∧
    ((∀ a, accessed i s.params un.latch a → admits s.admitted a = true) →
      (planOf i s.params un.latch).admittedBy s.admitted s.mem.read = true ∧
      ∃ m, exec i s = .next (afterDone s un m))

/-- R237, R61, R35: the turn of an idle unit changes nothing, nor does that of a unit a refused access stopped. Such a unit
stays BUSY, without a step and with its latch, at every step but the platform's reset (log 20), and a host at a WAIT on
its STATUS stays there: the WAIT never ends. -/
def Obligations.UnitsWithoutAStep : Prop :=
  (∀ (s : State) (u : Nat) (un : UnitState), s.units[u]? = some un →
    un.busy = false ∨ un.stuck = true → step (unitTurnNext s u) = .next s) ∧
  (∀ (s : State) (u slot : Nat) (un : UnitState) (addr : Word64) (rest : List HostStmt), s.units[u]? = some un →
    un.busy = true → regTarget s addr 8 = .ok (u, slot) → regOfSlot slot = some .status →
    step (hostTurnNext s (.wait addr) rest) = .next (hostGoesOn s (.wait addr :: rest))) ∧
  ∀ (s t : State) (u : Nat) (un : UnitState), step s = .next t → s.turns.head? ≠ some .platformReset →
    s.units[u]? = some un → un.busy = true → un.stuck = true →
    (∃ d f g, t.units[u]? = some { un with regs := d, foreignWrites := f, openReads := g }) ∧
    ∀ (slot : Nat) (addr : Word64) (rest : List HostStmt), s.host.prog = .wait addr :: rest →
      regTarget s addr 8 = .ok (u, slot) → regOfSlot slot = some .status →
      t.host = s.host ∧ regTarget t addr 8 = .ok (u, slot)

/-- R81, R93, R126: the store policy changes no value: each operation with NT open ends the same under both policies, and
MOVE.NT ends as MOVE.C. -/
def Obligations.StorePolicyChangesNothing : Prop :=
  ∀ (a b : StorePolicy) (s : State),
    exec .moveNT s = exec .moveC s ∧
    exec (.cvtP422 a) s = exec (.cvtP422 b) s ∧ exec (.cvtP422I a) s = exec (.cvtP422I b) s ∧
    exec (.cvtPl420 a) s = exec (.cvtPl420 b) s ∧ exec (.cvtPl420Uv a) s = exec (.cvtPl420Uv b) s ∧
    exec (.copyPl444 a) s = exec (.copyPl444 b) s ∧ exec (.cvtPk444w a) s = exec (.cvtPk444w b) s ∧
    exec (.cvtPk444wI a) s = exec (.cvtPk444wI b) s

/-- R164: the chroma rows CVT.PL420.SP420.UV writes equal those CVT.PL420.SP420 writes for the same descriptor. -/
def Obligations.UvWritesTheSameChroma : Prop :=
  ∀ (nt nt' : StorePolicy) (s : State) (un : UnitState),
    ready (.cvtPl420 nt) s un → ready (.cvtPl420Uv nt') s un →
    let d := un.latch
    ∃ m m', exec (.cvtPl420 nt) s = .next (afterDone s un m) ∧
      exec (.cvtPl420Uv nt') s = .next (afterDone s un m') ∧
      ∀ a, inRows (d.dst0.toNat + d.dstPitchY.toNat * d.dstHeight.toNat) d.dstPitchY.toNat
        (croppedHeight d / 2) (croppedWidth d) a → m.read a = m'.read a

/-- 95_test_vectors.md S6 (R66, R69): converting a cropped region equals converting the full frame (any destination) and
extracting the region, for luma and for chroma: CVT.P422.SP420 (R147), CVT.PL420.SP420 (R163) and, at the samples
whose rescale is exact (R199 leaves the others open), CVT.PK444W.SP420W (R201). -/
def Obligations.CropCommutesWithConversion : Prop :=
  ∀ (nt : StorePolicy) (s : State) (un : UnitState) (dst : Word64) (pitch height : Word32),
    let d := un.latch
    let full : Descriptor := { d with cropL := 0, cropT := 0, cropR := 0, cropB := 0, dst0 := dst,
                                      dstPitchY := pitch, dstHeight := height }
    let s' := relatch s s.cur full
    let un' := { un with latch := full }
    let w := croppedWidth d
    let h := croppedHeight d
    let luma := fun r => d.dst0.toNat + r * d.dstPitchY.toNat
    let chroma := fun j => d.dst0.toNat + d.dstPitchY.toNat * d.dstHeight.toNat + j * d.dstPitchY.toNat
    let fullLuma := fun r => dst.toNat + (d.cropT.toNat + r) * pitch.toNat
    let fullChroma := fun j => dst.toNat + pitch.toNat * height.toNat + (d.cropT.toNat / 2 + j) * pitch.toNat
    (∀ i, i = .cvtP422 nt ∨ i = .cvtPl420 nt → ready i s un → ready i s' un' →
      ∃ m m', exec i s = .next (afterDone s un m) ∧ exec i s' = .next (afterDone s' un' m') ∧
        (∀ r, r < h → ∀ x, x < w → m.read (luma r + x) = m'.read (fullLuma r + (d.cropL.toNat + x))) ∧
        (∀ j, j < h / 2 → ∀ x, x < w → m.read (chroma j + x) = m'.read (fullChroma j + (d.cropL.toNat + x)))) ∧
    (ready (.cvtPk444w nt) s un → ready (.cvtPk444w nt) s' un' →
      let p := s.params
      let start := d.src0.toNat + d.cropT.toNat * d.srcPitchY.toNat + 6 * d.cropL.toNat
      let src := fun c r x => widened p.widen (word16 s.mem.read (start + r * d.srcPitchY.toNat + 6 * x + 2 * c))
      ∃ m m', exec (.cvtPk444w nt) s = .next (afterDone s un m) ∧
        exec (.cvtPk444w nt) s' = .next (afterDone s' un' m') ∧
        (∀ r, r < h → ∀ x, x < w → intermediatesFit p.coefY p.coefY.shift.val (src 0 r x) →
          word16 m.read (luma r + 2 * x) = word16 m'.read (fullLuma r + 2 * (d.cropL.toNat + x))) ∧
        (∀ j, j < h / 2 → ∀ k, k < w / 2 → ∀ c, c < 2 →
          intermediatesFit p.coefC (p.coefC.shift.val + 1)
            (src (1 + c) (2 * j) (2 * k) + src (1 + c) (2 * j + 1) (2 * k)) →
          word16 m.read (chroma j + 4 * k + 2 * c) =
            word16 m'.read (fullChroma j + 4 * (d.cropL.toNat / 2 + k) + 2 * c)))

/-- R74, R73: the memory at DONE does not depend on the order of the operation's writes, nor on how often one is
repeated: every list of the same writes leaves the same memory. -/
def Obligations.AnyOrderLeavesTheSameMemory : Prop :=
  ∀ (i : Instr) (s : State) (un : UnitState), ready i s un →
    ∃ m, exec i s = .next (afterDone s un m) ∧
      ∀ writes : List ByteWrite,
        (∀ w, w ∈ writes ↔ w ∈ (planOf i s.params un.latch).byteWrites s.mem.read) →
        s.mem.writeAll (writes.map (ByteWrite.cell (Config.freeByte s.draws) fun _ => false)) = m

/-- R123, R124, R122: the mover's pieces (scalar below 128 bytes; else head, chunks and a tail backed up from the end)
leave the memory of the per-byte copy, for every chunk width, head of at least h and tail of at least rem bytes. The
widths are arguments (log 26), and no meaning uses the pattern: what the operations do is R125's copy. -/
def Obligations.MovePiecesLeaveTheSameMemory : Prop :=
  ∀ (m : Memory) (src dst size chunk head tail : Nat), m.wf = true → 0 < chunk →
    headBytes dst ≤ head → head ≤ size → tailRem dst size chunk ≤ tail → tail ≤ size →
    dst + size ≤ 2 ^ 64 → (src + size ≤ dst ∨ dst + size ≤ src) →
    copyOffsets src dst m (moveOffsets dst size chunk head tail) = copyOffsets src dst m (List.range size)

/-! ### Arithmetic -/

/-- R141, R142, R145, R40: `avg_u8` is commutative and is ⌊(a + b + 1) / 2⌋; the tap is `(up + 3 × down + 2) >> 2` for field
0 and `(3 × up + down + 2) >> 2` for field 1, never saturated, with complementary weights. -/
def Obligations.AverageAndTapsOfBytes : Prop :=
  ∀ a b : Nat, a ≤ 255 → b ≤ 255 →
    avgU8 a b = (a + b + 1) / 2 ∧ avgU8 a b = avgU8 b a ∧ avgU8 a b ≤ 255 ∧
    tapU8 a b (Config.weight 0) = (a + 3 * b + 2) / 4 ∧ tapU8 a b (Config.weight 1) = (3 * a + b + 2) / 4 ∧
    tapU8 a b (Config.weight 0) = tapU8 b a (Config.weight 1) ∧ tapU8 a b (Config.weight 0) ≤ 255

/-- R195: with the bias the shift rounds half up, `(v + bias(k)) >> k = floor(v / 2^k + 1/2)`, for every sign of v; and
R197: a doubled offset before the combined shift gives the same value as the offset after it. -/
def Obligations.ShiftsRoundHalfUp : Prop :=
  ∀ (v off : Int) (k : Nat),
    (v + bias k) >>> k = (2 * v + 2 ^ k) / 2 ^ (k + 1) ∧
    (v + off * 2 ^ (k + 1)) >>> (k + 1) = (v >>> (k + 1)) + off

/-- R196, R197, R198, R199: where all four intermediates fit in signed 32 bits the three rescales give the saturated
value exactly; where one does not, they give no one value (any u16). -/
def Obligations.RescalesAreExactInRange : Prop :=
  ∀ (c : Config.Coef) (a b : Int) (w : Nat × Nat),
    (intermediatesFit c c.shift.val a → rsY c a = some (rescaledValue c c.shift.val a)) ∧
    (¬ intermediatesFit c c.shift.val a → rsY c a = none) ∧
    (intermediatesFit c (c.shift.val + 1) (a + b) →
      rsCp c a b = some (rescaledValue c (c.shift.val + 1) (a + b))) ∧
    (¬ intermediatesFit c (c.shift.val + 1) (a + b) → rsCp c a b = none) ∧
    (intermediatesFit c (c.shift.val + 2) (a * w.1 + b * w.2) →
      rsCi c a b w = some (rescaledValue c (c.shift.val + 2) (a * w.1 + b * w.2))) ∧
    (¬ intermediatesFit c (c.shift.val + 2) (a * w.1 + b * w.2) → rsCi c a b w = none)

/-- R7: a rescale triple that breaks a constraint is refused, every other one is taken as it is; and a configuration
without units is refused. -/
def Obligations.BadConfigurationsRefused : Prop :=
  (∀ mul shift off : Int,
    (Config.Coef.ofInts mul shift off = none ↔
      ¬ (-2 ^ 31 ≤ mul ∧ mul ≤ 2 ^ 31 - 1 ∧ 0 ≤ shift ∧ shift ≤ 29 ∧ -2 ^ 31 ≤ off ∧ off ≤ 2 ^ 31 - 1)) ∧
    ∀ c, Config.Coef.ofInts mul shift off = some c →
      c.mul.toInt = mul ∧ (c.shift.val : Int) = shift ∧ c.off.toInt = off) ∧
  ∀ s : State, step { s with units := [] } = .refused .badConfig

/-! ### Other agents -/

/-- R75, R76, R258: a host load of a byte of a BUSY operation's destination returns a free value (log 8), whether or not
its checks will fail; a host load of any other byte returns what memory holds. The operation is the one OP names (R37),
whatever RSVD holds; a BUSY unit whose OP names none has no destination (log 14). -/
def Obligations.HostLoadsOfBusyDestinations : Prop :=
  ∀ (s : State) (a : Word64) (rest : List HostStmt), s.units ≠ [] →
    (∀ (u : Nat) (un : UnitState) (i : Instr), s.units[u]? = some un → un.busy = true →
      namedOperation un.latch.cmd = some i → covered (planOf i s.params un.latch).dstFps a.toNat →
      ∃ t, step (hostTurnNext s (.memLoad a) rest) = .next t ∧
        t.host.loads = s.host.loads ++ [(Config.freeByte s.draws a.toNat).setWidth 64] ∧
        t.host.prog = rest ∧ t.mem = s.mem ∧ t.units = s.units) ∧
    ((∀ (u : Nat) (un : UnitState) (i : Instr), s.units[u]? = some un → un.busy = true →
        namedOperation un.latch.cmd = some i → ¬ covered (planOf i s.params un.latch).dstFps a.toNat) →
      ∃ t, step (hostTurnNext s (.memLoad a) rest) = .next t ∧
        t.host.loads = s.host.loads ++ [(s.mem.read a.toNat).setWidth 64] ∧
        t.host.prog = rest ∧ t.mem = s.mem ∧ t.units = s.units)

/-- R75, R259, R261: a host store writes its byte of memory and nothing else but the record of possible races (log 10).
Whenever a BUSY operation it went to comes to its DONE: if it went to the operation's source, every byte of its
destination holds a free value (log 8); if to its destination, that byte does; and no other byte is left to a race that
was left to none before. -/
def Obligations.HostStoreRacesWithOperation : Prop :=
  ∀ (s : State) (a : Word64) (v : Byte) (rest : List HostStmt), s.mem.wf = true → s.units ≠ [] →
    ∃ t, step (hostTurnNext s (.memStore a v) rest) = .next t ∧
      t.mem.read a.toNat = v ∧ (∀ x, x ≠ a.toNat → t.mem.read x = s.mem.read x) ∧
      t.host = { s.host with prog := rest } ∧ t.record = s.record ∧
      t.units.map (fun un => { un with foreignWrites := [], openReads := [] }) =
        s.units.map (fun un => { un with foreignWrites := [], openReads := [] }) ∧
      ∀ (u : Nat) (un : UnitState) (i : Instr), s.units[u]? = some un → un.busy = true →
        namedOperation un.latch.cmd = some i →
        let p := planOf i s.params un.latch
        ∃ un', t.units[u]? = some un' ∧ un'.busy = true ∧ un'.stuck = un.stuck ∧ un'.latch = un.latch ∧
          (covered p.srcFps a.toNat → freeAtDone t u un' (covered p.dstFps)) ∧
          (covered p.dstFps a.toNat → freeAtDone t u un' (fun x => x = a.toNat)) ∧
          (∀ x, racedAt un' p x = true ↔ racedAt un p x = true ∨ x = a.toNat ∨ covered p.srcFps a.toNat) ∧
          (¬ covered (p.srcFps ++ p.dstFps) a.toNat → unraced un p → unraced un' p)

/-- R234, R75, unit `u` starting operation `i` (a race lasts from the second START on: log 16). Where its destination meets
no source and no destination of any BUSY operation, nor their destinations its source, no byte of its destination is
left to a race, and the BUSY operations that were left to no race stay so: the statements of the nine operations give
what they leave. Where one operation's destination meets the other's source, every destination byte of the other holds
a free value (log 8) at its DONE, and where two destinations meet, those bytes do, each operation's CHECKS passing. An
operation whose CHECKS fail writes nothing (R221); a byte computed from a read of its destination still holds a free
value (log 14). No other byte is left to a race. At DONE a byte left to a race holds a free value, and every other byte
written the value the operation's rule gives it (a free value where it gives none, R199). A BUSY unit keeps its latch
and what it has noted of races at every step that leaves it BUSY. -/
def Obligations.OperationsRaceWhereTheyMeet : Prop :=
  (∀ (s : State) (u : Nat) (un : UnitState) (i : Instr) (value : Word64), s.units[u]? = some un →
    un.busy = false → namedOperation un.regs.cmd = some i → value.getLsbD 0 = true →
    let t := s.storeSlot u (0x90 / 8) value
    let p := planOf i s.params un.regs
    ∃ un', t.units[u]? = some un' ∧ un'.busy = true ∧ un'.stuck = false ∧ un'.latch = un.regs ∧
      (∀ a, racedAt un' p a = true ↔
        ∃ (v : Nat) (vn : UnitState) (k : Instr), s.units[v]? = some vn ∧ vn.busy = true ∧
          namedOperation vn.latch.cmd = some k ∧
          racesAt (checksPass k s.params vn.latch) (planOf k s.params vn.latch) p a) ∧
      ((∀ (v : Nat) (vn : UnitState) (k : Instr), s.units[v]? = some vn → vn.busy = true →
          namedOperation vn.latch.cmd = some k → raceFree p (planOf k s.params vn.latch) = true) →
        unraced un' p) ∧
      ∀ (v : Nat) (vn : UnitState) (k : Instr), s.units[v]? = some vn → vn.busy = true →
        namedOperation vn.latch.cmd = some k →
        let q := planOf k s.params vn.latch
        ∃ vn', t.units[v]? = some vn' ∧ vn'.busy = true ∧ vn'.stuck = vn.stuck ∧ vn'.latch = vn.latch ∧
          (∀ a, racedAt vn' q a = true ↔
            racedAt vn q a = true ∨ racesAt (checksPass i s.params un.regs) p q a) ∧
          (raceFree p q = true → unraced vn q → unraced vn' q) ∧
          (checksPass i s.params un.regs →
            ((∃ a, covered p.dstFps a ∧ covered q.srcFps a) → freeAtDone t v vn' (covered q.dstFps)) ∧
            freeAtDone t v vn' (fun a => covered p.dstFps a ∧ covered q.dstFps a)) ∧
          (checksPass k s.params vn.latch →
            ((∃ a, covered q.dstFps a ∧ covered p.srcFps a) → freeAtDone t u un' (covered p.dstFps)) ∧
            freeAtDone t u un' (fun a => covered p.dstFps a ∧ covered q.dstFps a)) ∧
          freeAtDone t v vn' (fun a =>
            ∃ w ∈ q.byteWrites s.mem.read, w.addr = a ∧ ∃ r ∈ w.reads, covered p.dstFps r) ∧
          freeAtDone t u un' (fun a =>
            ∃ w ∈ p.byteWrites s.mem.read, w.addr = a ∧ ∃ r ∈ w.reads, covered q.dstFps r)) ∧
  (∀ (i : Instr) (s : State) (un : UnitState), s.mem.wf = true → s.units[s.cur]? = some un →
    (planOf i s.params un.latch).check = none →
    (∀ a, accessed i s.params un.latch a → admits s.admitted a = true) →
    ∃ m, exec i s = .next (afterDone s un m) ∧
      ∀ w ∈ (planOf i s.params un.latch).byteWrites s.mem.read,
        m.read w.addr = if racedAt un (planOf i s.params un.latch) w.addr then Config.freeByte s.draws w.addr
          else w.value.getD (Config.freeByte s.draws w.addr)) ∧
  ∀ (s t : State) (u : Nat) (un un' : UnitState), step s = .next t → s.units[u]? = some un →
    t.units[u]? = some un' → un.busy = true → un'.busy = true →
    un'.latch = un.latch ∧ un.foreignWrites <+: un'.foreignWrites ∧ un.openReads <+: un'.openReads

/-- R98: WAIT repeats its load of STATUS while bit 0 (BUSY) of the value read is 1, and then goes on. -/
def Obligations.WaitEndsWhenIdle : Prop :=
  ∀ (s : State) (u slot : Nat) (un : UnitState) (addr : Word64) (rest : List HostStmt),
    s.units[u]? = some un → regTarget s addr 8 = .ok (u, slot) → regOfSlot slot = some .status →
    step (hostTurnNext s (.wait addr) rest) =
      .next (hostGoesOn s (if un.busy then .wait addr :: rest else rest))

/-! ### Reset -/

/-- R250, R251: the platform's reset leaves every unit with all registers and the latch 0, idle, CAUSE 0, VDIRTY 0, and
the fault record empty; no unit being BUSY, memory is not changed. -/
def Obligations.PlatformResetState : Prop :=
  ∀ s : State, s.units ≠ [] →
    ∃ t, step { s with turns := .platformReset :: s.turns } = .next t ∧
      t.units.length = s.units.length ∧ t.record = [] ∧ t.host = s.host ∧ t.params = s.params ∧
      (∀ (u : Nat) (un : UnitState), t.units[u]? = some un →
        un.latch = Descriptor.reset ∧ un.busy = false ∧ un.done = false ∧ un.fault = false ∧
        un.cause = .noFault ∧ un.vdirty = false ∧ ∀ slot, t.loadSlot u slot = 0) ∧
      ((∀ un ∈ s.units, un.busy = false) → t.mem = s.mem)

/-- R252: after a reset while units are BUSY and left to no race, each byte holds its old value, or it is a byte of the
destination of a BUSY operation whose CHECKS pass and holds the final value the operation's rule gives it (where the
rule gives one, R199). Where there is no such operation (each BUSY unit's CHECKS would fail, or its CMD names none), memory
is as it was. -/
def Obligations.ResetWhileBusyLeavesOldOrFinal : Prop :=
  ∀ s : State, s.mem.wf = true → s.units ≠ [] →
    ∃ t, step { s with turns := .platformReset :: s.turns } = .next t ∧
      ((∀ (u : Nat) (un : UnitState) (i : Instr), s.units[u]? = some un → un.busy = true →
          decode un.latch.cmd = .ok i → (planOf i s.params un.latch).check = none →
          unraced un (planOf i s.params un.latch)) →
        ∀ a, t.mem.read a = s.mem.read a ∨
          ∃ (u : Nat) (un : UnitState) (i : Instr), s.units[u]? = some un ∧ un.busy = true ∧ un.stuck = false ∧
            decode un.latch.cmd = .ok i ∧ (planOf i s.params un.latch).check = none ∧
            ∃ w ∈ (planOf i s.params un.latch).byteWrites s.mem.read, w.addr = a ∧
              ∀ v, w.value = some v → t.mem.read a = v) ∧
      ((∀ (u : Nat) (un : UnitState) (i : Instr), s.units[u]? = some un → un.busy = true →
          decode un.latch.cmd = .ok i → (planOf i s.params un.latch).check ≠ none) →
        t.mem = s.mem)

/-- R251, R253: at `State.reset` every unit has every register 0 and is idle, nothing is recorded, and its step changes
nothing: the block fetches nothing. (The empty host program of that state is log 5's choice.) -/
def Obligations.ResetStateIsIdle : Prop :=
  step State.reset = .next State.reset ∧ State.reset.record = [] ∧ State.reset.mem.wf = true ∧
  ∀ un ∈ State.reset.units, un.regs = Descriptor.reset ∧ un.latch = Descriptor.reset ∧ un.busy = false ∧
    un.done = false ∧ un.fault = false ∧ un.cause = .noFault ∧ un.vdirty = false

/-- R237, R253, R234: a unit leaves idle only on the host's store to its own CTRL with START = 1. -/
def Obligations.OnlyStartLeavesIdle : Prop :=
  ∀ (s t : State) (u : Nat) (un un' : UnitState), step s = .next t → s.units[u]? = some un →
    t.units[u]? = some un' → un.busy = false → un'.busy = true →
    ∃ addr v rest, s.host.prog = .regStore addr 8 v :: rest ∧ regTarget s addr 8 = .ok (u, 0x90 / 8) ∧
      v.getLsbD 0 = true

/-! ### Whole-machine rules -/

/-- R225: no step but the platform's reset removes an entry of the fault record. -/
def Obligations.FaultRecordOnlyGrows : Prop :=
  ∀ s t : State, step s = .next t → s.turns.head? ≠ some .platformReset → s.record <+: t.record

/-- R33, R38, R225, and the canonical form of memory: every step from a state that meets the invariant leads to one
that meets it. -/
def Obligations.StepKeepsTheInvariant : Prop :=
  ∀ s t : State, s.Inv → step s = .next t → t.Inv

/-- The state after reset meets the invariant, and so does every launch with a canonical memory. -/
def Obligations.LaunchMeetsTheInvariant : Prop :=
  State.reset.Inv ∧
  ∀ (p : Config.Params) (bases : List Word64) (m : Memory) (rs : List Region) (prog : List HostStmt)
    (turns : List Agent), m.wf = true → (State.launch p bases m rs prog turns).Inv

/-- R41, R7, R61, R254: the parameters, the admitted set and the placement and number of the units hold their values for
ever. That the platform's reset leaves them too is the model's reading (log 20). -/
def Obligations.ConfigurationNeverChanges : Prop :=
  ∀ s t : State, step s = .next t →
    t.params = s.params ∧ t.admitted = s.admitted ∧
      t.units.map UnitState.base = s.units.map UnitState.base

/-- R32, R31, R7: the machine never stops with a fault, and a refusal is one of three: of a configuration without units;
of a host access inside a register block that is not 8 bytes, not aligned, or in a block that is not aligned itself
(log 18); of a host access in no register block (log 18). -/
def Obligations.StepStopsOnlyOnRefusals : Prop :=
  ∀ s : State, (∀ r, step s ≠ .fault r) ∧
    ∀ r, step s = .refused r →
      (r = .badConfig ∧ s.units = []) ∨
      ∃ st rest addr bytes, s.host.prog = st :: rest ∧ registerAccessOf st = some (addr, bytes) ∧
        ((r = .registerAccess ∧ ∃ un ∈ s.units,
            un.base.toNat ≤ addr.toNat ∧ addr.toNat < un.base.toNat + 256 ∧
            (bytes ≠ 8 ∨ addr.toNat % 8 ≠ 0 ∨ un.base.toNat % 8 ≠ 0)) ∨
         (r = .noRegisterBlock ∧ ∀ un ∈ s.units,
            addr.toNat < un.base.toNat ∨ un.base.toNat + 256 ≤ addr.toNat))

/-- R256: with an empty schedule (log 6) every unit that has a step takes it before the host moves, in at most as many
steps as there are such units: each ends DONE or in a fault, or in the standstill of R61 where its checks pass and an
access it needs is refused. -/
def Obligations.EveryReadyUnitEnds : Prop :=
  ∀ s : State, s.turns = [] → s.units ≠ [] →
    ∃ k t, k ≤ readyCount s ∧ Host.Core.run core k s = .next t ∧ readyCount t = 0 ∧ t.host = s.host ∧
      ∀ (u : Nat) (un : UnitState), s.units[u]? = some un → un.busy = true → un.stuck = false →
        ∃ un' : UnitState, t.units[u]? = some un' ∧
          ((un'.busy = false ∧ (un'.done = true ∨ un'.fault = true)) ∨
           (un'.busy = true ∧ un'.stuck = true ∧ ∃ i, decode un.latch.cmd = .ok i ∧
             (planOf i s.params un.latch).check = none ∧
             (planOf i s.params un.latch).admittedBy s.admitted s.mem.read = false))

/-- `withFetchWord` (log 5): the very next step runs the operation of the word, on unit 0. -/
def Obligations.FetchWordRunsNext : Prop :=
  ∀ (s : State) (w : Nat) (i : Instr), s.units ≠ [] → decodeTableWord 32 w = some i →
    ∃ s', step (s.withFetchWord 32 w) = exec i s' ∧ s'.cur = 0 ∧ s'.mem = s.mem ∧ s'.turns = s.turns ∧
      ∃ un un', s.units[0]? = some un ∧ s'.units[0]? = some un' ∧ un'.busy = true ∧
        un'.latch = { un.regs with cmd := BitVec.ofNat 32 w }


/-! ### The host's side -/

/-- R99: a command statement the assembler accepts expands to one 8-byte store per register the operation reads, in
ascending offset order, each with the value of its key (left, top, right, bottom of the crop; 0 for a crop not given),
then the store of its CMD value (the mnemonic's OP, NT as the mnemonic or the key `nt` gives it, else 0), then START; a
statement it does not accept expands to nothing. -/
def Obligations.CommandStatementExpands : Prop :=
  ∀ (base : Word64) (c : Command),
    (c.wf = false → expand base c = none) ∧
    (c.wf = true → ∃ (regs : List Reg) (cmd : Word64),
      expand base c = some (regs.map (fun r => .regStore (regAddr base r) 8 (argValue c r)) ++
        [.regStore (regAddr base .cmd) 8 cmd, .regStore (regAddr base .ctrl) 8 1]) ∧
      cmd.toNat % 256 = (encode c.op).toNat % 256 ∧
      cmd.toNat / 256 = (if c.op = .moveNT ∨ c.nt = some .nonTemporal then 1 else 0) ∧
      regs.Pairwise (fun p q => regOff p < regOff q) ∧ (∀ r, r ∈ regs ↔ r ∈ registersRead c.op) ∧
      (∀ r ∈ regs, r ∉ [.cropL, .cropT, .cropR, .cropB] → (r, argValue c r) ∈ c.args) ∧
      (c.crop = none → ∀ r ∈ [Reg.cropL, .cropT, .cropR, .cropB], argValue c r = 0) ∧
      (∀ cr, c.crop = some cr → argValue c .cropL = cr.left ∧ argValue c .cropT = cr.top ∧
        argValue c .cropR = cr.right ∧ argValue c .cropB = cr.bottom))

/-- R237, R238: a run that is over stays as it is: the host has no statement left and no unit leaves idle. (The empty
schedule is log 6's.) -/
def Obligations.RunOverIsFinal : Prop :=
  ∀ s : State, s.units ≠ [] → s.turns = [] → s.runOver = true → step s = .next s
end

