-- ==== Sys2Proof/Laws/Footprint.lean ====
section
/-! SUPPORT. Footprints: what membership, overlap and wrap-around of R70 and R222 mean. -/

namespace Sys2Proof.Machine

theorem Footprint.addr_eq (f : Footprint) (r b : Nat) : f.addr r b = f.addr r 0 + b := rfl

theorem Footprint.has_iff (f : Footprint) (a : Nat) :
    f.has a = true ↔ ∃ r < f.rows, ∃ b < f.rowbytes, a = f.addr r b := by
  simp only [Footprint.has, List.any_eq_true, List.mem_range, Bool.and_eq_true, decide_eq_true_eq]
  constructor
  · rintro ⟨r, hr, h1, h2⟩
    rw [f.addr_eq r f.rowbytes] at h2
    exact ⟨r, hr, a - f.addr r 0, by omega, by rw [f.addr_eq]; omega⟩
  · rintro ⟨r, hr, b, hb, rfl⟩
    exact ⟨r, hr, by rw [f.addr_eq r b]; omega, by rw [f.addr_eq r b, f.addr_eq r f.rowbytes]; omega⟩

theorem Footprint.not_isEmpty_of_has {f : Footprint} {a : Nat} (h : f.has a = true) : f.isEmpty = false := by
  obtain ⟨r, hr, b, hb, -⟩ := (f.has_iff a).1 h
  simp [Footprint.isEmpty]
  omega

/-- R222 check 10: overlap is a shared byte. -/
theorem Footprint.overlaps_iff (f g : Footprint) :
    f.overlaps g = true ↔ ∃ a, f.has a = true ∧ g.has a = true := by
  constructor
  · intro h
    simp only [Footprint.overlaps, Bool.and_eq_true, List.any_eq_true, List.mem_range, decide_eq_true_eq,
      Bool.not_eq_true', Footprint.isEmpty, Bool.or_eq_false_iff, decide_eq_false_iff_not] at h
    obtain ⟨⟨⟨-, hf⟩, -, hg⟩, r, hr, q, hq, h1, h2⟩ := h
    rw [g.addr_eq q g.rowbytes] at h1
    rw [f.addr_eq r f.rowbytes] at h2
    refine ⟨max (f.addr r 0) (g.addr q 0), (f.has_iff _).2 ⟨r, hr, max (f.addr r 0) (g.addr q 0) - f.addr r 0, by omega, ?_⟩,
      (g.has_iff _).2 ⟨q, hq, max (f.addr r 0) (g.addr q 0) - g.addr q 0, by omega, ?_⟩⟩
    · have := f.addr_eq r (max (f.addr r 0) (g.addr q 0) - f.addr r 0); omega
    · have := g.addr_eq q (max (f.addr r 0) (g.addr q 0) - g.addr q 0); omega
  · rintro ⟨a, hf, hg⟩
    have ef := Footprint.not_isEmpty_of_has hf
    have eg := Footprint.not_isEmpty_of_has hg
    obtain ⟨r, hr, b, hb, h1⟩ := (f.has_iff a).1 hf
    obtain ⟨q, hq, c, hc, h2⟩ := (g.has_iff a).1 hg
    simp only [Footprint.overlaps, ef, eg, Bool.not_false, Bool.true_and, List.any_eq_true, List.mem_range,
      Bool.and_eq_true, decide_eq_true_eq]
    refine ⟨r, hr, q, hq, ?_, ?_⟩
    · rw [g.addr_eq q g.rowbytes]; rw [g.addr_eq q c] at h2; rw [f.addr_eq r b] at h1; omega
    · rw [f.addr_eq r f.rowbytes]; rw [g.addr_eq q c] at h2; rw [f.addr_eq r b] at h1; omega

theorem Footprint.overlaps_comm (f g : Footprint) : f.overlaps g = g.overlaps f := by
  rw [Bool.eq_iff_iff, f.overlaps_iff, g.overlaps_iff]
  simp only [and_comm]

/-- R222 check 9: a footprint wraps when it has a byte address outside the space. -/
theorem Footprint.wraps_iff (f : Footprint) :
    f.wraps = true ↔ ∃ a, f.has a = true ∧ Config.spaceBytes ≤ a := by
  constructor
  · intro h
    simp only [Footprint.wraps, Bool.and_eq_true, decide_eq_true_eq, Bool.not_eq_true', Footprint.isEmpty,
      Bool.or_eq_false_iff, decide_eq_false_iff_not] at h
    exact ⟨_, (f.has_iff _).2 ⟨f.rows - 1, by omega, f.rowbytes - 1, by omega, rfl⟩, h.2⟩
  · rintro ⟨a, ha, hle⟩
    have he := Footprint.not_isEmpty_of_has ha
    obtain ⟨r, hr, b, hb, rfl⟩ := (f.has_iff a).1 ha
    simp only [Footprint.wraps, he, Bool.not_false, Bool.true_and, decide_eq_true_eq]
    have : r * f.pitch ≤ (f.rows - 1) * f.pitch := Nat.mul_le_mul_right _ (by omega)
    simp only [Footprint.addr] at *
    omega

/-- R222 check 10 fails nowhere: the footprints are pairwise disjoint. -/
theorem anyOverlap_eq_false_iff (l : List Footprint) :
    anyOverlap l = false ↔ l.Pairwise fun f g => f.overlaps g = false := by
  induction l with
  | nil => simp [anyOverlap]
  | cons f rest ih =>
    simp only [anyOverlap, Bool.or_eq_false_iff, List.pairwise_cons, ih, List.any_eq_false, Bool.not_eq_true]

theorem byteFootprint_has (a x : Nat) : (byteFootprint a).has x = true ↔ x = a := by
  rw [Footprint.has_iff]
  simp [byteFootprint, Footprint.addr]

/-- Rows that do not run into each other: a byte has one place in the footprint. -/
theorem Footprint.addr_inj {f : Footprint} (h : f.rowbytes ≤ f.pitch ∨ f.rows ≤ 1) {r q b c : Nat}
    (hr : r < f.rows) (hq : q < f.rows) (hb : b < f.rowbytes) (hc : c < f.rowbytes)
    (e : f.addr r b = f.addr q c) : r = q ∧ b = c := by
  have hrq : r = q := by
    rcases h with h | h
    · by_contra hne
      rcases Nat.lt_or_gt_of_ne hne with hlt | hlt
      · have : (r + 1) * f.pitch ≤ q * f.pitch := Nat.mul_le_mul_right _ hlt
        simp only [Footprint.addr, Nat.add_mul] at *
        omega
      · have : (q + 1) * f.pitch ≤ r * f.pitch := Nat.mul_le_mul_right _ hlt
        simp only [Footprint.addr, Nat.add_mul] at *
        omega
    · omega
  subst hrq
  exact ⟨rfl, by simpa [Footprint.addr] using e⟩

end Sys2Proof.Machine
end

