-- ==== Sys2Proof/Laws/Memory.lean ====
section
/-! SUPPORT. Memory: a read after a write, the canonical form, and equality of canonical memories. -/

namespace Sys2Proof.Machine

theorem Memory.read_put (a : Nat) (v : Byte) (rest : Memory) (h : rest.read a = Memory.unlisted) (x : Nat) :
    (Memory.put a v rest).read x = if x = a then v else rest.read x := by
  unfold Memory.put
  split
  · next hv => split <;> simp_all
  · simp only [Memory.read, eq_comm]

/-- Every address of a canonical list lies above its bound. -/
theorem Memory.read_of_le {m : Memory} {lo x : Nat} (h : Memory.wfFrom (some lo) m = true) (hx : x ≤ lo) :
    m.read x = Memory.unlisted := by
  induction m generalizing lo with
  | nil => rfl
  | cons c rest ih =>
    obtain ⟨k, v⟩ := c
    simp only [Memory.wfFrom, Bool.and_eq_true, decide_eq_true_eq] at h
    rw [Memory.read, if_neg (by omega)]
    exact ih h.2 (by omega)

theorem Memory.wfFrom_cons {lo : Option Nat} {k : Nat} {v : Byte} {rest : Memory}
    (h : Memory.wfFrom lo ((k, v) :: rest) = true) : Memory.wfFrom (some k) rest = true := by
  simp only [Memory.wfFrom, Bool.and_eq_true] at h
  exact h.2

theorem Memory.read_write {lo : Option Nat} {m : Memory} (h : Memory.wfFrom lo m = true) (a : Nat) (v : Byte)
    (x : Nat) : (m.write a v).read x = if x = a then v else m.read x := by
  induction m generalizing lo with
  | nil => exact Memory.read_put a v [] rfl x
  | cons c rest ih =>
    obtain ⟨k, w⟩ := c
    have hr := Memory.wfFrom_cons h
    unfold Memory.write
    split
    · next hak =>
      refine Memory.read_put a v _ ?_ x
      rw [Memory.read, if_neg (by omega)]
      exact Memory.read_of_le hr (by omega)
    · split
      · next hak =>
        subst hak
        rw [Memory.read_put a v _ (Memory.read_of_le hr le_rfl) x]
        by_cases hx : x = a
        · simp [hx]
        · simp [hx, Memory.read, Ne.symm hx]
      · next h1 h2 =>
        simp only [Memory.read, ih hr]
        by_cases hx : k = x
        · simp [hx, show x ≠ a by omega]
        · simp [hx]

/-- A read after a write gives the byte written there, and the old byte elsewhere. -/
@[simp] theorem Memory.read_write_wf {m : Memory} (h : m.wf = true) (a : Nat) (v : Byte) (x : Nat) :
    (m.write a v).read x = if x = a then v else m.read x :=
  Memory.read_write h a v x

theorem Memory.wfFrom_put {lo : Option Nat} {a : Nat} {v : Byte} {rest : Memory}
    (hlo : ∀ b, lo = some b → b < a) (ha : a < Config.spaceBytes) (hr : Memory.wfFrom (some a) rest = true)
    (hr' : Memory.wfFrom lo rest = true) : Memory.wfFrom lo (Memory.put a v rest) = true := by
  unfold Memory.put
  split
  · exact hr'
  · next hv =>
    cases lo with
    | none => simp [Memory.wfFrom, ha, hv, hr]
    | some b => simp [Memory.wfFrom, ha, hv, hr, hlo b rfl]

theorem Memory.wfFrom_mono {lo : Option Nat} {k : Nat} {m : Memory} (h : Memory.wfFrom (some k) m = true)
    (hlo : ∀ b, lo = some b → b ≤ k) : Memory.wfFrom lo m = true := by
  cases m with
  | nil => cases lo <;> rfl
  | cons c rest =>
    obtain ⟨j, v⟩ := c
    simp only [Memory.wfFrom, Bool.and_eq_true, decide_eq_true_eq] at h ⊢
    refine ⟨⟨⟨?_, h.1.1.2⟩, h.1.2⟩, h.2⟩
    cases lo with
    | none => rfl
    | some b => simpa using Nat.lt_of_le_of_lt (hlo b rfl) h.1.1.1

theorem Memory.wfFrom_write {lo : Option Nat} {m : Memory} (h : Memory.wfFrom lo m = true) {a : Nat}
    (hlo : ∀ b, lo = some b → b < a) (ha : a < Config.spaceBytes) (v : Byte) :
    Memory.wfFrom lo (m.write a v) = true := by
  induction m generalizing lo with
  | nil => exact Memory.wfFrom_put hlo ha rfl (by cases lo <;> rfl)
  | cons c rest ih =>
    obtain ⟨k, w⟩ := c
    have hr := Memory.wfFrom_cons h
    unfold Memory.write
    split
    · next hak =>
      refine Memory.wfFrom_put hlo ha ?_ h
      simp only [Memory.wfFrom, Bool.and_eq_true, decide_eq_true_eq] at h ⊢
      exact ⟨⟨⟨hak, h.1.1.2⟩, h.1.2⟩, h.2⟩
    · split
      · next hak =>
        subst hak
        exact Memory.wfFrom_put hlo ha hr (Memory.wfFrom_mono hr fun b hb => (hlo b hb).le)
      · simp only [Memory.wfFrom, Bool.and_eq_true] at h ⊢
        refine ⟨h.1, ih hr fun b hb => ?_⟩
        simp only [Option.some.injEq] at hb
        omega

/-- A write in the data space keeps the canonical form. -/
theorem Memory.wf_write {m : Memory} (h : m.wf = true) {a : Nat} (ha : a < Config.spaceBytes) (v : Byte) :
    (m.write a v).wf = true :=
  Memory.wfFrom_write h (by simp) ha v

theorem Memory.wf_writeAll {m : Memory} (h : m.wf = true) {cells : List Host.Cell}
    (hc : ∀ c ∈ cells, c.1 < Config.spaceBytes) : (m.writeAll cells).wf = true := by
  induction cells generalizing m with
  | nil => exact h
  | cons c rest ih =>
    exact ih (Memory.wf_write h (hc c (by simp)) c.2) fun d hd => hc d (List.mem_cons_of_mem _ hd)

/-- `writeAll` leaves every address it does not name. -/
theorem Memory.read_writeAll_of_not_mem {m : Memory} (h : m.wf = true) {cells : List Host.Cell}
    (hc : ∀ c ∈ cells, c.1 < Config.spaceBytes) {x : Nat} (hx : ∀ c ∈ cells, c.1 ≠ x) :
    (m.writeAll cells).read x = m.read x := by
  induction cells generalizing m with
  | nil => rfl
  | cons c rest ih =>
    have := ih (Memory.wf_write h (hc c (by simp)) c.2) (fun d hd => hc d (List.mem_cons_of_mem _ hd))
      (fun d hd => hx d (List.mem_cons_of_mem _ hd))
    exact this.trans (by simp [h, Ne.symm (hx c (by simp))])

/-- An address all of whose cells carry one byte holds it afterwards (R73). -/
theorem Memory.read_writeAll_of_mem {m : Memory} (h : m.wf = true) {cells : List Host.Cell}
    (hc : ∀ c ∈ cells, c.1 < Config.spaceBytes) {x : Nat} {v : Byte} (hm : (x, v) ∈ cells)
    (hv : ∀ c ∈ cells, c.1 = x → c.2 = v) : (m.writeAll cells).read x = v := by
  induction cells generalizing m with
  | nil => simp at hm
  | cons c rest ih =>
    have hw := Memory.wf_write h (hc c (by simp)) c.2
    have hc' : ∀ d ∈ rest, d.1 < Config.spaceBytes := fun d hd => hc d (List.mem_cons_of_mem _ hd)
    have hv' : ∀ d ∈ rest, d.1 = x → d.2 = v := fun d hd => hv d (List.mem_cons_of_mem _ hd)
    by_cases hin : (x, v) ∈ rest
    · exact ih hw hc' hin hv'
    · have hnot : ∀ d ∈ rest, d.1 ≠ x := fun d hd he => hin (by
        have := hv' d hd he
        obtain ⟨d1, d2⟩ := d
        simp_all)
      refine (Memory.read_writeAll_of_not_mem hw hc' hnot).trans ?_
      have : c = (x, v) := by
        rcases List.mem_cons.1 hm with e | e
        · exact e.symm
        · exact absurd e hin
      simp [h, this]

/-- Two canonical memories that read alike are equal. -/
theorem Memory.wfFrom_ext {lo lo' : Option Nat} {m n : Memory} (hm : Memory.wfFrom lo m = true)
    (hn : Memory.wfFrom lo' n = true) (h : ∀ x, m.read x = n.read x) : m = n := by
  induction m generalizing lo lo' n with
  | nil =>
    cases n with
    | nil => rfl
    | cons c rest =>
      obtain ⟨k, v⟩ := c
      simp only [Memory.wfFrom, Bool.and_eq_true, decide_eq_true_eq] at hn
      exact absurd ((h k).symm.trans rfl) (by simpa [Memory.read] using hn.1.2)
  | cons c rest ih =>
    obtain ⟨k, v⟩ := c
    have hm' := Memory.wfFrom_cons hm
    simp only [Memory.wfFrom, Bool.and_eq_true, decide_eq_true_eq] at hm
    cases n with
    | nil => exact absurd (h k) (by simpa [Memory.read] using hm.1.2)
    | cons d rest' =>
      obtain ⟨j, w⟩ := d
      have hn' := Memory.wfFrom_cons hn
      simp only [Memory.wfFrom, Bool.and_eq_true, decide_eq_true_eq] at hn
      have hkj : k = j := by
        rcases Nat.lt_trichotomy k j with hlt | he | hlt
        · have := h k
          rw [Memory.read, if_pos rfl, Memory.read, if_neg (by omega), Memory.read_of_le hn' hlt.le] at this
          exact absurd this hm.1.2
        · exact he
        · have := h j
          rw [Memory.read, if_neg (by omega), Memory.read, if_pos rfl, Memory.read_of_le hm' hlt.le] at this
          exact absurd this.symm hn.1.2
      subst hkj
      have hvw : v = w := by simpa [Memory.read] using h k
      subst hvw
      congr 1
      refine ih hm' hn' fun x => ?_
      by_cases hx : x ≤ k
      · rw [Memory.read_of_le hm' hx, Memory.read_of_le hn' hx]
      · simpa [Memory.read, show k ≠ x by omega] using h x

/-- Two canonical memories that read alike are equal. -/
theorem Memory.wf_ext {m n : Memory} (hm : m.wf = true) (hn : n.wf = true) (h : ∀ x, m.read x = n.read x) :
    m = n :=
  Memory.wfFrom_ext hm hn h

/-- Everything a list of writes can leave at an address: what stood there, or a byte of the list. -/
theorem Memory.read_writeAll_cases {m : Memory} (hm : m.wf = true) {cells : List Host.Cell}
    (hc : ∀ c ∈ cells, c.1 < Config.spaceBytes) (a : Nat) :
    (m.writeAll cells).read a = m.read a ∨ ∃ c ∈ cells, c.1 = a ∧ (m.writeAll cells).read a = c.2 := by
  induction cells generalizing m with
  | nil => exact .inl rfl
  | cons c cells ih =>
    have hwf := Memory.wf_write hm (hc c (List.mem_cons_self ..)) c.2
    rcases ih hwf (fun d hd => hc d (List.mem_cons_of_mem _ hd)) with h | ⟨d, hd, h1, h2⟩
    · have h : (m.writeAll (c :: cells)).read a = (m.write c.1 c.2).read a := h
      rw [Memory.read_write_wf hm] at h
      split at h
      · next he => exact .inr ⟨c, List.mem_cons_self .., he.symm, h⟩
      · exact .inl h
    · exact .inr ⟨d, List.mem_cons_of_mem _ hd, h1, h2⟩

end Sys2Proof.Machine
end

