-- ==== Sys2Proof/Laws/PerInstr.lean ====
section
/-! SUPPORT. One lemma per operation: the fields of its command word (R90, R92). -/

namespace Sys2Proof.Laws.EncodedFields

/-- The operation is well formed, and its word holds its OP in bits 7:0, its policy in bit 8 and 0 in bits 31:9. -/
def Statement (i : Instr) : Prop :=
  i.wf = true ∧ cmdOp (encode i) = (opcodeOf i).toNat ∧ cmdNt (encode i) = ntOf i ∧ cmdRsvd (encode i) = 0

theorem moveC : Statement .moveC := by
  unfold Statement; decide

theorem moveNT : Statement .moveNT := by
  unfold Statement; decide

theorem cvtP422 (nt : StorePolicy) : Statement (.cvtP422 nt) := by
  cases nt <;> unfold Statement <;> decide

theorem cvtP422I (nt : StorePolicy) : Statement (.cvtP422I nt) := by
  cases nt <;> unfold Statement <;> decide

theorem cvtPl420 (nt : StorePolicy) : Statement (.cvtPl420 nt) := by
  cases nt <;> unfold Statement <;> decide

theorem cvtPl420Uv (nt : StorePolicy) : Statement (.cvtPl420Uv nt) := by
  cases nt <;> unfold Statement <;> decide

theorem copyPl444 (nt : StorePolicy) : Statement (.copyPl444 nt) := by
  cases nt <;> unfold Statement <;> decide

theorem cvtPk444w (nt : StorePolicy) : Statement (.cvtPk444w nt) := by
  cases nt <;> unfold Statement <;> decide

theorem cvtPk444wI (nt : StorePolicy) : Statement (.cvtPk444wI nt) := by
  cases nt <;> unfold Statement <;> decide

end Sys2Proof.Laws.EncodedFields
end

