-- ==== Sys2Proof/Laws/State.lean ====
section
/-! SUPPORT. One lemma per field and update of the state's shared operations. -/

namespace Sys2Proof.Machine

section SetUnit
variable (s : State) (u : Nat) (un : UnitState)

@[simp] theorem State.setUnit_units : (s.setUnit u un).units = s.units.set u un := rfl
@[simp] theorem State.setUnit_mem : (s.setUnit u un).mem = s.mem := rfl
@[simp] theorem State.setUnit_params : (s.setUnit u un).params = s.params := rfl
@[simp] theorem State.setUnit_admitted : (s.setUnit u un).admitted = s.admitted := rfl
@[simp] theorem State.setUnit_record : (s.setUnit u un).record = s.record := rfl
@[simp] theorem State.setUnit_host : (s.setUnit u un).host = s.host := rfl
@[simp] theorem State.setUnit_turns : (s.setUnit u un).turns = s.turns := rfl
@[simp] theorem State.setUnit_cur : (s.setUnit u un).cur = s.cur := rfl
@[simp] theorem State.setUnit_draws : (s.setUnit u un).draws = s.draws := rfl
end SetUnit

section RaiseFault
variable (s : State) (un : UnitState) (c : Cause)

@[simp] theorem State.raiseFault_units : (s.raiseFault un c).units = s.units.set s.cur (endInFault c un) := rfl
@[simp] theorem State.raiseFault_mem : (s.raiseFault un c).mem = s.mem := rfl
@[simp] theorem State.raiseFault_params : (s.raiseFault un c).params = s.params := rfl
@[simp] theorem State.raiseFault_admitted : (s.raiseFault un c).admitted = s.admitted := rfl
@[simp] theorem State.raiseFault_record :
    (s.raiseFault un c).record = s.record ++ [{ unit := s.cur, kind := .precondition c }] := rfl
@[simp] theorem State.raiseFault_host : (s.raiseFault un c).host = s.host := rfl
@[simp] theorem State.raiseFault_turns : (s.raiseFault un c).turns = s.turns := rfl
@[simp] theorem State.raiseFault_cur : (s.raiseFault un c).cur = s.cur := rfl
@[simp] theorem State.raiseFault_draws : (s.raiseFault un c).draws = s.draws := rfl
end RaiseFault

section Finish
variable (s : State) (un : UnitState) (cells : List Host.Cell)

@[simp] theorem State.finish_units : (s.finish un cells).units = s.units.set s.cur (endInDone un) := rfl
@[simp] theorem State.finish_mem : (s.finish un cells).mem = s.mem.writeAll cells := rfl
@[simp] theorem State.finish_params : (s.finish un cells).params = s.params := rfl
@[simp] theorem State.finish_admitted : (s.finish un cells).admitted = s.admitted := rfl
@[simp] theorem State.finish_record : (s.finish un cells).record = s.record := rfl
@[simp] theorem State.finish_host : (s.finish un cells).host = s.host := rfl
@[simp] theorem State.finish_turns : (s.finish un cells).turns = s.turns := rfl
@[simp] theorem State.finish_cur : (s.finish un cells).cur = s.cur := rfl
@[simp] theorem State.finish_draws : (s.finish un cells).draws = s.draws + 1 := rfl
end Finish

section GetStuck
variable (s : State) (un : UnitState) (cells : List Host.Cell)

@[simp] theorem State.getStuck_units : (s.getStuck un cells).units = s.units.set s.cur (endStuck un) := rfl
@[simp] theorem State.getStuck_mem : (s.getStuck un cells).mem = s.mem.writeAll cells := rfl
@[simp] theorem State.getStuck_params : (s.getStuck un cells).params = s.params := rfl
@[simp] theorem State.getStuck_admitted : (s.getStuck un cells).admitted = s.admitted := rfl
@[simp] theorem State.getStuck_record :
    (s.getStuck un cells).record = s.record ++ [{ unit := s.cur, kind := .stuck }] := rfl
@[simp] theorem State.getStuck_host : (s.getStuck un cells).host = s.host := rfl
@[simp] theorem State.getStuck_turns : (s.getStuck un cells).turns = s.turns := rfl
@[simp] theorem State.getStuck_cur : (s.getStuck un cells).cur = s.cur := rfl
@[simp] theorem State.getStuck_draws : (s.getStuck un cells).draws = s.draws + 1 := rfl
end GetStuck

section BeginOperation
variable (s : State) (u : Nat) (un : UnitState)

theorem State.beginOperation_units : (s.beginOperation u un).units =
    let started := beginBusy (Config.freeBool s.draws 0) (s.units.flatMap (busyWrittenFps s.params))
      (s.units.flatMap (busyDstFps s.params)) un
    (s.units.map (noteForeign (busyWrittenFps s.params started) (busyDstFps s.params started))).set u started := rfl
@[simp] theorem State.beginOperation_mem : (s.beginOperation u un).mem = s.mem := rfl
@[simp] theorem State.beginOperation_params : (s.beginOperation u un).params = s.params := rfl
@[simp] theorem State.beginOperation_admitted : (s.beginOperation u un).admitted = s.admitted := rfl
@[simp] theorem State.beginOperation_record : (s.beginOperation u un).record = s.record := rfl
@[simp] theorem State.beginOperation_host : (s.beginOperation u un).host = s.host := rfl
@[simp] theorem State.beginOperation_turns : (s.beginOperation u un).turns = s.turns := rfl
@[simp] theorem State.beginOperation_cur : (s.beginOperation u un).cur = s.cur := rfl
@[simp] theorem State.beginOperation_draws : (s.beginOperation u un).draws = s.draws + 1 := rfl
end BeginOperation

section HostAccess
variable (s : State) (a v : Word64) (b : Byte) (rest : List HostStmt)

@[simp] theorem State.hostStore_mem : (s.hostStore a b).mem = s.mem.write a.toNat b := rfl
@[simp] theorem State.hostStore_record : (s.hostStore a b).record = s.record := rfl
@[simp] theorem State.hostStore_units :
    (s.hostStore a b).units = s.units.map (noteForeign [byteFootprint a.toNat] []) := rfl
@[simp] theorem State.advance_mem : (s.advance rest).mem = s.mem := rfl
@[simp] theorem State.advance_units : (s.advance rest).units = s.units := rfl
@[simp] theorem State.advance_record : (s.advance rest).record = s.record := rfl
@[simp] theorem State.advance_params : (s.advance rest).params = s.params := rfl
@[simp] theorem State.returned_mem : (s.returned v).mem = s.mem := rfl
@[simp] theorem State.returned_units : (s.returned v).units = s.units := rfl
@[simp] theorem State.returned_record : (s.returned v).record = s.record := rfl
@[simp] theorem State.returned_params : (s.returned v).params = s.params := rfl
@[simp] theorem State.returned_host_loads : (s.returned v).host.loads = s.host.loads ++ [v] := rfl
end HostAccess

section PlatformReset
variable (s : State)

@[simp] theorem State.platformReset_units :
    s.platformReset.units = s.units.map fun un => UnitState.reset un.base := rfl
@[simp] theorem State.platformReset_record : s.platformReset.record = [] := rfl
@[simp] theorem State.platformReset_mem :
    s.platformReset.mem = s.mem.writeAll (resetCellsFrom s 0 s.units) := rfl
@[simp] theorem State.platformReset_params : s.platformReset.params = s.params := rfl
@[simp] theorem State.platformReset_host : s.platformReset.host = s.host := rfl
end PlatformReset

/-! ### The flags of each end of an operation keep the registers -/

section Flags
variable (un : UnitState)

@[simp] theorem endInFault_regs (c : Cause) : (endInFault c un).regs = un.regs := rfl
@[simp] theorem endInFault_latch (c : Cause) : (endInFault c un).latch = un.latch := rfl
@[simp] theorem endInFault_base (c : Cause) : (endInFault c un).base = un.base := rfl
@[simp] theorem endInDone_regs : (endInDone un).regs = un.regs := rfl
@[simp] theorem endInDone_latch : (endInDone un).latch = un.latch := rfl
@[simp] theorem endInDone_base : (endInDone un).base = un.base := rfl
@[simp] theorem endStuck_regs : (endStuck un).regs = un.regs := rfl
@[simp] theorem endStuck_latch : (endStuck un).latch = un.latch := rfl
@[simp] theorem endStuck_base : (endStuck un).base = un.base := rfl
end Flags

/-- A foreign write changes no flag, register or latch of a unit. -/
theorem noteForeign_eq (fps gs : List Footprint) (un : UnitState) :
    noteForeign fps gs un = { un with foreignWrites := (noteForeign fps gs un).foreignWrites,
                                      openReads := (noteForeign fps gs un).openReads } := by
  unfold noteForeign
  split <;> rfl

end Sys2Proof.Machine
end

