-- ==== Sys2Proof/Laws/Run.lean ====
section
/-! SUPPORT. Running an operation: everything `runPlan` can do, and what it leaves in memory. -/

namespace Sys2Proof.Machine

theorem firstFailing_eq_none_iff (l : List (Bool × Cause)) :
    firstFailing l = none ↔ ∀ c ∈ l, c.1 = false := by
  induction l with
  | nil => simp [firstFailing]
  | cons c rest ih =>
    obtain ⟨b, c⟩ := c
    cases b <;> simp [firstFailing, ih]

theorem firstFailing_append (l m : List (Bool × Cause)) :
    firstFailing (l ++ m) = (firstFailing l).or (firstFailing m) := by
  induction l with
  | nil => simp [firstFailing]
  | cons c rest ih =>
    obtain ⟨b, c⟩ := c
    cases b <;> simp [firstFailing, ih]

/-- CHECKS pass exactly when no check of R222 fails. -/
theorem Plan.check_eq_none_iff (p : Plan) :
    p.check = none ↔ (∀ c ∈ p.pre, c.1 = false) ∧ p.nullPointer = false ∧ p.addrWrap = false ∧
      p.overlap = false := by
  simp only [Plan.check, firstFailing_eq_none_iff, List.mem_append, List.mem_cons, List.not_mem_nil, or_false]
  constructor
  · intro h
    exact ⟨fun c hc => h c (.inl hc), h _ (.inr (.inl rfl)), h _ (.inr (.inr (.inl rfl))),
      h _ (.inr (.inr (.inr rfl)))⟩
  · rintro ⟨h1, h2, h3, h4⟩ c (hc | rfl | rfl | rfl)
    exacts [h1 c hc, h2, h3, h4]

/-- Everything one operation can do: a precondition fault with memory untouched, DONE with every byte
written, or a refused access with some of the bytes written. -/
theorem runPlan_cases {plan : Config.Params → Descriptor → Plan} {s t : State} (h : runPlan plan s = .next t) :
    ∃ un, s.units[s.cur]? = some un ∧
      ((∃ c, (plan s.params un.latch).check = some c ∧ t = s.raiseFault un c) ∨
       ((plan s.params un.latch).check = none ∧
          (plan s.params un.latch).admittedBy s.admitted s.mem.read = true ∧
          t = s.finish un (finalCells s un (plan s.params un.latch))) ∨
       ((plan s.params un.latch).check = none ∧
          (plan s.params un.latch).admittedBy s.admitted s.mem.read = false ∧
          t = s.getStuck un (partialCells s.draws s.admitted s.mem un (plan s.params un.latch)))) := by
  unfold runPlan at h
  split at h
  · cases h
  · next un hu =>
    refine ⟨un, hu, ?_⟩
    split at h
    · next c hc => exact .inl ⟨c, hc, by cases h; rfl⟩
    · next hc =>
      split at h
      · next ha => exact .inr (.inl ⟨hc, ha, by cases h; rfl⟩)
      · next ha => exact .inr (.inr ⟨hc, by simpa using ha, by cases h; rfl⟩)

theorem runPlan_fault {plan : Config.Params → Descriptor → Plan} {s : State} {un : UnitState} {c : Cause}
    (hu : s.units[s.cur]? = some un) (hc : (plan s.params un.latch).check = some c) :
    runPlan plan s = .next (s.raiseFault un c) := by
  simp [runPlan, hu, hc]

theorem runPlan_done {plan : Config.Params → Descriptor → Plan} {s : State} {un : UnitState}
    (hu : s.units[s.cur]? = some un) (hc : (plan s.params un.latch).check = none)
    (ha : (plan s.params un.latch).admittedBy s.admitted s.mem.read = true) :
    runPlan plan s = .next (s.finish un (finalCells s un (plan s.params un.latch))) := by
  simp [runPlan, hu, hc, ha]

theorem runPlan_stuck {plan : Config.Params → Descriptor → Plan} {s : State} {un : UnitState}
    (hu : s.units[s.cur]? = some un) (hc : (plan s.params un.latch).check = none)
    (ha : (plan s.params un.latch).admittedBy s.admitted s.mem.read = false) :
    runPlan plan s = .next (s.getStuck un (partialCells s.draws s.admitted s.mem un (plan s.params un.latch))) := by
  simp [runPlan, hu, hc, ha]

/-! ### The bytes an operation writes -/

theorem Plan.mem_byteWrites {rd : Nat → Byte} {p : Plan} {w : ByteWrite} :
    w ∈ p.byteWrites rd ↔
      ∃ q ∈ p.dst, ∃ r < q.rows, ∃ b < q.cols * q.bytes, w = q.byteWrite rd r b := by
  simp only [Plan.byteWrites, List.mem_flatMap, List.mem_range, List.mem_map, eq_comm (b := w)]

/-- R72: an operation writes only bytes of its destination footprints. -/
theorem Plan.has_of_mem_byteWrites {rd : Nat → Byte} {p : Plan} {w : ByteWrite} (h : w ∈ p.byteWrites rd) :
    ∃ f ∈ p.dstFps, f.has w.addr = true := by
  obtain ⟨q, hq, r, hr, b, hb, rfl⟩ := Plan.mem_byteWrites.1 h
  exact ⟨q.fp, List.mem_map_of_mem hq, (q.fp.has_iff _).2 ⟨r, hr, b, hb, rfl⟩⟩

/-- ADDR_WRAP passed: every byte written is in the data space. -/
theorem Plan.addr_lt_of_mem_byteWrites {rd : Nat → Byte} {p : Plan} {w : ByteWrite} (hc : p.check = none)
    (h : w ∈ p.byteWrites rd) : w.addr < Config.spaceBytes := by
  obtain ⟨f, hf, ha⟩ := Plan.has_of_mem_byteWrites h
  have hw := ((p.check_eq_none_iff).1 hc).2.2.1
  obtain ⟨q, hq, rfl⟩ := List.mem_map.1 hf
  by_contra hge
  have : q.fp.wraps = true := (q.fp.wraps_iff).2 ⟨_, ha, by omega⟩
  have h2 : p.addrWrap = true := by
    simp only [Plan.addrWrap, Plan.planes, List.any_eq_true]
    exact ⟨(q.base, q.fp), List.mem_append_right _ (List.mem_map.2 ⟨q, hq, rfl⟩), this⟩
  simp [h2] at hw

/-- Destination planes whose rows do not run into each other (PITCH passed). -/
def Plan.pitchOk (p : Plan) : Prop :=
  ∀ q ∈ p.dst, q.cols * q.bytes ≤ q.pitch ∨ q.rows ≤ 1

/-- R73, R74: each byte of a destination footprint has one final value. -/
theorem Plan.byteWrites_unique {rd : Nat → Byte} {p : Plan} (hc : p.check = none) (hp : p.pitchOk)
    {w v : ByteWrite} (hw : w ∈ p.byteWrites rd) (hv : v ∈ p.byteWrites rd) (e : w.addr = v.addr) : w = v := by
  obtain ⟨q, hq, r, hr, b, hb, rfl⟩ := Plan.mem_byteWrites.1 hw
  obtain ⟨q', hq', r', hr', b', hb', rfl⟩ := Plan.mem_byteWrites.1 hv
  have hpair : p.dst.Pairwise fun x y => x.fp.overlaps y.fp = false := by
    have := (anyOverlap_eq_false_iff _).1 ((p.check_eq_none_iff).1 hc).2.2.2
    rw [Plan.planes, List.map_append] at this
    have := (List.pairwise_append.1 this).2.1
    rwa [List.map_map, List.pairwise_map] at this
  have hqq : q = q' := by
    by_contra hne
    have hsymm : Std.Symm fun x y : DstPlane => x.fp.overlaps y.fp = false :=
      ⟨fun x y h => by rwa [Footprint.overlaps_comm]⟩
    have := hpair.forall hq hq' hne
    rw [← Bool.not_eq_true, Footprint.overlaps_iff] at this
    exact this ⟨_, (q.fp.has_iff _).2 ⟨r, hr, b, hb, rfl⟩, (q'.fp.has_iff _).2 ⟨r', hr', b', hb', e⟩⟩
  subst hqq
  obtain ⟨rfl, rfl⟩ := Footprint.addr_inj (f := q.fp) (hp q hq) hr hr' hb hb' e
  rfl

theorem finalCells_addr_lt {s : State} {un : UnitState} {p : Plan} (hc : p.check = none) :
    ∀ c ∈ finalCells s un p, c.1 < Config.spaceBytes := by
  intro c h
  obtain ⟨w, hw, rfl⟩ := List.mem_map.1 h
  exact Plan.addr_lt_of_mem_byteWrites hc hw

theorem partialCells_addr_lt {n : Nat} {rs : List Region} {m : Memory} {un : UnitState} {p : Plan}
    (hc : p.check = none) : ∀ c ∈ partialCells n rs m un p, c.1 < Config.spaceBytes := by
  intro c h
  obtain ⟨w, hw, rfl⟩ := List.mem_map.1 h
  exact Plan.addr_lt_of_mem_byteWrites hc (List.mem_filter.1 hw).1

theorem partialCells_addr_has {n : Nat} {rs : List Region} {m : Memory} {un : UnitState} {p : Plan} :
    ∀ c ∈ partialCells n rs m un p, ∃ f ∈ p.dstFps, f.has c.1 = true := by
  intro c h
  obtain ⟨w, hw, rfl⟩ := List.mem_map.1 h
  exact Plan.has_of_mem_byteWrites (List.mem_filter.1 hw).1

/-- What DONE leaves at byte `b` of row `r` of a destination plane, where the byte is left to no race. -/
theorem finish_read {s : State} {un : UnitState} {p : Plan} (hm : s.mem.wf = true) (hc : p.check = none)
    (hp : p.pitchOk) {q : DstPlane} (hq : q ∈ p.dst) {r b : Nat} (hr : r < q.rows) (hb : b < q.cols * q.bytes)
    (hf : racedAt un p (q.fp.addr r b) = false) :
    (s.mem.writeAll (finalCells s un p)).read (q.fp.addr r b) =
      (q.byteWrite s.mem.read r b).value.getD (Config.freeByte s.draws (q.fp.addr r b)) := by
  have hw : q.byteWrite s.mem.read r b ∈ p.byteWrites s.mem.read := Plan.mem_byteWrites.2 ⟨q, hq, r, hr, b, hb, rfl⟩
  refine Memory.read_writeAll_of_mem hm (finalCells_addr_lt hc) (List.mem_map.2 ⟨_, hw, ?_⟩) ?_
  · simp [ByteWrite.cell, hf, DstPlane.byteWrite]
  · intro c hcm hca
    obtain ⟨w, hwm, rfl⟩ := List.mem_map.1 hcm
    have : w = q.byteWrite s.mem.read r b := Plan.byteWrites_unique hc hp hwm hw hca
    subst this
    simp [ByteWrite.cell, hf, DstPlane.byteWrite]

/-- A byte that every rule of the operation leaves to a race holds a free value at DONE (R75). -/
theorem finish_read_raced {s : State} {un : UnitState} {p : Plan} (hm : s.mem.wf = true) (hc : p.check = none)
    {f : Footprint} (hf : f ∈ p.dstFps) {a : Nat} (ha : f.has a = true)
    (hr : racedAt un p a = true) :
    (s.mem.writeAll (finalCells s un p)).read a = Config.freeByte s.draws a := by
  obtain ⟨q, hq, rfl⟩ := List.mem_map.1 hf
  obtain ⟨r, hr', b, hb, rfl⟩ := (q.fp.has_iff a).1 ha
  have hw : q.byteWrite s.mem.read r b ∈ p.byteWrites s.mem.read := Plan.mem_byteWrites.2 ⟨q, hq, r, hr', b, hb, rfl⟩
  refine Memory.read_writeAll_of_mem hm (finalCells_addr_lt hc) (List.mem_map.2 ⟨_, hw, ?_⟩) ?_
  · simp [ByteWrite.cell, DstPlane.byteWrite, hr]
  · intro c hcm hca
    obtain ⟨w, hwm, rfl⟩ := List.mem_map.1 hcm
    have hca : w.addr = q.fp.addr r b := hca
    simp [ByteWrite.cell, hca, hr]

/-- R72: a byte outside the destination footprints is never written. -/
theorem writeAll_read_outside {m : Memory} (hm : m.wf = true) {cells : List Host.Cell} {fps : List Footprint}
    (hc : ∀ c ∈ cells, c.1 < Config.spaceBytes) (hin : ∀ c ∈ cells, ∃ f ∈ fps, f.has c.1 = true) {a : Nat}
    (ha : ∀ f ∈ fps, f.has a = false) : (m.writeAll cells).read a = m.read a := by
  refine Memory.read_writeAll_of_not_mem hm hc fun c hcm he => ?_
  obtain ⟨f, hf, hh⟩ := hin c hcm
  rw [he, ha f hf] at hh
  cases hh

/-- What one operation writes lies in its destination footprints, whichever way it ends. -/
theorem runPlan_read_outside {plan : Config.Params → Descriptor → Plan} {s t : State} {un : UnitState}
    (hm : s.mem.wf = true) (hu : s.units[s.cur]? = some un) (h : runPlan plan s = .next t) {a : Nat}
    (ha : ∀ f ∈ (plan s.params un.latch).dstFps, f.has a = false) : t.mem.read a = s.mem.read a := by
  obtain ⟨un', hu', hcase⟩ := runPlan_cases h
  obtain rfl : un' = un := by rw [hu] at hu'; exact (Option.some.inj hu').symm
  rcases hcase with ⟨c, hc, rfl⟩ | ⟨hc, hadm, rfl⟩ | ⟨hc, hadm, rfl⟩
  · rfl
  · refine writeAll_read_outside hm (finalCells_addr_lt hc) (fun c hcm => ?_) ha
    obtain ⟨w, hw, rfl⟩ := List.mem_map.1 hcm
    exact Plan.has_of_mem_byteWrites hw
  · exact writeAll_read_outside hm (partialCells_addr_lt hc) partialCells_addr_has ha

/-- The memory keeps its canonical form, whichever way the operation ends. -/
theorem runPlan_mem_wf {plan : Config.Params → Descriptor → Plan} {s t : State} (hm : s.mem.wf = true)
    (h : runPlan plan s = .next t) : t.mem.wf = true := by
  obtain ⟨un, hu, hcase⟩ := runPlan_cases h
  rcases hcase with ⟨c, hc, rfl⟩ | ⟨hc, hadm, rfl⟩ | ⟨hc, hadm, rfl⟩
  · exact hm
  · exact Memory.wf_writeAll hm (finalCells_addr_lt hc)
  · exact Memory.wf_writeAll hm (partialCells_addr_lt hc)

end Sys2Proof.Machine
end

