-- ==== Sys2Proof/Laws/Plans.lean ====
section
/-! SUPPORT. What holds of every operation's plan: the meaning is the plan run (`exec_eq_runPlan`), PITCH keeps
the rows apart, the reads are the source footprints (`planOf_needs`), the accesses (`accessed_iff`), a fault has a
cause. -/

namespace Sys2Proof.Machine

/-- Every meaning is its plan, run on the current unit. -/
theorem exec_eq_runPlan (i : Instr) (s : State) : exec i s = runPlan (planOf i) s := by
  cases i <;> rfl

/-! ### Integer geometry against its natural-number form (R66) -/

theorem outW_eq (d : Descriptor) : outW d = croppedWidth d := by
  unfold outW outWInt croppedWidth
  omega

theorem outH_eq (d : Descriptor) : outH d = croppedHeight d := by
  unfold outH outHInt croppedHeight
  omega

theorem cropOutOfRange_iff (d : Descriptor) : cropOutOfRange d = true ↔ cropRangeFails d := by
  simp [cropOutOfRange, cropRangeFails, outWInt, outHInt]

theorem anyOddGeometry_iff (d : Descriptor) : anyOddGeometry d = true ↔ oddGeometry d := by
  simp [anyOddGeometry, oddGeometry]

/-- PARITY passed: the cropped size is even. -/
theorem even_cropped {d : Descriptor} (h : ¬ oddGeometry d) :
    croppedWidth d % 2 = 0 ∧ croppedHeight d % 2 = 0 := by
  unfold oddGeometry at h
  unfold croppedWidth croppedHeight
  omega

theorem even_out {d : Descriptor} (h : anyOddGeometry d = false) : outW d % 2 = 0 ∧ outH d % 2 = 0 := by
  rw [outW_eq, outH_eq]
  exact even_cropped fun ho => by simp [(anyOddGeometry_iff d).2 ho] at h

/-! ### Causes -/

theorem firstFailing_mem {l : List (Bool × Cause)} {c : Cause} (h : firstFailing l = some c) :
    (true, c) ∈ l := by
  induction l with
  | nil => simp [firstFailing] at h
  | cons x rest ih =>
    obtain ⟨b, e⟩ := x
    cases b
    · simp [firstFailing] at h
      exact List.mem_cons_of_mem _ (ih h)
    · simp [firstFailing] at h
      simp [h]

/-- A fault of CHECKS has a cause of R223 other than NONE. -/
theorem planOf_check_ne_noFault (i : Instr) (p : Config.Params) (d : Descriptor) :
    (planOf i p d).check ≠ some .noFault := by
  intro h
  have := firstFailing_mem h
  cases i <;>
    simp [planOf, planMoveC, planMoveNT, movePlan, planCvtP422, planCvtP422I, p422Pre, planCvtPl420,
      planCvtPl420Uv, planCopyPl444, planCvtPk444w, planCvtPk444wI, pk444Pre] at this

/-! ### PITCH: the rows of a destination plane do not run into each other -/

theorem planOf_pitchOk (i : Instr) (p : Config.Params) (d : Descriptor) (h : (planOf i p d).check = none) :
    (planOf i p d).pitchOk := by
  have hpre := ((Plan.check_eq_none_iff _).1 h).1
  cases i <;>
    simp only [Plan.pitchOk, planOf, planMoveC, planMoveNT, movePlan, planCvtP422, planCvtP422I, p422Pre, planCvtPl420,
      planCvtPl420Uv, planCopyPl444, planCvtPk444w, planCvtPk444wI, pk444Pre, p422LumaDst, p422ChromaDst, pl420LumaDst,
      pl420ChromaDst, pl444Dst, pk444LumaDst, pk444ChromaDst, List.mem_cons, List.not_mem_nil, or_false,
      forall_eq_or_imp, forall_eq, Bool.or_eq_false_iff, decide_eq_false_iff_not] at hpre ⊢ <;>
    omega

/-! ### Reads stay in the source footprints (R72) -/

/-- The bytes of a sample read at `a` lie in a footprint that holds column `c` of its row `r` with the sample's
width. -/
theorem Footprint.has_sample {f : Footprint} {r c n k : Nat} (hr : r < f.rows) (hc : c + n ≤ f.rowbytes)
    (hk : k < n) : f.has (f.addr r c + k) = true :=
  (f.has_iff _).2 ⟨r, hr, c + k, by omega, by simp [Footprint.addr, Nat.add_assoc]⟩

/-- Every sample a destination plane needs lies in a source footprint. -/
def Plan.readsInSource (p : Plan) : Prop :=
  ∀ q ∈ p.dst, ∀ r, r < q.rows → ∀ x, x < q.cols → ∀ a ∈ (q.sample r x).sources, ∀ k, k < q.bytes →
    ∃ f ∈ p.srcFps, f.has (a + k) = true

theorem Plan.reads_has {p : Plan} (h : p.readsInSource) {rd : Nat → Byte} {w : ByteWrite}
    (hw : w ∈ p.byteWrites rd) : ∀ a ∈ w.reads, ∃ f ∈ p.srcFps, f.has a = true := by
  obtain ⟨q, hq, r, hr, b, hb, rfl⟩ := Plan.mem_byteWrites.1 hw
  intro a ha
  simp only [DstPlane.byteWrite, List.mem_flatMap, List.mem_map, List.mem_range] at ha
  obtain ⟨a', ha', k, hk, rfl⟩ := ha
  exact h q hq r hr _ (Nat.div_lt_of_lt_mul (by rwa [Nat.mul_comm])) a' ha' k hk

theorem movePlan_readsInSource (d : Descriptor) : (movePlan d).readsInSource := by
  intro q hq r hr x hx a ha k hk
  simp only [movePlan, List.mem_cons, List.not_mem_nil, or_false] at hq
  subst hq
  simp only [Sample.sources, List.mem_cons, List.not_mem_nil, or_false] at ha hr hx hk
  subst ha
  refine ⟨_, List.mem_map_of_mem (List.mem_cons_self ..), (Footprint.has_iff _ _).2 ⟨0, by simp, x, hx, ?_⟩⟩
  simp [Footprint.addr]
  omega

/-- A source address is in the footprint of the source plane that its row and column name. -/
theorem p422_has {d : Descriptor} {r c : Nat} (hr : r < outH d) (hc : c < 2 * outW d) :
    (p422Src d).fp.has (p422Start d + r * d.srcPitchY.toNat + c) = true :=
  (Footprint.has_iff _ _).2 ⟨r, hr, c, hc, rfl⟩

theorem planCvtP422_readsInSource (p : Config.Params) (d : Descriptor) : (planCvtP422 p d).readsInSource := by
  intro q hq r hr x hx a ha k hk
  refine ⟨(p422Src d).fp, by simp [planCvtP422, Plan.srcFps], ?_⟩
  simp only [planCvtP422, List.mem_cons, List.not_mem_nil, or_false] at hq
  rcases hq with rfl | rfl
  · simp only [p422LumaDst, Sample.sources, List.mem_cons, List.not_mem_nil, or_false] at hr hx ha hk
    obtain rfl : k = 0 := by omega
    subst ha
    exact p422_has hr (by omega)
  · simp only [p422ChromaDst, Sample.sources, List.mem_cons, List.not_mem_nil, or_false] at hr hx ha hk
    obtain rfl : k = 0 := by omega
    rcases ha with rfl | rfl
    · exact p422_has (c := 2 * x + 1) (by omega) (by omega)
    · exact p422_has (c := 2 * x + 1) (by omega) (by omega)

theorem planCvtP422I_readsInSource (p : Config.Params) (d : Descriptor) (h4 : outH d % 4 = 0) :
    (planCvtP422I p d).readsInSource := by
  intro q hq r hr x hx a ha k hk
  refine ⟨(p422Src d).fp, by simp [planCvtP422I, Plan.srcFps], ?_⟩
  simp only [planCvtP422I, List.mem_cons, List.not_mem_nil, or_false] at hq
  rcases hq with rfl | rfl
  · simp only [p422LumaDst, Sample.sources, List.mem_cons, List.not_mem_nil, or_false] at hr hx ha hk
    obtain rfl : k = 0 := by omega
    subst ha
    exact p422_has hr (by omega)
  · simp only [p422ChromaDst, Sample.sources, List.mem_cons, List.not_mem_nil, or_false] at hr hx ha hk
    obtain rfl : k = 0 := by omega
    rcases ha with rfl | rfl
    · exact p422_has (c := 2 * x + 1) (by unfold fieldUp; omega) (by omega)
    · exact p422_has (c := 2 * x + 1) (by unfold fieldDown; omega) (by omega)

theorem pl420Chroma_has {base : Word64} {d : Descriptor} {j k : Nat} (hj : j < outH d / 2) (hk : k < outW d / 2) :
    (pl420ChromaSrc base d).fp.has (pl420ChromaStart base d + j * d.srcPitchC.toNat + k) = true :=
  (Footprint.has_iff _ _).2 ⟨j, hj, k, hk, rfl⟩

theorem pl420ChromaDst_reads {d : Descriptor} (he : outW d % 2 = 0) {r x : Nat} (hr : r < (pl420ChromaDst d).rows)
    (hx : x < (pl420ChromaDst d).cols) {a : Nat} (ha : a ∈ ((pl420ChromaDst d).sample r x).sources) :
    (pl420ChromaSrc d.src1 d).fp.has a = true ∨ (pl420ChromaSrc d.src2 d).fp.has a = true := by
  simp only [pl420ChromaDst] at hr hx ha
  split at ha
  · simp only [Sample.sources, List.mem_cons, List.not_mem_nil, or_false] at ha
    subst ha
    exact .inl (pl420Chroma_has hr (by omega))
  · simp only [Sample.sources, List.mem_cons, List.not_mem_nil, or_false] at ha
    subst ha
    exact .inr (pl420Chroma_has hr (by omega))

theorem planCvtPl420_readsInSource (p : Config.Params) (d : Descriptor) (he : outW d % 2 = 0) :
    (planCvtPl420 p d).readsInSource := by
  intro q hq r hr x hx a ha k hk
  simp only [planCvtPl420, List.mem_cons, List.not_mem_nil, or_false] at hq
  rcases hq with rfl | rfl
  · refine ⟨(pl420LumaSrc d).fp, by simp [planCvtPl420, Plan.srcFps], ?_⟩
    simp only [pl420LumaDst, Sample.sources, List.mem_cons, List.not_mem_nil, or_false] at hr hx ha hk
    obtain rfl : k = 0 := by omega
    subst ha
    exact (Footprint.has_iff _ _).2 ⟨r, hr, x, hx, rfl⟩
  · obtain rfl : k = 0 := by simp only [pl420ChromaDst] at hk; omega
    rcases pl420ChromaDst_reads he hr hx ha with h | h
    · exact ⟨_, by simp [planCvtPl420, Plan.srcFps], h⟩
    · exact ⟨(pl420ChromaSrc d.src2 d).fp, by simp [planCvtPl420, Plan.srcFps], h⟩

theorem planCvtPl420Uv_readsInSource (p : Config.Params) (d : Descriptor) (he : outW d % 2 = 0) :
    (planCvtPl420Uv p d).readsInSource := by
  intro q hq r hr x hx a ha k hk
  simp only [planCvtPl420Uv, List.mem_cons, List.not_mem_nil, or_false] at hq
  subst hq
  obtain rfl : k = 0 := by simp only [pl420ChromaDst] at hk; omega
  rcases pl420ChromaDst_reads he hr hx ha with h | h
  · exact ⟨_, by simp [planCvtPl420Uv, Plan.srcFps], h⟩
  · exact ⟨(pl420ChromaSrc d.src2 d).fp, by simp [planCvtPl420Uv, Plan.srcFps], h⟩

theorem planCopyPl444_readsInSource (p : Config.Params) (d : Descriptor) : (planCopyPl444 p d).readsInSource := by
  intro q hq r hr x hx a ha k hk
  simp only [planCopyPl444, List.mem_cons, List.not_mem_nil, or_false] at hq
  rcases hq with rfl | rfl | rfl
  all_goals
    simp only [pl444Dst, Sample.sources, List.mem_cons, List.not_mem_nil, or_false] at hr hx ha hk
    obtain rfl : k = 0 := by omega
    subst ha
  · exact ⟨(pl444Src d.src0 d.srcPitchY d).fp, by simp [planCopyPl444, Plan.srcFps],
      (Footprint.has_iff _ _).2 ⟨r, hr, x, hx, rfl⟩⟩
  · exact ⟨(pl444Src d.src1 d.srcPitchC d).fp, by simp [planCopyPl444, Plan.srcFps],
      (Footprint.has_iff _ _).2 ⟨r, hr, x, hx, rfl⟩⟩
  · exact ⟨(pl444Src d.src2 d.srcPitchC d).fp, by simp [planCopyPl444, Plan.srcFps],
      (Footprint.has_iff _ _).2 ⟨r, hr, x, hx, rfl⟩⟩

/-- Byte `k` of channel `c` of a cropped pixel lies in FS0. -/
theorem pk444_has {d : Descriptor} {c r x k : Nat} (hr : r < outH d) (hx : x < outW d) (hc : c < 3) (hk : k < 2) :
    (pk444Src d).fp.has (pk444Channel d c r x + k) = true :=
  (Footprint.has_iff _ _).2 ⟨r, hr, 6 * x + 2 * c + k, by simp only [pk444Src]; omega, by
    simp only [pk444Channel, Footprint.addr, pk444Src]; omega⟩

theorem planCvtPk444w_readsInSource (p : Config.Params) (d : Descriptor) : (planCvtPk444w p d).readsInSource := by
  intro q hq r hr x hx a ha k hk
  refine ⟨(pk444Src d).fp, by simp [planCvtPk444w, Plan.srcFps], ?_⟩
  simp only [planCvtPk444w, List.mem_cons, List.not_mem_nil, or_false] at hq
  rcases hq with rfl | rfl
  · simp only [pk444LumaDst, Sample.sources, List.mem_cons, List.not_mem_nil, or_false] at hr hx ha hk
    subst ha
    exact pk444_has hr hx (by omega) hk
  · simp only [pk444ChromaDst, Sample.sources, List.mem_cons, List.not_mem_nil, or_false] at hr hx ha hk
    rcases ha with rfl | rfl
    · exact pk444_has (by omega) (by omega) (by omega) hk
    · exact pk444_has (by omega) (by omega) (by omega) hk

theorem planCvtPk444wI_readsInSource (p : Config.Params) (d : Descriptor) (h4 : outH d % 4 = 0) :
    (planCvtPk444wI p d).readsInSource := by
  intro q hq r hr x hx a ha k hk
  refine ⟨(pk444Src d).fp, by simp [planCvtPk444wI, Plan.srcFps], ?_⟩
  simp only [planCvtPk444wI, List.mem_cons, List.not_mem_nil, or_false] at hq
  rcases hq with rfl | rfl
  · simp only [pk444LumaDst, Sample.sources, List.mem_cons, List.not_mem_nil, or_false] at hr hx ha hk
    subst ha
    exact pk444_has hr hx (by omega) hk
  · simp only [pk444ChromaDst, Sample.sources, List.mem_cons, List.not_mem_nil, or_false] at hr hx ha hk
    rcases ha with rfl | rfl
    · exact pk444_has (by unfold fieldUp; omega) (by omega) (by omega) hk
    · exact pk444_has (by unfold fieldDown; omega) (by omega) (by omega) hk

/-- R72: CHECKS passed, every operation reads only bytes of its source footprints. -/
theorem planOf_readsInSource (i : Instr) (p : Config.Params) (d : Descriptor) (h : (planOf i p d).check = none) :
    (planOf i p d).readsInSource := by
  have hpre := ((Plan.check_eq_none_iff _).1 h).1
  cases i with
  | moveC => exact movePlan_readsInSource d
  | moveNT => exact movePlan_readsInSource d
  | cvtP422 nt => exact planCvtP422_readsInSource p d
  | cvtP422I nt =>
    refine planCvtP422I_readsInSource p d ?_
    have hp : (anyOddGeometry d || decide (outH d % 4 ≠ 0)) = false :=
      hpre (_, .parity) (List.mem_cons_of_mem _ (List.mem_cons_self ..))
    simpa using (Bool.or_eq_false_iff.1 hp).2
  | cvtPl420 nt => exact
    planCvtPl420_readsInSource p d (even_out (hpre (_, .parity) (List.mem_cons_of_mem _ (List.mem_cons_self ..)))).1
  | cvtPl420Uv nt =>
    exact planCvtPl420Uv_readsInSource p d (even_out (hpre (_, .parity) (List.mem_cons_of_mem _ (List.mem_cons_self ..)))).1
  | copyPl444 nt => exact planCopyPl444_readsInSource p d
  | cvtPk444w nt => exact planCvtPk444w_readsInSource p d
  | cvtPk444wI nt =>
    refine planCvtPk444wI_readsInSource p d ?_
    have hp : (anyOddGeometry d || decide (outH d % 4 ≠ 0)) = false :=
      hpre (_, .parity) (List.mem_cons_of_mem _ (List.mem_cons_self ..))
    simpa using (Bool.or_eq_false_iff.1 hp).2

/-! ### The bytes an operation accesses (R61, R72) -/

/-- The bytes of the samples a destination plane needs. -/
def Plan.needs (p : Plan) (a : Nat) : Prop :=
  ∃ q ∈ p.dst, ∃ r < q.rows, ∃ x < q.cols, ∃ b ∈ (q.sample r x).sources, ∃ k < q.bytes, a = b + k

theorem Plan.needs_iff {p : Plan} {rd : Nat → Byte} {a : Nat} :
    p.needs a ↔ ∃ w ∈ p.byteWrites rd, a ∈ w.reads := by
  constructor
  · rintro ⟨q, hq, r, hr, x, hx, b, hb, k, hk, rfl⟩
    have hlt : x * q.bytes < q.cols * q.bytes := Nat.mul_lt_mul_of_pos_right hx (by omega)
    refine ⟨_, Plan.mem_byteWrites.2 ⟨q, hq, r, hr, x * q.bytes, hlt, rfl⟩, ?_⟩
    simp only [DstPlane.byteWrite, Nat.mul_div_cancel _ (show 0 < q.bytes by omega), List.mem_flatMap, List.mem_map,
      List.mem_range]
    exact ⟨b, hb, k, hk, rfl⟩
  · rintro ⟨w, hw, ha⟩
    obtain ⟨q, hq, r, hr, b, hb, rfl⟩ := Plan.mem_byteWrites.1 hw
    simp only [DstPlane.byteWrite, List.mem_flatMap, List.mem_map, List.mem_range] at ha
    obtain ⟨a', ha', k, hk, rfl⟩ := ha
    exact ⟨q, hq, r, hr, _, Nat.div_lt_of_lt_mul (by rwa [Nat.mul_comm]), a', ha', k, hk, rfl⟩

theorem covered_dst_iff {p : Plan} {rd : Nat → Byte} {a : Nat} :
    covered p.dstFps a ↔ ∃ w ∈ p.byteWrites rd, w.addr = a := by
  constructor
  · rintro ⟨f, hf, ha⟩
    obtain ⟨q, hq, rfl⟩ := List.mem_map.1 hf
    obtain ⟨r, hr, b, hb, rfl⟩ := (q.fp.has_iff a).1 ha
    exact ⟨_, Plan.mem_byteWrites.2 ⟨q, hq, r, hr, b, hb, rfl⟩, rfl⟩
  · rintro ⟨w, hw, rfl⟩
    exact Plan.has_of_mem_byteWrites hw


/-- R144, R202: rows `4g + i` and `4g + i + 2` pair up all rows. -/
theorem field_pairs {h r : Nat} (h4 : h % 4 = 0) (hr : r < h) : ∃ j < h / 2, r = fieldUp j ∨ r = fieldDown j :=
  ⟨2 * (r / 4) + r % 2, by omega, by unfold fieldUp fieldDown; omega⟩

theorem progressive_pairs {h r : Nat} (h2 : h % 2 = 0) (hr : r < h) : ∃ j < h / 2, r = 2 * j ∨ r = 2 * j + 1 :=
  ⟨r / 2, by omega, by omega⟩

theorem p422_needs {pl : Plan} {d : Descriptor} {up down : Nat → Nat} {g : Nat → Nat → Nat → Option Nat}
    (hl : p422LumaDst d ∈ pl.dst)
    (hc : (p422ChromaDst d fun j x => .two (p422Chroma d (up j) x) (p422Chroma d (down j) x) (g j)) ∈ pl.dst)
    (hj : ∀ r, r < outH d → ∃ j < outH d / 2, r = up j ∨ r = down j) {r b : Nat} (hr : r < outH d)
    (hb : b < 2 * outW d) : pl.needs (p422Start d + r * d.srcPitchY.toNat + b) := by
  by_cases hp : b % 2 = 0
  · exact ⟨_, hl, r, hr, b / 2, by simp only [p422LumaDst]; omega, _, List.mem_singleton.2 rfl, 0, Nat.one_pos, by
      simp only [p422Luma]; omega⟩
  · obtain ⟨j, hjh, hjr⟩ := hj r hr
    refine ⟨_, hc, j, hjh, b / 2, by simp only [p422ChromaDst]; omega, p422Chroma d r (b / 2), ?_, 0, Nat.one_pos, by
      simp only [p422Chroma]; omega⟩
    rcases hjr with rfl | rfl <;> simp [p422ChromaDst, Sample.sources]

theorem pk444_needs {pl : Plan} {p : Config.Params} {d : Descriptor} {up down : Nat → Nat}
    {g : Nat → Int → Int → Option Nat} (hl : pk444LumaDst p d ∈ pl.dst) (hc : pk444ChromaDst p d up down g ∈ pl.dst)
    (hj : ∀ r, r < outH d → ∃ j < outH d / 2, r = up j ∨ r = down j) (hw : outW d % 2 = 0) {r b : Nat}
    (hr : r < outH d) (hb : b < 6 * outW d) (hu : b % 12 < 8) :
    pl.needs (pk444Start d + r * d.srcPitchY.toNat + b) := by
  by_cases hp : b % 6 < 2
  · exact ⟨_, hl, r, hr, b / 6, by simp only [pk444LumaDst]; omega, _, List.mem_singleton.2 rfl, b % 6, hp, by
      simp only [pk444Channel]; omega⟩
  · obtain ⟨j, hjh, hjr⟩ := hj r hr
    refine ⟨_, hc, j, hjh, 2 * (b / 12) + (b % 6 / 2 - 1), by simp only [pk444ChromaDst]; omega,
      pk444Channel d (b % 6 / 2) r (2 * (b / 12)), ?_, b % 2, Nat.mod_lt b Nat.two_pos, by
        simp only [pk444Channel]; omega⟩
    rw [show pk444Channel d (b % 6 / 2) r (2 * (b / 12)) =
      pk444Channel d (1 + (2 * (b / 12) + (b % 6 / 2 - 1)) % 2) r (2 * ((2 * (b / 12) + (b % 6 / 2 - 1)) / 2)) by
        congr 1 <;> omega]
    rcases hjr with rfl | rfl <;> simp [pk444ChromaDst, Sample.sources]

/-- A byte of a PK444W operation's reads: one of the first 8 of its pair of pixels (R194). -/
theorem pk444_used {pl : Plan} {p : Config.Params} {d : Descriptor} {up down : Nat → Nat}
    {g : Nat → Int → Int → Option Nat} (hd : pl.dst = [pk444LumaDst p d, pk444ChromaDst p d up down g])
    (hj : ∀ j, j < outH d / 2 → up j < outH d ∧ down j < outH d) {a : Nat} (ha : pl.needs a) :
    ∃ r < outH d, ∃ b < 6 * outW d, a = pk444Start d + r * d.srcPitchY.toNat + b ∧ b % 12 < 8 := by
  obtain ⟨q, hq, r, hr, x, hx, s, hs, k, hk, rfl⟩ := ha
  rw [hd] at hq
  simp only [List.mem_cons, List.not_mem_nil, or_false] at hq
  rcases hq with rfl | rfl
  · simp only [pk444LumaDst, Sample.sources, List.mem_cons, List.not_mem_nil, or_false] at hr hx hs hk
    exact ⟨r, hr, 6 * x + k, by omega, by subst hs; simp only [pk444Channel]; omega, by omega⟩
  · simp only [pk444ChromaDst, Sample.sources, List.mem_cons, List.not_mem_nil, or_false] at hr hx hs hk
    have := hj r hr
    rcases hs with rfl | rfl
    · exact ⟨_, this.1, 6 * (2 * (x / 2)) + 2 * (1 + x % 2) + k, by omega, by simp only [pk444Channel]; omega, by omega⟩
    · exact ⟨_, this.2, 6 * (2 * (x / 2)) + 2 * (1 + x % 2) + k, by omega, by simp only [pk444Channel]; omega, by omega⟩

theorem pl420_needs {pl : Plan} {d : Descriptor} (hc : pl420ChromaDst d ∈ pl.dst) {f : Footprint}
    (hf : f = (pl420ChromaSrc d.src1 d).fp ∨ f = (pl420ChromaSrc d.src2 d).fp) {r b : Nat} (hr : r < f.rows)
    (hb : b < f.rowbytes) : pl.needs (f.start + r * f.pitch + b) := by
  rcases hf with rfl | rfl <;> simp only [pl420ChromaSrc] at hr hb ⊢
  · exact ⟨_, hc, r, hr, 2 * b, by simp only [pl420ChromaDst]; omega, pl420U d r b, by
      simp [pl420ChromaDst, Sample.sources], 0, Nat.one_pos, rfl⟩
  · exact ⟨_, hc, r, hr, 2 * b + 1, by simp only [pl420ChromaDst]; omega, pl420V d r b, by
      simp [pl420ChromaDst, Sample.sources, show (2 * b + 1) % 2 = 1 by omega, show (2 * b + 1) / 2 = b by omega], 0,
        Nat.one_pos, rfl⟩

/-- R72, R194: what an operation whose CHECKS pass reads is all of its source footprints, but for the channels that
R194 does not use. -/
theorem planOf_needs (i : Instr) (p : Config.Params) (d : Descriptor) (h : (planOf i p d).check = none) (a : Nat) :
    (planOf i p d).needs a ↔
      ∃ f ∈ (planOf i p d).srcFps, ∃ r, r < f.rows ∧ ∃ b, b < f.rowbytes ∧ a = f.start + r * f.pitch + b ∧
        ((∃ nt, i = .cvtPk444w nt ∨ i = .cvtPk444wI nt) → b % 12 < 8) := by
  have hpre := ((Plan.check_eq_none_iff _).1 h).1
  have inSource : (planOf i p d).needs a → (¬ ∃ nt, i = .cvtPk444w nt ∨ i = .cvtPk444wI nt) →
      ∃ f ∈ (planOf i p d).srcFps, ∃ r, r < f.rows ∧ ∃ b, b < f.rowbytes ∧ a = f.start + r * f.pitch + b ∧
        ((∃ nt, i = .cvtPk444w nt ∨ i = .cvtPk444wI nt) → b % 12 < 8) := by
    rintro ⟨q, hq, r, hr, x, hx, s, hs, k, hk, rfl⟩ hi
    obtain ⟨f, hf, ha⟩ := planOf_readsInSource i p d h q hq r hr x hx s hs k hk
    obtain ⟨r', hr', b, hb, e⟩ := (f.has_iff _).1 ha
    exact ⟨f, hf, r', hr', b, hb, e, fun hp => absurd hp hi⟩
  cases i with
  | moveC =>
    refine ⟨fun ha => inSource ha (by simp), ?_⟩
    rintro ⟨f, hf, r, hr, b, hb, rfl, -⟩
    obtain rfl : f = _ := List.mem_singleton.1 hf
    exact ⟨_, List.mem_singleton.2 rfl, r, hr, b, by simpa using hb, _, List.mem_singleton.2 rfl, 0, Nat.one_pos, by
      simp only [Nat.lt_one_iff] at hr; simp [hr]⟩
  | moveNT =>
    refine ⟨fun ha => inSource ha (by simp), ?_⟩
    rintro ⟨f, hf, r, hr, b, hb, rfl, -⟩
    obtain rfl : f = _ := List.mem_singleton.1 hf
    exact ⟨_, List.mem_singleton.2 rfl, r, hr, b, by simpa using hb, _, List.mem_singleton.2 rfl, 0, Nat.one_pos, by
      simp only [Nat.lt_one_iff] at hr; simp [hr]⟩
  | cvtP422 nt =>
    have he := even_out (hpre (_, .parity) (List.mem_cons_of_mem _ (List.mem_cons_self ..)))
    refine ⟨fun ha => inSource ha (by simp), ?_⟩
    rintro ⟨f, hf, r, hr, b, hb, rfl, -⟩
    obtain rfl : f = _ := List.mem_singleton.1 hf
    exact p422_needs (List.mem_cons_self ..) (List.mem_cons_of_mem _ (List.mem_singleton.2 rfl))
      (fun r hr => progressive_pairs he.2 hr) hr hb
  | cvtP422I nt =>
    have he : (anyOddGeometry d || decide (outH d % 4 ≠ 0)) = false :=
      hpre (_, .parity) (List.mem_cons_of_mem _ (List.mem_cons_self ..))
    simp only [Bool.or_eq_false_iff, decide_eq_false_iff_not, not_not] at he
    refine ⟨fun ha => inSource ha (by simp), ?_⟩
    rintro ⟨f, hf, r, hr, b, hb, rfl, -⟩
    obtain rfl : f = _ := List.mem_singleton.1 hf
    exact p422_needs (List.mem_cons_self ..) (List.mem_cons_of_mem _ (List.mem_singleton.2 rfl))
      (fun r hr => field_pairs he.2 hr) hr hb
  | cvtPl420 nt =>
    refine ⟨fun ha => inSource ha (by simp), ?_⟩
    rintro ⟨f, hf, r, hr, b, hb, rfl, -⟩
    rcases List.mem_cons.1 hf with rfl | hf
    · exact ⟨_, List.mem_cons_self .., r, hr, b, hb, _, List.mem_singleton.2 rfl, 0, Nat.one_pos, rfl⟩
    · exact pl420_needs (List.mem_cons_of_mem _ (List.mem_singleton.2 rfl)) (by simpa using hf) hr hb
  | cvtPl420Uv nt =>
    refine ⟨fun ha => inSource ha (by simp), ?_⟩
    rintro ⟨f, hf, r, hr, b, hb, rfl, -⟩
    exact pl420_needs (List.mem_singleton.2 rfl) (by simpa [planOf, planCvtPl420Uv, Plan.srcFps] using hf) hr hb
  | copyPl444 nt =>
    refine ⟨fun ha => inSource ha (by simp), ?_⟩
    rintro ⟨f, hf, r, hr, b, hb, rfl, -⟩
    simp only [planOf, planCopyPl444, Plan.srcFps, List.map_cons, List.map_nil, List.mem_cons, List.not_mem_nil,
      or_false] at hf
    rcases hf with rfl | rfl | rfl
    · exact ⟨_, List.mem_cons_self .., r, hr, b, hb, _, List.mem_singleton.2 rfl, 0, Nat.one_pos, rfl⟩
    · exact ⟨_, List.mem_cons_of_mem _ (List.mem_cons_self ..), r, hr, b, hb, _, List.mem_singleton.2 rfl, 0,
        Nat.one_pos, rfl⟩
    · exact ⟨_, List.mem_cons_of_mem _ (List.mem_cons_of_mem _ (List.mem_cons_self ..)), r, hr, b, hb, _,
        List.mem_singleton.2 rfl, 0, Nat.one_pos, rfl⟩
  | cvtPk444w nt =>
    have he := even_out (hpre (_, .parity) (List.mem_cons_of_mem _ (List.mem_cons_self ..)))
    constructor
    · intro ha
      obtain ⟨r, hr, b, hb, e, hu⟩ := pk444_used rfl (fun j hj => by omega) ha
      exact ⟨_, List.mem_singleton.2 rfl, r, hr, b, hb, e, fun _ => hu⟩
    · rintro ⟨f, hf, r, hr, b, hb, rfl, hu⟩
      obtain rfl : f = _ := List.mem_singleton.1 hf
      exact pk444_needs (List.mem_cons_self ..) (List.mem_cons_of_mem _ (List.mem_singleton.2 rfl))
        (fun r hr => progressive_pairs he.2 hr) he.1 hr hb (hu ⟨nt, .inl rfl⟩)
  | cvtPk444wI nt =>
    have he : (anyOddGeometry d || decide (outH d % 4 ≠ 0)) = false :=
      hpre (_, .parity) (List.mem_cons_of_mem _ (List.mem_cons_self ..))
    simp only [Bool.or_eq_false_iff, decide_eq_false_iff_not, not_not] at he
    constructor
    · intro ha
      obtain ⟨r, hr, b, hb, e, hu⟩ := pk444_used rfl (fun j hj => by unfold fieldUp fieldDown; omega) ha
      exact ⟨_, List.mem_singleton.2 rfl, r, hr, b, hb, e, fun _ => hu⟩
    · rintro ⟨f, hf, r, hr, b, hb, rfl, hu⟩
      obtain rfl : f = _ := List.mem_singleton.1 hf
      exact pk444_needs (List.mem_cons_self ..) (List.mem_cons_of_mem _ (List.mem_singleton.2 rfl))
        (fun r hr => field_pairs he.2 hr) (even_out he.1).1 hr hb (hu ⟨nt, .inr rfl⟩)

/-- R61, R72: the accesses of an operation whose CHECKS pass: the bytes it writes, and the bytes they are computed
from. -/
theorem accessed_iff {i : Instr} {p : Config.Params} {d : Descriptor} (h : (planOf i p d).check = none)
    (rd : Nat → Byte) (a : Nat) :
    accessed i p d a ↔ ∃ w ∈ (planOf i p d).byteWrites rd, w.addr = a ∨ a ∈ w.reads := by
  unfold accessed
  rw [← planOf_needs i p d h a, Plan.needs_iff (rd := rd), covered_dst_iff (rd := rd)]
  simp only [and_or_left, exists_or]

theorem admittedBy_iff {i : Instr} {p : Config.Params} {d : Descriptor} (h : (planOf i p d).check = none)
    {rs : List Region} {rd : Nat → Byte} :
    (planOf i p d).admittedBy rs rd = true ↔ ∀ a, accessed i p d a → admits rs a = true := by
  simp only [accessed_iff h rd, Plan.admittedBy, List.all_eq_true, ByteWrite.admittedBy, Bool.and_eq_true]
  exact ⟨fun k a ⟨w, hw, ha⟩ => ha.elim (· ▸ (k w hw).2) ((k w hw).1 a),
    fun k w hw => ⟨fun a ha => k a ⟨w, hw, .inr ha⟩, k _ ⟨w, hw, .inl rfl⟩⟩⟩

end Sys2Proof.Machine
end

