-- ==== Sys2Proof/Laws/Step.lean ====
section
/-! SUPPORT. Everything a step can do: one lemma per agent's turn, and what it comes to for the whole machine. -/

namespace Sys2Proof.Machine

/-- Admission asks only which addresses are accessed, not what memory holds. -/
theorem Plan.admittedBy_congr (rs : List Region) (p : Plan) (rd rd' : Nat → Byte) :
    p.admittedBy rs rd = p.admittedBy rs rd' := by
  simp only [Plan.admittedBy, Plan.byteWrites, List.all_flatMap, List.all_map]
  rfl

/-! ### Whose turn it is -/

theorem step_unitTurnNext {s : State} {u : Nat} {un : UnitState} (hu : s.units[u]? = some un) :
    step (unitTurnNext s u) = unitStep u s := by
  have : s.units ≠ [] := by rintro h; simp [h] at hu
  simp [step, unitTurnNext, this, takeTurn]

theorem step_hostTurnNext {s : State} (hs : s.units ≠ []) (st : HostStmt) (rest : List HostStmt) :
    step (hostTurnNext s st rest) = runStmt st rest (hostGoesOn s (st :: rest)) := by
  simp [step, hostTurnNext, hs, takeTurn, hostStep, hostGoesOn]

/-- A step is one agent's turn, on a state that differs in the schedule only; the platform's only if the schedule
says so. -/
theorem step_turn {s t : State} (h : step s = .next t) :
    ∃ a ts, takeTurn a { s with turns := ts } = .next t ∧ s.units ≠ [] ∧
      (a = .platformReset → s.turns.head? = some .platformReset) := by
  unfold step at h
  split at h
  · cases h
  · next hne =>
    have hs : s.units ≠ [] := by simpa using hne
    split at h
    · next ht =>
      refine ⟨defaultTurn s, [], ?_, hs, ?_⟩
      · rwa [show { s with turns := [] } = s by cases s; simp_all]
      · intro hd
        unfold defaultTurn at hd
        split at hd <;> cases hd
    · next a rest ht => exact ⟨a, rest, h, hs, by rintro rfl; simp [ht]⟩

/-! ### A unit's turn -/

/-- Everything a unit's turn can do: nothing, for a unit without a step; else a fault, or, once CHECKS pass, DONE
where every access is admitted and a standstill where one is not. -/
theorem unitStep_cases {u : Nat} {s t : State} (h : unitStep u s = .next t) :
    (t = s ∧ ∀ un, s.units[u]? = some un → un.ready = false) ∨
    ∃ un, s.units[u]? = some un ∧ un.ready = true ∧
      ((∃ c, c ≠ .noFault ∧ t = { s with cur := u }.raiseFault un c) ∨
       ∃ i, decode un.latch.cmd = .ok i ∧ (planOf i s.params un.latch).check = none ∧
         (((planOf i s.params un.latch).admittedBy s.admitted s.mem.read = true ∧
             t = { s with cur := u }.finish un
               (finalCells { s with cur := u } un (planOf i s.params un.latch))) ∨
          ((planOf i s.params un.latch).admittedBy s.admitted s.mem.read = false ∧
             t = { s with cur := u }.getStuck un
               (partialCells s.draws s.admitted s.mem un (planOf i s.params un.latch))))) := by
  unfold unitStep at h
  split at h
  · next hu => exact .inl ⟨by cases h; rfl, fun un he => by rw [hu] at he; cases he⟩
  · next un hu =>
    split at h
    · next hr =>
      refine .inr ⟨un, hu, hr, ?_⟩
      split at h
      · next i hi =>
        rw [exec_eq_runPlan] at h
        obtain ⟨un', hu', hc⟩ := runPlan_cases h
        obtain rfl : un' = un := by
          have : some un' = some un := hu'.symm.trans hu
          exact Option.some.inj this
        rcases hc with ⟨c, hc, rfl⟩ | ⟨hc, ha, rfl⟩ | ⟨hc, ha, rfl⟩
        · exact .inl ⟨c, fun e => planOf_check_ne_noFault i s.params un'.latch (e ▸ hc), rfl⟩
        · exact .inr ⟨i, hi, hc, .inl ⟨ha, rfl⟩⟩
        · exact .inr ⟨i, hi, hc, .inr ⟨ha, rfl⟩⟩
      · next e he =>
        cases h
        exact .inl ⟨_, by cases e <;> simp [causeOfDecodeError], rfl⟩
    · next hr => exact .inl ⟨by cases h; rfl, fun un' he => by rw [hu] at he; cases he; simpa using hr⟩

/-! ### The host's turn -/

theorem set_self {l : List UnitState} {u : Nat} {un : UnitState} (h : l[u]? = some un) : l.set u un = l := by
  obtain ⟨hu, rfl⟩ := List.getElem?_eq_some_iff.1 h
  exact List.set_getElem_self hu

theorem noteForeign_flags (fps gs : List Footprint) (un : UnitState) :
    ∃ f g, noteForeign fps gs un =
      { un with foreignWrites := un.foreignWrites ++ f, openReads := un.openReads ++ g } := by
  unfold noteForeign
  split
  · exact ⟨fps, gs, rfl⟩
  · exact ⟨[], [], by simp⟩

/-- Everything a store to a slot can do: nothing; a unit's live registers; CLEAR; an accepted START. -/
theorem storeSlot_cases (s : State) (u slot : Nat) (v : Word64) :
    s.storeSlot u slot v = s ∨
    ∃ un, s.units[u]? = some un ∧
      ((∃ d, s.storeSlot u slot v = s.setUnit u { un with regs := d }) ∨
       (un.busy = false ∧ slot = 0x90 / 8 ∧ s.storeSlot u slot v = s.setUnit u (clearStatus un)) ∨
       (un.busy = false ∧ slot = 0x90 / 8 ∧ v.getLsbD 0 = true ∧
         (s.storeSlot u slot v = s.beginOperation u un ∨
          s.storeSlot u slot v = s.beginOperation u (clearStatus un)))) := by
  unfold State.storeSlot
  split
  · exact .inl rfl
  · next un hu =>
    split
    · exact .inl rfl
    · next hslot =>
      have hs : slot = 0x90 / 8 := by
        unfold regOfSlot at hslot
        split at hslot <;> simp_all
      unfold State.storeCtrl
      split
      · exact .inl rfl
      · next hb =>
        have hb : un.busy = false := by simpa using hb
        by_cases h1 : v.getLsbD 1 = true <;> by_cases h0 : v.getLsbD 0 = true <;>
          simp only [h1, h0, if_true, if_false, Bool.false_eq_true]
        · exact .inr ⟨un, hu, .inr (.inr ⟨hb, hs, trivial, .inr rfl⟩)⟩
        · exact .inr ⟨un, hu, .inr (.inl ⟨hb, hs, rfl⟩)⟩
        · exact .inr ⟨un, hu, .inr (.inr ⟨hb, hs, trivial, .inl rfl⟩)⟩
        · refine .inl ?_
          simp [State.setUnit, set_self hu]
    · next r hne hslot => exact .inr ⟨un, hu, .inl ⟨_, rfl⟩⟩

/-- Everything the host's turn can do. -/
theorem hostStep_cases {s t : State} (h : hostStep s = .next t) :
    ∃ st rest, t = s ∨ (s.host.prog = st :: rest ∧
      ((∃ addr v u slot, st = .regStore addr 8 v ∧ regTarget s addr 8 = .ok (u, slot) ∧
          t = (s.storeSlot u slot v).advance rest) ∨
       (∃ v, t = (s.returned v).advance rest) ∨ t = s.advance rest ∨
       (∃ a b, t = (s.hostStore a b).advance rest) ∨
       (∃ v, t = ({ s with draws := s.draws + 1 }.returned v).advance rest))) := by
  unfold hostStep at h
  split at h
  · exact ⟨.memLoad 0, [], .inl (by cases h; rfl)⟩
  · next st rest hp =>
    refine ⟨st, rest, ?_⟩
    cases st with
    | regStore addr bytes v =>
      simp only [runStmt] at h
      split at h
      · cases h
      · next u slot ht =>
        have : bytes = 8 := by
          unfold regTarget at ht
          split at ht
          · cases ht
          · split at ht
            · next hc => exact hc.1
            · cases ht
        subst this
        exact .inr ⟨hp, .inl ⟨addr, v, u, slot, rfl, ht, by cases h; rfl⟩⟩
    | regLoad addr bytes =>
      simp only [runStmt] at h
      split at h
      · cases h
      · exact .inr ⟨hp, .inr (.inl ⟨_, by cases h; rfl⟩)⟩
    | wait addr =>
      simp only [runStmt] at h
      split at h
      · cases h
      · split at h
        · exact .inl (by cases h; rfl)
        · exact .inr ⟨hp, .inr (.inr (.inl (by cases h; rfl)))⟩
    | memStore a v => exact .inr ⟨hp, .inr (.inr (.inr (.inl ⟨a, v, by cases h; rfl⟩)))⟩
    | memLoad a => exact .inr ⟨hp, .inr (.inr (.inr (.inr ⟨_, by cases h; rfl⟩)))⟩

/-! ### Concurrent operations -/

/-- An accepted START begins the operation of the unit's live registers (R36). -/
theorem storeSlot_start {s : State} {u : Nat} {un : UnitState} {v : Word64} (hu : s.units[u]? = some un)
    (hb : un.busy = false) (h0 : v.getLsbD 0 = true) :
    ∃ un', un'.regs = un.regs ∧ un'.base = un.base ∧ s.storeSlot u (0x90 / 8) v = s.beginOperation u un' := by
  by_cases h1 : v.getLsbD 1 = true
  · exact ⟨clearStatus un, rfl, rfl, by simp only [State.storeSlot, hu, regOfSlot, State.storeCtrl, hb, h1, h0]; rfl⟩
  · exact ⟨un, rfl, rfl, by simp only [State.storeSlot, hu, regOfSlot, State.storeCtrl, hb, h1, h0]; rfl⟩

/-- A word that decodes names the operation it decodes to (R96). -/
theorem namedOperation_of_decode {w : Word32} {i : Instr} (h : decode w = .ok i) : namedOperation w = some i := by
  unfold decode at h
  split at h
  · cases h
  · next hn =>
    split at h
    · cases h
      exact hn
    · cases h

theorem passingPlan_iff {p : Config.Params} {d : Descriptor} {q : Plan} :
    passingPlan p d = some q ↔ ∃ i, decode d.cmd = .ok i ∧ (planOf i p d).check = none ∧ q = planOf i p d := by
  unfold passingPlan
  split
  · next h => simp [h]
  · next i h =>
    split
    · next c hc => simp [h, hc]
    · next hc => simp [h, hc, eq_comm]

/-- The footprints of R75's first rule: the destination of the operation a BUSY unit runs. -/
theorem mem_busyDstFps {p : Config.Params} {un : UnitState} {f : Footprint} :
    f ∈ busyDstFps p un ↔
      un.busy = true ∧ ∃ i, namedOperation un.latch.cmd = some i ∧ f ∈ (planOf i p un.latch).dstFps := by
  unfold busyDstFps
  split
  · next hb => split <;> simp [*]
  · next hb => simp [hb]

/-- The footprints of R75's other rules: the destination of an operation whose CHECKS pass. -/
theorem mem_busyWrittenFps {p : Config.Params} {un : UnitState} {f : Footprint} :
    f ∈ busyWrittenFps p un ↔ un.busy = true ∧ ∃ i, decode un.latch.cmd = .ok i ∧
      (planOf i p un.latch).check = none ∧ f ∈ (planOf i p un.latch).dstFps := by
  unfold busyWrittenFps
  split
  · next hb =>
    split
    · next h =>
      simp only [hb, true_and, List.not_mem_nil, false_iff, not_exists, not_and]
      intro i hi hc
      rw [passingPlan_iff.2 ⟨i, hi, hc, rfl⟩] at h
      cases h
    · next q h =>
      obtain ⟨i, hi, hc, rfl⟩ := passingPlan_iff.1 h
      simp [hb, hi, hc]
  · next hb => simp [hb]

/-- What another agent's START or store leaves of a unit. -/
theorem map_noteForeign_get {l : List UnitState} {u : Nat} {un : UnitState} (fps gs : List Footprint)
    (hu : l[u]? = some un) : ∃ f g, (l.map (noteForeign fps gs))[u]? =
      some { un with foreignWrites := un.foreignWrites ++ f, openReads := un.openReads ++ g } := by
  obtain ⟨f, g, h⟩ := noteForeign_flags fps gs un
  exact ⟨f, g, by rw [List.getElem?_map, hu, Option.map_some, h]⟩

/-- A store to a slot leaves of a BUSY unit all but its live registers, and adds to what it has noted. -/
theorem storeSlot_busy {s : State} {u : Nat} {un : UnitState} (hu : s.units[u]? = some un) (hb : un.busy = true)
    (v slot : Nat) (x : Word64) : ∃ d f g, (s.storeSlot v slot x).units[u]? =
      some { un with regs := d, foreignWrites := un.foreignWrites ++ f, openReads := un.openReads ++ g } := by
  have keep : s.units[u]? = some { un with regs := un.regs, foreignWrites := un.foreignWrites ++ [],
                                           openReads := un.openReads ++ [] } := by simp [hu]
  rcases storeSlot_cases s v slot x with h | ⟨vn, hv, h⟩
  · exact ⟨_, _, _, by rw [h]; exact keep⟩
  · by_cases hne : v = u
    · subst hne
      obtain rfl : vn = un := Option.some.inj (hv.symm.trans hu)
      rcases h with ⟨d, h⟩ | ⟨h, -⟩ | ⟨h, -⟩
      · refine ⟨d, [], [], ?_⟩
        rw [h, State.setUnit_units, List.getElem?_set_self (List.getElem?_eq_some_iff.1 hu).1]
        simp
      · simp [h] at hb
      · simp [h] at hb
    · rcases h with ⟨d, h⟩ | ⟨-, -, h⟩ | ⟨-, -, -, h | h⟩ <;> rw [h]
      · exact ⟨_, _, _, by rw [State.setUnit_units, List.getElem?_set_ne hne]; exact keep⟩
      · exact ⟨_, _, _, by rw [State.setUnit_units, List.getElem?_set_ne hne]; exact keep⟩
      all_goals
        simp only [State.beginOperation, List.getElem?_set_ne hne]
        obtain ⟨f, g, h⟩ := map_noteForeign_get _ _ hu
        exact ⟨_, f, g, h⟩

/-- Everything a step can do to a BUSY unit: the platform's reset; the end of its operation, at its own turn; else its
live registers may change and what it has noted of other agents may grow. -/
theorem step_busy {s t : State} {u : Nat} {un : UnitState} (h : step s = .next t) (hu : s.units[u]? = some un)
    (hb : un.busy = true) :
    (s.turns.head? = some .platformReset ∧ t.units[u]? = some (UnitState.reset un.base)) ∨
    (un.stuck = false ∧ ((∃ c, t.units[u]? = some (endInFault c un)) ∨ t.units[u]? = some (endInDone un) ∨
      t.units[u]? = some (endStuck un))) ∨
    ∃ d f g, t.units[u]? =
      some { un with regs := d, foreignWrites := un.foreignWrites ++ f, openReads := un.openReads ++ g } := by
  have keep : s.units[u]? = some { un with regs := un.regs, foreignWrites := un.foreignWrites ++ [],
                                           openReads := un.openReads ++ [] } := by simp [hu]
  have hul := (List.getElem?_eq_some_iff.1 hu).1
  obtain ⟨a, ts, ht, -, hpr⟩ := step_turn h
  cases a with
  | platformReset =>
    cases ht
    exact .inl ⟨hpr rfl, by simp [hu]⟩
  | unit v =>
    rcases unitStep_cases ht with ⟨rfl, -⟩ | ⟨vn, hv, hr, hc⟩
    · exact .inr (.inr ⟨_, _, _, keep⟩)
    · by_cases hne : v = u
      · subst hne
        obtain rfl : vn = un := Option.some.inj ((show s.units[v]? = some vn from hv).symm.trans hu)
        refine .inr (.inl ⟨by simpa [UnitState.ready, hb] using hr, ?_⟩)
        rcases hc with ⟨c, -, rfl⟩ | ⟨i, -, -, ⟨-, rfl⟩ | ⟨-, rfl⟩⟩
        · exact .inl ⟨c, List.getElem?_set_self hul⟩
        · exact .inr (.inl (List.getElem?_set_self hul))
        · exact .inr (.inr (List.getElem?_set_self hul))
      · refine .inr (.inr ⟨un.regs, [], [], ?_⟩)
        rcases hc with ⟨c, -, rfl⟩ | ⟨i, -, -, ⟨-, rfl⟩ | ⟨-, rfl⟩⟩ <;>
          exact (List.getElem?_set_ne hne).trans keep
  | host =>
    right
    right
    obtain ⟨st, rest, rfl | ⟨-, hc⟩⟩ := hostStep_cases ht
    · exact ⟨_, _, _, keep⟩
    · rcases hc with ⟨addr, v, u', slot, -, -, rfl⟩ | ⟨v, rfl⟩ | rfl | ⟨x, y, rfl⟩ | ⟨v, rfl⟩
      · exact storeSlot_busy (s := { s with turns := ts }) hu hb u' slot v
      · exact ⟨_, _, _, keep⟩
      · exact ⟨_, _, _, keep⟩
      · obtain ⟨f, g, h⟩ := map_noteForeign_get [byteFootprint x.toNat] [] hu
        exact ⟨_, f, g, h⟩
      · exact ⟨_, _, _, keep⟩

/-! ### Reset -/

theorem mem_resetCellsFrom {s : State} {c : Host.Cell} : ∀ (l : List UnitState) (k : Nat),
    c ∈ resetCellsFrom s k l → ∃ j un, l[j]? = some un ∧ c ∈ resetCells s (k + j) un
  | [], _, h => nomatch h
  | x :: l, k, h => by
    rw [resetCellsFrom] at h
    rcases List.mem_append.1 h with h | h
    · exact ⟨0, x, rfl, h⟩
    · obtain ⟨j, un, h1, h2⟩ := mem_resetCellsFrom l (k + 1) h
      exact ⟨j + 1, un, h1, by rwa [show k + (j + 1) = k + 1 + j by omega]⟩

/-- Everything a reset leaves of one unit's operation (R252): bytes of an operation with a step left whose CHECKS
pass. -/
theorem mem_resetCells {s : State} {u : Nat} {un : UnitState} {c : Host.Cell} (h : c ∈ resetCells s u un) :
    un.busy = true ∧ un.stuck = false ∧ ∃ i, decode un.latch.cmd = .ok i ∧
      (planOf i s.params un.latch).check = none ∧
      ∃ w ∈ (planOf i s.params un.latch).byteWrites s.mem.read,
        c = ByteWrite.cell (Config.freeByte (s.draws + u)) (racedAt un (planOf i s.params un.latch)) w := by
  unfold resetCells at h
  split at h
  · next hr =>
    split at h
    · cases h
    · next q hq =>
      obtain ⟨i, h1, h2, rfl⟩ := passingPlan_iff.1 hq
      obtain ⟨w, hw, rfl⟩ := List.mem_map.1 h
      simp only [UnitState.ready, Bool.and_eq_true, Bool.not_eq_true'] at hr
      exact ⟨hr.1, hr.2, i, h1, h2, w, (List.mem_filter.1 hw).1, rfl⟩
  · cases h

end Sys2Proof.Machine
end

