-- ==== Sys2Proof/Laws/Ready.lean ====
section
/-! SUPPORT. An operation that is ready (`ready`, Safety.lean) ends DONE; what each written sample reads as
afterwards. -/

namespace Sys2Proof.Machine

/-- A unit that has noted nothing of other agents is left to no race. -/
theorem unraced_of_nil {un : UnitState} (hw : un.foreignWrites = []) (hr : un.openReads = []) (p : Plan) :
    unraced un p := by
  intro f _ a _
  simp [racedAt, readsOpen, hw, hr]

/-- What noting more of other agents leaves unraced: `un'` has noted `fs` and `gs` beside what `un` has. -/
theorem unraced_append {un un' : UnitState} {fs gs : List Footprint} {p : Plan} (hu : unraced un p)
    (hw : un'.foreignWrites = un.foreignWrites ++ fs) (hr : un'.openReads = un.openReads ++ gs)
    (hf : ∀ f ∈ fs, ∀ g ∈ p.srcFps ++ p.dstFps, f.overlaps g = false)
    (hg : ∀ f ∈ gs, ∀ g ∈ p.srcFps, f.overlaps g = false) : unraced un' p := by
  intro g hgd a ha
  have h := hu g hgd a ha
  simp only [racedAt, readsOpen, hw, hr, List.any_append, Bool.or_eq_false_iff] at h ⊢
  refine ⟨⟨h.1, ?_⟩, h.2, ?_⟩
  · simp only [List.any_eq_false, Bool.or_eq_true, List.any_eq_true, not_or, not_exists, not_and,
      Bool.not_eq_true]
    refine fun f hfs => ⟨?_, fun q hq => hf f hfs q (List.mem_append_left _ hq)⟩
    rw [← Bool.not_eq_true]
    intro hfa
    have := hf f hfs g (List.mem_append_right _ hgd)
    rw [← Bool.not_eq_true, Footprint.overlaps_iff] at this
    exact this ⟨a, hfa, ha⟩
  · simp only [List.any_eq_false, List.any_eq_true, Bool.and_eq_true, not_exists, not_and]
    intro f hfs w _ _ r _ hfr q hq
    have := hg f hfs q hq
    rw [← Bool.not_eq_true, Footprint.overlaps_iff] at this
    exact fun hqr => this ⟨r, hfr, hqr⟩

/-- Footprints that meet no plane of an operation leave nothing of it to a race (R75, R234). -/
theorem unraced_of_disjoint {un : UnitState} {p : Plan}
    (hf : ∀ f ∈ un.foreignWrites, ∀ g ∈ p.srcFps ++ p.dstFps, f.overlaps g = false)
    (hg : ∀ f ∈ un.openReads, ∀ g ∈ p.srcFps, f.overlaps g = false) : unraced un p :=
  unraced_append (un := UnitState.reset 0) (unraced_of_nil rfl rfl p) rfl rfl hf hg

/-- The memory a ready operation leaves. -/
def doneMem (i : Instr) (s : State) (un : UnitState) : Memory :=
  s.mem.writeAll (finalCells s un (planOf i s.params un.latch))

theorem ready_exec {i : Instr} {s : State} {un : UnitState} (h : ready i s un) :
    exec i s = .next (afterDone s un (doneMem i s un)) := by
  obtain ⟨-, hu, hc, ha, -⟩ := h
  rw [exec_eq_runPlan, runPlan_done hu hc ha]
  rfl

theorem ready_outside {i : Instr} {s : State} {un : UnitState} (h : ready i s un) {a : Nat}
    (ha : ∀ f ∈ (planOf i s.params un.latch).dstFps, f.has a = false) :
    (doneMem i s un).read a = s.mem.read a := by
  refine writeAll_read_outside h.1 (finalCells_addr_lt h.2.2.1) (fun c hc => ?_) ha
  obtain ⟨w, hw, rfl⟩ := List.mem_map.1 hc
  exact Plan.has_of_mem_byteWrites hw

theorem ready_read {i : Instr} {s : State} {un : UnitState} (h : ready i s un) {q : DstPlane}
    (hq : q ∈ (planOf i s.params un.latch).dst) {r b : Nat} (hr : r < q.rows) (hb : b < q.cols * q.bytes) :
    (doneMem i s un).read (q.fp.addr r b) =
      (q.byteWrite s.mem.read r b).value.getD (Config.freeByte s.draws (q.fp.addr r b)) :=
  finish_read h.1 h.2.2.1 (planOf_pitchOk i _ _ h.2.2.1) hq hr hb
    (h.2.2.2.2 q.fp (List.mem_map_of_mem hq) _ ((q.fp.has_iff _).2 ⟨r, hr, b, hb, rfl⟩))

theorem byteOfLE_zero (b : Byte) : byteOfLE b.toNat 0 = b := by
  simp [byteOfLE]

theorem readLE_one (rd : Nat → Byte) (a : Nat) : readLE rd a 1 = (rd a).toNat := by
  simp [readLE]

/-- A byte sample copied from one address. -/
theorem ready_copy {i : Instr} {s : State} {un : UnitState} (h : ready i s un) {q : DstPlane}
    (hq : q ∈ (planOf i s.params un.latch).dst) (h1 : q.bytes = 1) {r x a : Nat} (hr : r < q.rows) (hx : x < q.cols)
    (hs : q.sample r x = .one a some) :
    (doneMem i s un).read (q.start + r * q.pitch + x) = s.mem.read a := by
  have := ready_read h hq hr (b := x) (by rwa [h1, Nat.mul_one])
  simpa [DstPlane.byteWrite, h1, hs, Sample.value, readLE_one, byteOfLE_zero, Footprint.addr, DstPlane.fp, Nat.mod_one]
    using this

/-- A byte sample computed from two addresses. -/
theorem ready_two {i : Instr} {s : State} {un : UnitState} (h : ready i s un) {q : DstPlane}
    (hq : q ∈ (planOf i s.params un.latch).dst) (h1 : q.bytes = 1) {r x a b : Nat} {g : Nat → Nat → Nat}
    (hr : r < q.rows) (hx : x < q.cols) (hs : q.sample r x = .two a b fun u v => some (g u v))
    (hg : g (s.mem.read a).toNat (s.mem.read b).toNat < 256) :
    ((doneMem i s un).read (q.start + r * q.pitch + x)).toNat = g (s.mem.read a).toNat (s.mem.read b).toNat := by
  have := ready_read h hq hr (b := x) (by rwa [h1, Nat.mul_one])
  have e : (doneMem i s un).read (q.start + r * q.pitch + x) =
      byteOfLE (g (s.mem.read a).toNat (s.mem.read b).toNat) 0 := by
    simpa [DstPlane.byteWrite, h1, hs, Sample.value, readLE_one, Footprint.addr, DstPlane.fp, Nat.mod_one]
      using this
  rw [e]
  simp [byteOfLE]
  omega

/-- R62: `MemRead(a, 2)`. -/
theorem readLE_two (rd : Nat → Byte) (a : Nat) : readLE rd a 2 = word16 rd a := by
  simp [readLE, word16]

/-- R191: the widening of a 16-bit value. -/
theorem widen_eq_widened (w : Widen) {v : Nat} (hv : v < 65536) : widen w v = widened w v := by
  cases w
  · simp only [widen, widened, sext16, BitVec.toInt_eq_toNat_cond, BitVec.toNat_ofNat, true_and]
    split <;> split <;> omega
  · simp only [widen, widened, zext16, BitVec.toNat_ofNat, reduceCtorEq, false_and, if_false]
    omega

theorem word16_lt (rd : Nat → Byte) (a : Nat) : word16 rd a < 65536 := by
  have := (rd a).isLt
  have := (rd (a + 1)).isLt
  simp only [word16]
  omega

/-- A 16-bit sample, little-endian, wherever its rule gives a value. -/
theorem ready_sample16 {i : Instr} {s : State} {un : UnitState} (h : ready i s un) {q : DstPlane}
    (hq : q ∈ (planOf i s.params un.latch).dst) (h2 : q.bytes = 2) {r x v : Nat} (hr : r < q.rows) (hx : x < q.cols)
    (hs : (q.sample r x).value (fun a => readLE s.mem.read a 2) = some v) (hv : v < 65536) :
    readLE (doneMem i s un).read (q.start + r * q.pitch + 2 * x) 2 = v := by
  have hb : ∀ k, k < 2 → (doneMem i s un).read (q.start + r * q.pitch + 2 * x + k) = byteOfLE v k := by
    intro k hk
    have := ready_read h hq hr (b := 2 * x + k) (by rw [h2]; omega)
    simpa [DstPlane.byteWrite, h2, show (2 * x + k) / 2 = x by omega, show (2 * x + k) % 2 = k by omega, hs,
      Footprint.addr, DstPlane.fp, Nat.add_assoc] using this
  have h0 := hb 0 (by omega)
  rw [Nat.add_zero] at h0
  simp only [readLE, h0, hb 1 (by omega), byteOfLE, BitVec.toNat_ofNat]
  omega

/-- A byte of a plane's rows, as the footprint says it. -/
theorem has_false_of_not_inRows {f : Footprint} {a : Nat} (h : ¬ inRows f.start f.pitch f.rows f.rowbytes a) :
    f.has a = false := by
  rw [← Bool.not_eq_true, Footprint.has_iff]
  rintro ⟨r, hr, b, hb, e⟩
  exact h ⟨r, hr, b, hb, e⟩

theorem has_iff_inRows (f : Footprint) (a : Nat) :
    f.has a = true ↔ inRows f.start f.pitch f.rows f.rowbytes a := by
  rw [Footprint.has_iff]
  rfl

/-! ### Bounds of the sample rules -/

theorem avgU8_lt (a b : Byte) : avgU8 a.toNat b.toNat < 256 := by
  have := a.isLt
  have := b.isLt
  simp only [avgU8, Nat.shiftRight_eq_div_pow]
  omega

theorem satU8_le (v : Int) : satU8 v ≤ 255 := by
  simp only [satU8]
  omega

theorem satU16_lt (v : Int) : satU16 v < 65536 := by
  simp only [satU16]
  omega

theorem rescale_lt {c : Config.Coef} {k : Nat} {x : Int} {v : Nat} (h : rescale c k x = some v) : v < 65536 := by
  unfold rescale at h
  simp only at h
  split at h
  · cases h
    exact satU16_lt _
  · cases h

/-- R142: the tap in one shift, the saturation never changing it. -/
theorem tapU8_eq {a b : Nat} (ha : a ≤ 255) (hb : b ≤ 255) (w : Nat × Nat) (hw : w.1 + w.2 = 4) :
    tapU8 a b w = (a * w.1 + b * w.2 + 2) >>> 2 := by
  have h1 : a * w.1 ≤ 255 * w.1 := Nat.mul_le_mul_right _ ha
  have h2 : b * w.2 ≤ 255 * w.2 := Nat.mul_le_mul_right _ hb
  have hc : (((a * w.1 + b * w.2 + 2 : Nat) : Int) >>> 2) = ((a * w.1 + b * w.2 + 2) >>> 2 : Nat) := rfl
  rw [tapU8, hc, satU8, Nat.shiftRight_eq_div_pow]
  omega

end Sys2Proof.Machine
end

