-- ==== Sys2Proof/Tests/Slice0.lean ====
section
/-! SUPPORT. The model's own tests: expected results from the spec's worked examples and 95_test_vectors.md; and a
witness for the hypotheses of every statement. -/

namespace Sys2Proof.Tests

open Sys2Proof Sys2Proof.Machine

/-! ### Small states -/

/-- The test parameters TP1 of 95_test_vectors.md. -/
def tp1 : Config.Params :=
  { coefY := { mul := 3, shift := 2, off := 16 }, coefC := { mul := 7, shift := 3, off := 512 }, widen := .sext }

/-- Memory with a byte list at an address. -/
def memOf (a : Nat) (bytes : List Nat) (m : Memory) : Memory :=
  m.writeAll (bytes.zipIdx.map fun p => (a + p.2, BitVec.ofNat 8 p.1))

/-- A unit that runs the descriptor `d`. -/
def running (d : Descriptor) : UnitState :=
  { UnitState.reset 0x40000000 with regs := d, latch := d, busy := true }

/-- An idle unit whose live registers are `d`. -/
def loaded (d : Descriptor) : UnitState :=
  { UnitState.reset 0x40000000 with regs := d }

/-- A machine with these units, this memory, all of it admitted. -/
def machine (units : List UnitState) (m : Memory) : State :=
  { State.launch tp1 [] m [{ base := 0, size := 2 ^ 64 }] [] [] with units := units }

/-- The one-unit machine that runs `d` on `m`. -/
def solo (d : Descriptor) (m : Memory) : State := machine [running d] m

/-- The `n` bytes from `a` and STATUS of the current unit, after one operation. -/
def after (i : Instr) (d : Descriptor) (m : Memory) (a n : Nat) : List Nat × List Nat :=
  match exec i (solo d m) with
  | .next t => ((List.range n).map fun k => (t.mem.read (a + k)).toNat, t.units.map statusValue)
  | .fault _ => ([], [])
  | .refused _ => ([], [])

/-- STATUS of unit 0 after its turn. -/
def statusAfterTurn (s : State) : List Nat :=
  match step (unitTurnNext s 0) with
  | .next t => t.units.map statusValue
  | .fault _ => []
  | .refused _ => []

/-- A descriptor from CMD, the three bases of MOVE. -/
def moveD (cmd : Word32) (src dst size : Word64) : Descriptor :=
  { Descriptor.reset with cmd := cmd, src0 := src, dst0 := dst, size := size }

/-! ### Well-formedness of a command statement (R99): an ill-formed one for each check -/

/-- `MOVE.NT src0=0x1000, dst0=0x2003, size=200` (R99). -/
def exampleMove : Command :=
  { op := .moveNT, args := [(.src0, 0x1000), (.dst0, 0x2003), (.size, 200)], crop := none, nt := none }

theorem test_wf_accepts_example : exampleMove.wf = true := by decide

theorem test_wf_key_missing :
    { exampleMove with args := [(.src0, 0x1000), (.dst0, 0x2003)] }.keysGiven = false ∧
    { exampleMove with args := [(.src0, 0x1000), (.dst0, 0x2003)] }.wf = false := by decide

theorem test_wf_key_not_read :
    { exampleMove with args := (.width, 8) :: exampleMove.args }.keysRead = false ∧
    { exampleMove with args := (.width, 8) :: exampleMove.args }.wf = false := by decide

theorem test_wf_key_twice :
    { exampleMove with args := (.size, 8) :: exampleMove.args }.keysOnce = false ∧
    { exampleMove with args := (.size, 8) :: exampleMove.args }.wf = false := by decide

theorem test_wf_crop_of_move :
    { exampleMove with crop := some ⟨0, 0, 0, 0⟩ }.cropOk = false ∧
    { exampleMove with crop := some ⟨0, 0, 0, 0⟩ }.wf = false := by decide

theorem test_wf_nt_of_move :
    { exampleMove with nt := some .cached }.ntOk = false ∧
    { exampleMove with nt := some .cached }.wf = false := by decide

/-- R99's example: `WR DST0, 0x2003; WR SRC0, 0x1000; WR SIZE, 200; WR CMD, 0x101; START`. -/
theorem test_expand_example :
    expand 0x40000000 exampleMove =
      some [.regStore 0x40000008 8 0x2003, .regStore 0x40000020 8 0x1000, .regStore 0x40000088 8 200,
            .regStore 0x40000000 8 0x101, .regStore 0x40000090 8 0x1] := by decide

/-- P2 of 95_test_vectors.md: the first command's stores, crops among them. -/
theorem test_expand_p2 :
    expand 0 { op := .cvtP422 .cached,
               args := [(.src0, 0x1000), (.dst0, 0x3000), (.width, 4), (.height, 2), (.srcPitchY, 8),
                        (.dstPitchY, 4), (.dstHeight, 2)],
               crop := none, nt := none } =
      some [.regStore 0x08 8 0x3000, .regStore 0x20 8 0x1000, .regStore 0x38 8 4, .regStore 0x40 8 2,
            .regStore 0x48 8 8, .regStore 0x58 8 4, .regStore 0x60 8 2, .regStore 0x68 8 0, .regStore 0x70 8 0,
            .regStore 0x78 8 0, .regStore 0x80 8 0, .regStore 0x00 8 0x10, .regStore 0x90 8 0x1] := by decide

/-- R99: a crop and a policy given. -/
theorem test_expand_crop :
    expand 0 { op := .copyPl444 .cached,
               args := [(.src0, 0x1000), (.src1, 0x1010), (.src2, 0x1020), (.dst0, 0x3000), (.dst1, 0x3002),
                        (.dst2, 0x3004), (.width, 9), (.height, 10), (.srcPitchY, 11), (.srcPitchC, 12),
                        (.dstPitchY, 13)],
               crop := some ⟨1, 2, 3, 4⟩, nt := some .nonTemporal } =
      some [.regStore 0x08 8 0x3000, .regStore 0x10 8 0x3002, .regStore 0x18 8 0x3004, .regStore 0x20 8 0x1000,
            .regStore 0x28 8 0x1010, .regStore 0x30 8 0x1020, .regStore 0x38 8 9, .regStore 0x40 8 10,
            .regStore 0x48 8 11, .regStore 0x50 8 12, .regStore 0x58 8 13, .regStore 0x68 8 1, .regStore 0x70 8 2,
            .regStore 0x78 8 3, .regStore 0x80 8 4, .regStore 0x00 8 0x130, .regStore 0x90 8 0x1] := by decide

/-! ### Decoding: words written out from R90 and R92 (RSVD, NT, OP) -/

theorem test_decode_move_c : decode 0b00000000000000000000000_0_00000001 = .ok .moveC := by decide

theorem test_decode_move_nt : decode 0b00000000000000000000000_1_00000001 = .ok .moveNT := by decide

theorem test_decode_cvt_p422 : decode 0b00000000000000000000000_1_00010000 = .ok (.cvtP422 .nonTemporal) := by decide

theorem test_decode_cvt_p422_i : decode 0b00000000000000000000000_0_00010001 = .ok (.cvtP422I .cached) := by decide

theorem test_decode_cvt_pl420 : decode 0b00000000000000000000000_0_00100000 = .ok (.cvtPl420 .cached) := by decide

theorem test_decode_cvt_pl420_uv :
    decode 0b00000000000000000000000_1_00100001 = .ok (.cvtPl420Uv .nonTemporal) := by decide

theorem test_decode_copy_pl444 : decode 0b00000000000000000000000_0_00110000 = .ok (.copyPl444 .cached) := by decide

theorem test_decode_cvt_pk444w : decode 0b00000000000000000000000_0_01000000 = .ok (.cvtPk444w .cached) := by decide

theorem test_decode_cvt_pk444w_i :
    decode 0b00000000000000000000000_1_01000001 = .ok (.cvtPk444wI .nonTemporal) := by decide

/-- R94: the neighbours of every legal OP. -/
theorem test_decode_illegal :
    [0x00, 0x02, 0x0F, 0x12, 0x1F, 0x22, 0x2F, 0x31, 0x3F, 0x42, 0xFF, 0x242].map (fun w => decode (BitVec.ofNat 32 w)) =
      List.replicate 12 (.error .illegalOpcode) := by decide

/-- R95: the lowest and the highest reserved bit. -/
theorem test_decode_reserved :
    [decode 0x00000201, decode 0x80000010, decode 0x80000141] = List.replicate 3 (.error .reservedBits) := by decide

/-- The host's two uses of a table word, on the first and the last row. -/
theorem test_decode_table_word :
    decodeTableWord 32 0x00000001 = some .moveC ∧ decodeTableWord 32 0x00000041 = some (.cvtPk444wI .cached) := by
  decide

/-! ### Arithmetic: tables A, T and H of 95_test_vectors.md -/

theorem test_avg_u8 :
    [avgU8 0 0, avgU8 0 1, avgU8 1 2, avgU8 2 1, avgU8 0 255, avgU8 254 255, avgU8 255 255, avgU8 100 103] =
      [0, 1, 2, 2, 128, 255, 255, 102] := by decide

theorem test_tap_u8 :
    [tapU8 0 0 (1, 3), tapU8 255 255 (1, 3), tapU8 255 255 (3, 1), tapU8 0 255 (1, 3), tapU8 255 0 (3, 1),
      tapU8 1 0 (1, 3), tapU8 0 1 (1, 3), tapU8 100 200 (1, 3), tapU8 100 200 (3, 1)] =
      [0, 255, 255, 191, 191, 0, 1, 175, 125] := by decide

/-- H1 to H9 under TP1. -/
theorem test_rs_y :
    [0x0000, 0x0064, 0x0001, 0x0002, 0x0003, 0xFF9C, 0x7FFF, 0x8000, 0xFFFF].map
        (fun v => rsY tp1.coefY (widen .sext v)) =
      [some 16, some 91, some 17, some 18, some 18, some 0, some 24591, some 0, some 15] ∧
    [0xFF9C, 0x8000, 0xFFFF].map (fun v => rsY tp1.coefY (widen .zext v)) =
      [some 49093, some 24592, some 49167] := by decide

/-- H10 to H20 under TP1. -/
theorem test_rs_c :
    [rsCp tp1.coefC 0 0, rsCp tp1.coefC (-1) 0, rsCp tp1.coefC 100 101, rsCp tp1.coefC (-50) (-51),
      rsCp tp1.coefC 2 0, rsCp tp1.coefC 32767 32767, rsCp tp1.coefC (-32768) (-32768),
      rsCi tp1.coefC 100 200 (1, 3), rsCi tp1.coefC 100 200 (3, 1), rsCi tp1.coefC 200 100 (3, 1),
      rsCi tp1.coefC 0 1 (1, 3), rsCi tp1.coefC 1 0 (1, 3)] =
      [some 512, some 512, some 600, some 468, some 513, some 29183, some 0, some 665, some 621, some 665,
        some 513, some 512] := by decide

/-- H21 to H28 under TP2, H29 and H30 under TP3: the shift 0, the saturation, and R199's open value. -/
theorem test_rs_edges :
    [16000, 16133, 16134, 65535].map (fun v => rsY { mul := 4, shift := 0, off := 1000 } v) =
      [some 65000, some 65532, some 65535, some 65535] ∧
    [rsCp { mul := 1, shift := 0, off := 0 } 1 2, rsCp { mul := 1, shift := 0, off := 0 } 65535 65535,
      rsCi { mul := 1, shift := 0, off := 0 } 1 2 (1, 3), rsCi { mul := 1, shift := 0, off := 0 } 1 0 (1, 3)] =
      [some 2, some 65535, some 2, some 0] ∧
    [32767, 65535].map (fun v => rsY { mul := 65536, shift := 0, off := 0 } v) = [some 65535, none] := by decide

/-! ### The operations, one step each -/

/-- M15 and M16 with 4 bytes: the destination starts where the source ends, and the reverse. -/
theorem test_move_c :
    after .moveC (moveD 0x001 0x1000 0x1004 4) (memOf 0x1000 [7, 8, 0, 9] []) 0x1000 9 =
      ([7, 8, 0, 9, 7, 8, 0, 9, 0], [2]) := by decide

theorem test_move_nt :
    after .moveNT (moveD 0x101 0x1004 0x1000 4) (memOf 0x1004 [7, 8, 0, 9] []) 0x1000 9 =
      ([7, 8, 0, 9, 7, 8, 0, 9, 0], [2]) := by decide

/-- M19: the last byte of the space is in range. -/
theorem test_move_c_top :
    after .moveC (moveD 0x001 0x1000 0xFFFFFFFFFFFFFFFE 2) (memOf 0x1000 [5, 6] []) 0xFFFFFFFFFFFFFFFE 2 =
      ([5, 6], [2]) := by decide

/-- P1v's descriptor (R147). -/
def p1v : Descriptor :=
  { Descriptor.reset with cmd := 0x10, src0 := 0x1000, dst0 := 0x3000, width := 4, height := 2, srcPitchY := 8,
                          dstPitchY := 4, dstHeight := 2 }

def p1vMem : Memory :=
  memOf 0x1000 [10, 20, 30, 40, 50, 60, 70, 80, 11, 21, 31, 41, 51, 61, 71, 81] []

theorem test_cvt_p422 :
    after (.cvtP422 .cached) p1v p1vMem 0x3000 12 =
      ([10, 30, 50, 70, 11, 31, 51, 71, 21, 41, 61, 81], [2]) := by decide

/-- P3v: the pitch padding keeps its old bytes. -/
theorem test_cvt_p422_padding :
    after (.cvtP422 .nonTemporal) { p1v with dstPitchY := 6 } (memOf 0x3000 (List.replicate 18 9) p1vMem) 0x3000 18 =
      ([10, 30, 50, 70, 9, 9, 11, 31, 51, 71, 9, 9, 21, 41, 61, 81, 9, 9], [2]) := by decide

/-- P2v's descriptor (R148). -/
def p2v : Descriptor :=
  { Descriptor.reset with cmd := 0x11, src0 := 0x1000, dst0 := 0x3000, width := 2, height := 4, srcPitchY := 4,
                          dstPitchY := 2, dstHeight := 4 }

def p2vMem : Memory :=
  memOf 0x1000 [1, 100, 2, 200, 3, 40, 4, 0, 5, 20, 6, 100, 7, 80, 8, 255] []

theorem test_cvt_p422_i :
    after (.cvtP422I .cached) p2v p2vMem 0x3000 12 = ([1, 2, 3, 4, 5, 6, 7, 8, 40, 125, 50, 64], [2]) := by decide

/-- Q1's descriptor (R163), with its crop (2, 2, 2, 0). -/
def q1 : Descriptor :=
  { Descriptor.reset with cmd := 0x20, src0 := 0x1000, src1 := 0x2000, src2 := 0x2800, dst0 := 0x3000, width := 8,
                          height := 4, srcPitchY := 8, srcPitchC := 4, dstPitchY := 4, dstHeight := 2, cropL := 2,
                          cropT := 2, cropR := 2 }

def q1Mem : Memory :=
  memOf 0x2800 [200, 201, 202, 203, 210, 211, 212, 213]
    (memOf 0x2000 [100, 101, 102, 103, 110, 111, 112, 113]
      (memOf 0x1010 [32, 33, 34, 35, 36, 37, 38, 39, 48, 49, 50, 51, 52, 53, 54, 55] []))

theorem test_cvt_pl420 :
    after (.cvtPl420 .cached) q1 q1Mem 0x3000 12 =
      ([34, 35, 36, 37, 50, 51, 52, 53, 111, 211, 112, 212], [2]) := by decide

/-- Q2's descriptor (R164), with SRC0 = 0, which is not read (Q3). -/
def q2 : Descriptor :=
  { Descriptor.reset with cmd := 0x21, src1 := 0x2000, src2 := 0x2800, dst0 := 0x3000, width := 4, height := 2,
                          srcPitchC := 2, dstPitchY := 4, dstHeight := 2 }

def q2Mem : Memory := memOf 0x2800 [3, 4] (memOf 0x2000 [1, 2] (memOf 0x3000 [9, 9, 9, 9, 9, 9, 9, 9] []))

theorem test_cvt_pl420_uv :
    after (.cvtPl420Uv .cached) q2 q2Mem 0x3000 12 = ([9, 9, 9, 9, 9, 9, 9, 9, 1, 3, 2, 4], [2]) := by decide

/-- L2's descriptor: odd geometry, crop (1, 1, 0, 1). -/
def l2 : Descriptor :=
  { Descriptor.reset with cmd := 0x30, src0 := 0x1000, src1 := 0x1010, src2 := 0x1020, dst0 := 0x3000, dst1 := 0x3002,
                          dst2 := 0x3004, width := 3, height := 3, srcPitchY := 3, srcPitchC := 3, dstPitchY := 2,
                          cropL := 1, cropT := 1, cropB := 1 }

def l2Mem : Memory :=
  memOf 0x1020 [20, 21, 22, 23, 24, 25, 26, 27, 28]
    (memOf 0x1010 [10, 11, 12, 13, 14, 15, 16, 17, 18] (memOf 0x1000 [0, 1, 2, 3, 4, 5, 6, 7, 8] []))

theorem test_copy_pl444 :
    after (.copyPl444 .cached) l2 l2Mem 0x3000 6 = ([4, 5, 14, 15, 24, 25], [2]) := by decide

/-- H-op-1's descriptor (R201). -/
def hop1 : Descriptor :=
  { Descriptor.reset with cmd := 0x40, src0 := 0x1000, dst0 := 0x3000, width := 2, height := 2, srcPitchY := 12,
                          dstPitchY := 4, dstHeight := 2 }

def hop1Mem : Memory :=
  memOf 0x1000 [0x64, 0x00, 0x64, 0x00, 0xCE, 0xFF, 0xC8, 0x00, 0x00, 0x00, 0x00, 0x00,
                0x2C, 0x01, 0x65, 0x00, 0xCD, 0xFF, 0x90, 0x01, 0x00, 0x00, 0x00, 0x00] []

theorem test_cvt_pk444w :
    after (.cvtPk444w .cached) hop1 hop1Mem 0x3000 12 =
      ([0x5B, 0x00, 0xA6, 0x00, 0xF1, 0x00, 0x3C, 0x01, 0x58, 0x02, 0xD4, 0x01], [2]) := by decide

/-- H-op-2's descriptor (R204). -/
def hop2 : Descriptor :=
  { Descriptor.reset with cmd := 0x41, src0 := 0x1000, dst0 := 0x3000, width := 2, height := 4, srcPitchY := 12,
                          dstPitchY := 4, dstHeight := 4 }

/-- Rows (10, 100, −100), (20, 40, 0), (30, 200, −200), (40, 80, −80), pixel 1 of each zero. -/
def hop2Mem : Memory :=
  memOf 0x1000 [10, 0, 100, 0, 0x9C, 0xFF, 0, 0, 0, 0, 0, 0,
                20, 0, 40, 0, 0, 0, 0, 0, 0, 0, 0, 0,
                30, 0, 200, 0, 0x38, 0xFF, 0, 0, 0, 0, 0, 0,
                40, 0, 80, 0, 0xB0, 0xFF, 0, 0, 0, 0, 0, 0] []

/-- Luma (24, 16), (31, 16), (39, 16), (46, 16); chroma 665 359 and 556 495. -/
theorem test_cvt_pk444w_i :
    after (.cvtPk444wI .cached) hop2 hop2Mem 0x3000 24 =
      ([24, 0, 16, 0, 31, 0, 16, 0, 39, 0, 16, 0, 46, 0, 16, 0,
        0x99, 0x02, 0x67, 0x01, 0x2C, 0x02, 0xEF, 0x01], [2]) := by decide

/-! ### The order of the checks, at the boundary of each (95_test_vectors.md M13 to M23, P4v, P5v, Q3, H-op-4) -/

/-- M13, M14, M17, M18, M20: STATUS. -/
theorem test_move_faults :
    (after .moveC (moveD 1 0x1000 0x1010 32) [] 0 0).2 = [0x0A04] ∧
    (after .moveC (moveD 1 0x1000 0x1000 1) [] 0 0).2 = [0x0A04] ∧
    (after .moveC (moveD 1 0 0x2000 16) [] 0 0).2 = [0x0804] ∧
    (after .moveC (moveD 1 0 0 0) [] 0 0).2 = [0x0002] ∧
    (after .moveNT (moveD 0x101 0x1000 0xFFFFFFFFFFFFFFF0 17) [] 0 0).2 = [0x0904] := by decide

/-- M21, M22, M23 and P5v: decode faults come before every other check. -/
theorem test_decode_faults :
    statusAfterTurn (solo (moveD 0x201 0x1000 0x2000 16) []) = [0x0204] ∧
    statusAfterTurn (solo (moveD 0x002 0x1000 0x2000 16) []) = [0x0104] ∧
    statusAfterTurn (solo (moveD 0x000 1 1 1) []) = [0x0104] ∧
    statusAfterTurn (solo { p1v with cmd := 0x210, width := 3, cropL := 9 } []) = [0x0204] ∧
    statusAfterTurn (solo { p1v with width := 3, cropL := 9 } []) = [0x0304] := by decide

/-- P4v. -/
theorem test_p422_faults :
    (after (.cvtP422 .cached) { p1v with width := 3 } [] 0 0).2 = [0x0404] ∧
    (after (.cvtP422 .cached) { p1v with cropL := 6 } [] 0 0).2 = [0x0304] ∧
    (after (.cvtP422 .cached) { p1v with srcPitchY := 7 } [] 0 0).2 = [0x0504] ∧
    (after (.cvtP422 .cached) { p1v with dstHeight := 1 } [] 0 0).2 = [0x0604] ∧
    (after (.cvtP422 .cached) { p1v with srcPitchY := 7, dstHeight := 1 } [] 0 0).2 = [0x0504] ∧
    (after (.cvtP422I .cached) { p1v with cmd := 0x11 } [] 0 0).2 = [0x0404] := by decide

/-- Q3. -/
theorem test_pl420_faults :
    (after (.cvtPl420 .cached) { q1 with cropL := 1 } [] 0 0).2 = [0x0404] ∧
    (after (.cvtPl420 .cached) { q1 with srcPitchC := 3 } [] 0 0).2 = [0x0504] ∧
    (after (.cvtPl420Uv .cached) { q2 with src2 := 0x2000 } [] 0 0).2 = [0x0A04] ∧
    (after (.cvtPl420Uv .cached) { q2 with src1 := 0 } [] 0 0).2 = [0x0804] := by decide

/-- R182: CROP_RANGE, PITCH of a chroma plane, two source planes at one place. -/
theorem test_pl444_faults :
    (after (.copyPl444 .cached) { l2 with cropR := 3 } [] 0 0).2 = [0x0304] ∧
    (after (.copyPl444 .cached) { l2 with srcPitchC := 2 } [] 0 0).2 = [0x0504] ∧
    (after (.copyPl444 .cached) { l2 with src1 := 0x1000 } [] 0 0).2 = [0x0A04] := by decide

/-- H-op-4. -/
theorem test_pk444w_faults :
    (after (.cvtPk444w .cached) { hop1 with src0 := 0x1001 } [] 0 0).2 = [0x0704] ∧
    (after (.cvtPk444w .cached) { hop1 with srcPitchY := 11 } [] 0 0).2 = [0x0504] ∧
    (after (.cvtPk444w .cached) { hop1 with dstPitchY := 3 } [] 0 0).2 = [0x0504] ∧
    (after (.cvtPk444w .cached) { hop1 with width := 1 } [] 0 0).2 = [0x0404] ∧
    (after (.cvtPk444w .cached) { hop1 with dstPitchY := 5 } [] 0 0).2 = [0x0704] := by decide

/-- The informative path of M7, M10 and M12 (R123). -/
theorem test_move_path :
    (headBytes 0x10003, chunkCount 0x10003 128 32, tailRem 0x10003 128 32) = (29, 3, 3) ∧
    (headBytes 0x10000, chunkCount 0x10000 128 32, tailRem 0x10000 128 32) = (0, 4, 0) ∧
    (headBytes 0x2003, chunkCount 0x2003 200 32, tailRem 0x2003 200 32) = (29, 5, 11) := by decide

/-! ### The register block, one store or load each -/

/-- Two units whose register blocks meet end to end. -/
def twoUnits : List UnitState :=
  [loaded { Descriptor.reset with cmd := 0x01 }, { loaded Descriptor.reset with base := 0x40000100 }]

/-- R31: the first and the last register of the first block, and the first of the second. -/
theorem test_register_addresses :
    (regTarget (machine twoUnits []) 0x40000000 8, regTarget (machine twoUnits []) 0x40000098 8,
      regTarget (machine twoUnits []) 0x40000100 8, regTarget (machine twoUnits []) 0x40000200 8) =
      (.ok (0, 0), .ok (0, 19), .ok (1, 0), .error .noRegisterBlock) := by decide

/-- R31: bits 63:32 of a 32-bit register's slot read 0; a 64-bit register keeps them. -/
theorem test_register_widths :
    ((machine twoUnits []).storeSlot 0 7 0xFFFFFFFF00000005).loadSlot 0 7 = 5 ∧
    ((machine twoUnits []).storeSlot 0 17 0xFFFFFFFF00000005).loadSlot 0 17 = 0xFFFFFFFF00000005 := by decide

/-- P4 of 95_test_vectors.md: STATUS after the OVERLAP fault, and after CLEAR. -/
theorem test_clear :
    let un : UnitState := { loaded Descriptor.reset with fault := true, cause := .overlap }
    (machine [un] []).loadSlot 0 19 = 0x0A04 ∧ ((machine [un] []).storeSlot 0 18 2).loadSlot 0 19 = 0 := by decide

/-! ### Witnesses: a state and operands that meet the hypotheses of each statement that has some -/

theorem witness_IllegalOpcodeFaults :
    (solo (moveD 0x002 0x1000 0x2000 16) []).units[0]? = some (running (moveD 0x002 0x1000 0x2000 16)) ∧
    (running (moveD 0x002 0x1000 0x2000 16)).busy = true ∧ (running (moveD 0x002 0x1000 0x2000 16)).stuck = false ∧
    (0x002 : Word32).toNat % 256 ∉ [0x01, 0x10, 0x11, 0x20, 0x21, 0x30, 0x40, 0x41] := by decide

theorem witness_ReservedBitsFault :
    (solo (moveD 0x201 0x1000 0x2000 16) []).units[0]? = some (running (moveD 0x201 0x1000 0x2000 16)) ∧
    (running (moveD 0x201 0x1000 0x2000 16)).busy = true ∧ (running (moveD 0x201 0x1000 0x2000 16)).stuck = false ∧
    (0x201 : Word32).toNat % 256 ∈ [0x01, 0x10, 0x11, 0x20, 0x21, 0x30, 0x40, 0x41] ∧
    (0x201 : Word32).toNat / 512 ≠ 0 := by decide

theorem witness_StepRunsDecodedCommand :
    (solo p1v p1vMem).units[0]? = some (running p1v) ∧ (running p1v).busy = true ∧ (running p1v).stuck = false ∧
    decode (running p1v).latch.cmd = .ok (.cvtP422 .cached) := by decide

theorem witness_RegisterAddressesReachTheirSlots :
    (machine twoUnits []).units[1]? = some { loaded Descriptor.reset with base := 0x40000100 } ∧
    (0x40000100 : Word64).toNat % 8 = 0 ∧ (0x40000100 : Word64).toNat + 256 ≤ 2 ^ 64 ∧
    ∀ v vn, (machine twoUnits []).units[v]? = some vn → v ≠ 1 →
      vn.base.toNat + 256 ≤ (0x40000100 : Word64).toNat ∨ (0x40000100 : Word64).toNat + 256 ≤ vn.base.toNat := by
  refine ⟨rfl, by decide, by decide, fun v vn h hne => ?_⟩
  match v, h, hne with
  | 0, h, _ =>
    obtain rfl := Option.some.inj h
    exact .inl (by decide)
  | 1, _, hne => exact absurd rfl hne
  | _ + 2, h, _ => cases h

theorem witness_StoredRegisterReadsBack :
    (machine twoUnits []).units[0]? = some (loaded { Descriptor.reset with cmd := 0x01 }) ∧
    regOfSlot 7 = some .width ∧ regOfSlot 17 = some .size ∧
    Reg.width ≠ .ctrl ∧ Reg.width ≠ .status ∧ Reg.size ≠ .ctrl ∧ Reg.size ≠ .status := by decide

theorem witness_RegisterStoreFrame :
    (solo p1v p1vMem).units[0]? = some (running p1v) ∧ regOfSlot 0 = some .cmd ∧ Reg.cmd ≠ .ctrl ∧
    Reg.cmd ≠ .status ∧ regOfSlot 19 = some .status ∧ Reg.status ≠ .cmd := by decide

/-- Four bytes; a misaligned address; the last address of the block. -/
theorem witness_UnalignedRegisterAccessRefused :
    (machine twoUnits []).units[0]? = some (loaded { Descriptor.reset with cmd := 0x01 }) ∧
    ∀ p ∈ ([(0x40000000, 4), (0x40000004, 8), (0x400000FF, 8)] : List (Word64 × Nat)),
      (0x40000000 : Word64).toNat ≤ p.1.toNat ∧ p.1.toNat < (0x40000000 : Word64).toNat + 256 ∧
      (p.2 ≠ 8 ∨ p.1.toNat % 8 ≠ 0) := by
  refine ⟨rfl, ?_⟩
  simp

/-- The second clause: CTRL and the last slot of the second block. -/
theorem witness_RegisterAddressesReachTheirSlots_access :
    regTarget (machine twoUnits []) 0x40000190 8 = .ok (1, 18) ∧
    regTarget (machine twoUnits []) 0x400001F8 8 = .ok (1, 31) := by decide

/-- STATUS, the first and the last reserved slot, CTRL. -/
theorem witness_StatusAndReservedSlots :
    19 < 32 ∧ 19 = 0x98 / 8 ∧ 20 < 32 ∧ 0xA0 / 8 ≤ 20 ∧ 31 < 32 ∧ 0xA0 / 8 ≤ 31 ∧ 18 < 32 ∧ 18 = 0x90 / 8 := by decide

theorem witness_StatusWordFields :
    (solo p1v p1vMem).units[0]? = some (running p1v) ∧ ((solo p1v p1vMem).loadSlot 0 (0x98 / 8)).getLsbD 0 = true ∧
    (machine [{ loaded p1v with fault := true, cause := .overlap }] []).loadSlot 0 (0x98 / 8) = 0x0A04 := by decide

theorem witness_CtrlStoreWhileBusyLost :
    (solo p1v p1vMem).units[0]? = some (running p1v) ∧ (running p1v).busy = true := by decide

/-- CLEAR; neither bit. -/
theorem witness_ClearAcknowledges :
    (machine [loaded p1v] []).units[0]? = some (loaded p1v) ∧ (loaded p1v).busy = false ∧
    (2 : Word64).getLsbD 0 = false ∧ (2 : Word64).getLsbD 1 = true ∧
    (4 : Word64).getLsbD 0 = false ∧ (4 : Word64).getLsbD 1 = false := by decide

/-- START; START with CLEAR; another unit beside. -/
theorem witness_StartLatchesAndBegins :
    (machine twoUnits []).units[0]? = some (loaded { Descriptor.reset with cmd := 0x01 }) ∧
    (loaded { Descriptor.reset with cmd := 0x01 }).busy = false ∧
    (1 : Word64).getLsbD 0 = true ∧ (3 : Word64).getLsbD 0 = true ∧
    (1 : Nat) ≠ 0 ∧ (machine twoUnits []).units[1]? = some { loaded Descriptor.reset with base := 0x40000100 } := by
  decide

theorem witness_MoveCCopies :
    ready .moveC (solo (moveD 0x001 0x1000 0x1004 4) (memOf 0x1000 [7, 8, 0, 9] []))
      (running (moveD 0x001 0x1000 0x1004 4)) :=
  ⟨by decide, rfl, by decide, by decide, unraced_of_nil rfl rfl _⟩

/-- The same under `ready`'s last clause with other agents' writes recorded, none of which meets the operation: the last
byte before and the first after source and destination; and a read of its destination left open, which it makes none
of. -/
theorem witness_MoveCCopies_unraced :
    let un : UnitState :=
      { running (moveD 0x001 0x1000 0x1004 4) with
        foreignWrites := [byteFootprint 0x0FFF, byteFootprint 0x1008], openReads := [byteFootprint 0x1004] }
    ready .moveC (machine [un] (memOf 0x1000 [7, 8, 0, 9] [])) un :=
  ⟨by decide, rfl, by decide, by decide, unraced_of_disjoint (by decide) (by decide)⟩

theorem witness_MoveNTCopies :
    ready .moveNT (solo (moveD 0x101 0x1004 0x1000 4) (memOf 0x1004 [7, 8, 0, 9] []))
      (running (moveD 0x101 0x1004 0x1000 4)) :=
  ⟨by decide, rfl, by decide, by decide, unraced_of_nil rfl rfl _⟩

theorem witness_CvtP422Converts : ready (.cvtP422 .cached) (solo p1v p1vMem) (running p1v) :=
  ⟨by decide, rfl, by decide, by decide, unraced_of_nil rfl rfl _⟩

theorem witness_CvtP422InterlacedConverts : ready (.cvtP422I .cached) (solo p2v p2vMem) (running p2v) :=
  ⟨by decide, rfl, by decide, by decide, unraced_of_nil rfl rfl _⟩

theorem witness_CvtPl420Converts : ready (.cvtPl420 .cached) (solo q1 q1Mem) (running q1) :=
  ⟨by decide, rfl, by decide, by decide, unraced_of_nil rfl rfl _⟩

theorem witness_CvtPl420UvConverts : ready (.cvtPl420Uv .cached) (solo q2 q2Mem) (running q2) :=
  ⟨by decide, rfl, by decide, by decide, unraced_of_nil rfl rfl _⟩

theorem witness_CopyPl444Copies : ready (.copyPl444 .cached) (solo l2 l2Mem) (running l2) :=
  ⟨by decide, rfl, by decide, by decide, unraced_of_nil rfl rfl _⟩

/-- With a sample whose value is exact, for the clauses under `rsY` and `rsCp`. -/
theorem witness_CvtPk444wConverts :
    ready (.cvtPk444w .cached) (solo hop1 hop1Mem) (running hop1) ∧
    rsY tp1.coefY (widened tp1.widen (word16 hop1Mem.read 0x1000)) = some 91 ∧
    rsCp tp1.coefC (widened tp1.widen (word16 hop1Mem.read 0x1002)) (widened tp1.widen (word16 hop1Mem.read 0x100E)) =
      some 600 :=
  ⟨⟨by decide, rfl, by decide, by decide, unraced_of_nil rfl rfl _⟩, by decide, by decide⟩

/-- With a sample whose value is exact, for the clauses under `rsCi`, in both fields. -/
theorem witness_CvtPk444wInterlacedConverts :
    ready (.cvtPk444wI .cached) (solo hop2 hop2Mem) (running hop2) ∧
    rsCi tp1.coefC (widened tp1.widen (word16 hop2Mem.read 0x1002)) (widened tp1.widen (word16 hop2Mem.read 0x101A))
      (1, 3) = some 665 ∧
    rsCi tp1.coefC (widened tp1.widen (word16 hop2Mem.read 0x100E)) (widened tp1.widen (word16 hop2Mem.read 0x1026))
      (3, 1) = some 556 :=
  ⟨⟨by decide, rfl, by decide, by decide, unraced_of_nil rfl rfl _⟩, by decide, by decide⟩

/-- The boundary of each check stands in `test_move_faults`; here no check fails. -/
theorem witness_MoveChecksInOrder :
    (Instr.moveNT = .moveC ∨ Instr.moveNT = .moveNT) ∧
    (solo (moveD 0x101 0x1000 0xFFFFFFFFFFFFFFF0 16) []).units[0]? =
      some (running (moveD 0x101 0x1000 0xFFFFFFFFFFFFFFF0 16)) := by decide

theorem witness_P422ChecksInOrder :
    (Instr.cvtP422I .cached = .cvtP422 .cached ∨ Instr.cvtP422I .cached = .cvtP422I .cached) ∧
    (solo { p1v with cmd := 0x11 } []).units[0]? = some (running { p1v with cmd := 0x11 }) := by decide

theorem witness_Pl420ChecksInOrder :
    (solo { q1 with cropL := 1 } []).units[0]? = some (running { q1 with cropL := 1 }) := by decide

theorem witness_Pl444ChecksInOrder :
    (solo { l2 with srcPitchC := 2 } []).units[0]? = some (running { l2 with srcPitchC := 2 }) := by decide

theorem witness_Pk444wChecksInOrder :
    (Instr.cvtPk444w .cached = .cvtPk444w .cached ∨ Instr.cvtPk444w .cached = .cvtPk444wI .cached) ∧
    (solo { hop1 with src0 := 0x1001 } []).units[0]? = some (running { hop1 with src0 := 0x1001 }) := by decide

/-- A machine whose memory admits the source of P1v but no destination byte at or above 0x3004. -/
def refusing : State :=
  { solo p1v p1vMem with admitted := [{ base := 0x1000, size := 16 }, { base := 0x3000, size := 4 }] }

/-- DONE, a fault, a refused access. -/
theorem witness_OperationEndsOneOfThreeWays :
    (solo p1v p1vMem).units[0]? = some (running p1v) ∧ (∃ t, exec (.cvtP422 .cached) (solo p1v p1vMem) = .next t) ∧
    (∃ t, exec .moveC (solo (moveD 1 0x1000 0x1000 1) []) = .next t) ∧
    refusing.units[0]? = some (running p1v) ∧ ∃ t, exec (.cvtP422 .cached) refusing = .next t :=
  ⟨rfl, ⟨_, rfl⟩, ⟨_, rfl⟩, rfl, ⟨_, rfl⟩⟩

/-- The byte after the chroma plane. -/
theorem witness_OnlyDestinationBytesChange :
    (solo p1v p1vMem).mem.wf = true ∧ (solo p1v p1vMem).units[0]? = some (running p1v) ∧
    (∃ t, exec (.cvtP422 .cached) (solo p1v p1vMem) = .next t) ∧
    ∀ f ∈ (planOf (.cvtP422 .cached) tp1 p1v).dstFps, f.has 0x300C = false :=
  ⟨by decide, rfl, ⟨_, rfl⟩, by decide⟩

/-- MOVE.C with another DST1, WIDTH and CMD in the latch. -/
theorem witness_UnlistedRegistersIgnored :
    let d := moveD 0x001 0x1000 0x1004 4
    let e : Descriptor := { d with dst1 := 5, width := 7, cmd := 0xFFFFFFFF }
    (solo d []).units[0]? = some (running d) ∧
    (∀ r ∈ registersRead .moveC, { running d with regs := e }.load r = { running d with regs := d }.load r) ∧
    ∃ t, exec .moveC (solo d []) = .next t :=
  ⟨rfl, by decide, ⟨_, rfl⟩⟩

/-- SIZE = 0; out_w = 0; out_h = 0. -/
theorem witness_ZeroSizeMakesNoAccess :
    (planOf .moveC tp1 (moveD 1 0 0 0)).check = none ∧ (moveD 1 0 0 0).size = 0 ∧
    (solo (moveD 1 0 0 0) []).units[0]? = some (running (moveD 1 0 0 0)) ∧
    (planOf (.cvtP422 .cached) tp1 { p1v with cropL := 4 }).check = none ∧ croppedWidth { p1v with cropL := 4 } = 0 ∧
    (planOf (.cvtP422 .cached) tp1 { p1v with cropB := 2 }).check = none ∧ croppedHeight { p1v with cropB := 2 } = 0 := by
  decide

/-- P1v with a refused destination byte, and with its last source byte refused. -/
theorem witness_RefusedAccessLeavesBusy :
    let srcRefused : State := { refusing with admitted := [{ base := 0x1000, size := 15 }, { base := 0x3000, size := 12 }] }
    refusing.mem.wf = true ∧ refusing.units[refusing.cur]? = some (running p1v) ∧
    (planOf (.cvtP422 .cached) tp1 p1v).check = none ∧
    (accessed (.cvtP422 .cached) tp1 p1v 0x3004 ∧ admits refusing.admitted 0x3004 = false) ∧
    accessed (.cvtP422 .cached) tp1 p1v 0x100F ∧ admits srcRefused.admitted 0x100F = false :=
  have hc : (planOf (.cvtP422 .cached) tp1 p1v).check = none := by decide
  ⟨by decide, rfl, hc, ⟨(accessed_iff hc p1vMem.read _).2 (by decide), by decide⟩,
    (accessed_iff hc p1vMem.read _).2 (by decide), by decide⟩

/-- The second clause: exactly the bytes of P1v's footprints are admitted; and H-op-1 with bytes 8 to 11 of its pair of
pixels refused in both rows, where byte 7 is one it accesses. -/
theorem witness_RefusedAccessLeavesBusy_admitted :
    let whole : List Region := [{ base := 0x1000, size := 16 }, { base := 0x3000, size := 12 }]
    let used : List Region := [{ base := 0x1000, size := 8 }, { base := 0x100C, size := 8 }, { base := 0x3000, size := 12 }]
    (∀ a, accessed (.cvtP422 .cached) tp1 p1v a → admits whole a = true) ∧
    (planOf (.cvtPk444w .cached) tp1 hop1).check = none ∧ accessed (.cvtPk444w .cached) tp1 hop1 0x1007 ∧
    ∀ a, accessed (.cvtPk444w .cached) tp1 hop1 a → admits used a = true :=
  have hc : (planOf (.cvtPk444w .cached) tp1 hop1).check = none := by decide
  ⟨(admittedBy_iff (by decide) (rd := p1vMem.read)).1 (by decide), hc,
    (accessed_iff hc hop1Mem.read _).2 (by decide), (admittedBy_iff hc (rd := hop1Mem.read)).1 (by decide)⟩

/-- A machine whose unit 0 is stuck and whose host waits on its STATUS, at 0x40000098. -/
def waiting : State :=
  { machine [{ running p1v with stuck := true }] [] with host := { prog := [.wait 0x40000098], loads := [] } }

/-- An idle unit; a stuck one; a BUSY one with a WAIT; a step of a host at a WAIT on a stuck unit. -/
theorem witness_UnitsWithoutAStep :
    (machine [loaded p1v] []).units[0]? = some (loaded p1v) ∧ (loaded p1v).busy = false ∧
    waiting.units[0]? = some { running p1v with stuck := true } ∧ (running p1v).busy = true ∧
    regTarget waiting 0x40000098 8 = .ok (0, 19) ∧ regOfSlot 19 = some .status ∧
    (∃ t, step waiting = .next t) ∧ waiting.turns.head? ≠ some .platformReset ∧
    waiting.host.prog = [.wait 0x40000098] :=
  ⟨rfl, rfl, rfl, rfl, by decide, by decide, ⟨_, rfl⟩, by decide, rfl⟩

theorem witness_UvWritesTheSameChroma :
    ready (.cvtPl420 .cached) (solo q1 q1Mem) (running q1) ∧
    ready (.cvtPl420Uv .nonTemporal) (solo q1 q1Mem) (running q1) :=
  ⟨⟨by decide, rfl, by decide, by decide, unraced_of_nil rfl rfl _⟩, by decide, rfl, by decide, by decide, unraced_of_nil rfl rfl _⟩

/-- The descriptor of the full frame of `d`, written to 0x4000. -/
def fullFrame (d : Descriptor) (pitch height : Word32) : Descriptor :=
  { d with cropL := 0, cropT := 0, cropR := 0, cropB := 0, dst0 := 0x4000, dstPitchY := pitch, dstHeight := height }

/-- P422: a 4 × 4 frame cropped to its lower right quarter, and the whole of it. -/
theorem witness_CropCommutesWithConversion :
    let d : Descriptor := { p1v with height := 4, cropL := 2, cropT := 2 }
    let full := fullFrame d 4 4
    ready (.cvtP422 .cached) (solo d p1vMem) (running d) ∧
    ready (.cvtP422 .cached) (relatch (solo d p1vMem) 0 full) { running d with latch := full } :=
  ⟨⟨by decide, rfl, by decide, by decide, unraced_of_nil rfl rfl _⟩, by decide, rfl, by decide, by decide, unraced_of_nil rfl rfl _⟩

/-- PL420: X2 of 95_test_vectors.md. -/
theorem witness_CropCommutesWithConversion_pl420 :
    ready (.cvtPl420 .cached) (solo q1 q1Mem) (running q1) ∧
    ready (.cvtPl420 .cached) (relatch (solo q1 q1Mem) 0 (fullFrame q1 8 4))
      { running q1 with latch := fullFrame q1 8 4 } :=
  ⟨⟨by decide, rfl, by decide, by decide, unraced_of_nil rfl rfl _⟩, by decide, rfl, by decide, by decide, unraced_of_nil rfl rfl _⟩

/-- X3 of 95_test_vectors.md: a 4 × 4 frame with H-op-1's pixels in its lower right quarter. -/
def x3 : Descriptor :=
  { hop1 with width := 4, height := 4, srcPitchY := 24, cropL := 2, cropT := 2 }

def x3Mem : Memory :=
  memOf 0x1054 [0x2C, 0x01, 0x65, 0x00, 0xCD, 0xFF, 0x90, 0x01, 0x00, 0x00, 0x00, 0x00]
    (memOf 0x103C [0x64, 0x00, 0x64, 0x00, 0xCE, 0xFF, 0xC8, 0x00, 0x00, 0x00, 0x00, 0x00] [])

/-- PK444W: X3, with a luma sample and a chroma pair in the range of R199. -/
theorem witness_CropCommutesWithConversion_pk444w :
    ready (.cvtPk444w .cached) (solo x3 x3Mem) (running x3) ∧
    ready (.cvtPk444w .cached) (relatch (solo x3 x3Mem) 0 (fullFrame x3 8 4))
      { running x3 with latch := fullFrame x3 8 4 } ∧
    intermediatesFit tp1.coefY tp1.coefY.shift.val (widened tp1.widen (word16 x3Mem.read 0x103C)) ∧
    intermediatesFit tp1.coefC (tp1.coefC.shift.val + 1)
      (widened tp1.widen (word16 x3Mem.read 0x103E) + widened tp1.widen (word16 x3Mem.read 0x1056)) := by
  refine ⟨⟨by decide, rfl, by decide, by decide, unraced_of_nil rfl rfl _⟩,
    ⟨by decide, rfl, by decide, by decide, unraced_of_nil rfl rfl _⟩, ?_, ?_⟩
  · unfold intermediatesFit
    decide
  · unfold intermediatesFit
    decide

/-- A DONE operation, and its writes in the other order. -/
theorem witness_AnyOrderLeavesTheSameMemory :
    ready (.cvtP422 .cached) (solo p1v p1vMem) (running p1v) ∧
    ∀ w, w ∈ ((planOf (.cvtP422 .cached) tp1 p1v).byteWrites p1vMem.read).reverse ↔
      w ∈ (planOf (.cvtP422 .cached) tp1 p1v).byteWrites p1vMem.read :=
  ⟨⟨by decide, rfl, by decide, by decide, unraced_of_nil rfl rfl _⟩, fun _ => List.mem_reverse⟩

/-- M12: head 29, five chunks of 32 bytes, a 32-byte tail over the last 11. -/
theorem witness_MovePiecesLeaveTheSameMemory :
    Memory.wf [] = true ∧ 0 < 32 ∧ headBytes 0x2003 ≤ 29 ∧ 29 ≤ 200 ∧ tailRem 0x2003 200 32 ≤ 32 ∧ 32 ≤ 200 ∧
    0x2003 + 200 ≤ 2 ^ 64 ∧ (0x1000 + 200 ≤ 0x2003 ∨ 0x2003 + 200 ≤ 0x1000) := by decide

theorem witness_AverageAndTapsOfBytes : 0 ≤ 255 ∧ 255 ≤ 255 := by decide

/-- H29 fits, H30 does not (TP3); the chroma clauses under TP1, in range and out of it. -/
theorem witness_RescalesAreExactInRange :
    intermediatesFit { mul := 65536, shift := 0, off := 0 } 0 32767 ∧
    ¬ intermediatesFit { mul := 65536, shift := 0, off := 0 } 0 65535 ∧
    intermediatesFit tp1.coefC 4 (100 + 101) ∧ ¬ intermediatesFit tp1.coefC 4 (2 ^ 30 + 2 ^ 30) ∧
    intermediatesFit tp1.coefC 5 (100 * 1 + 200 * 3) ∧ ¬ intermediatesFit tp1.coefC 5 (2 ^ 30 * 1 + 2 ^ 30 * 3) := by
  unfold intermediatesFit
  decide

/-- The widest triple of R7 is taken; one past it on each side is refused. -/
theorem witness_BadConfigurationsRefused :
    (∃ c, Config.Coef.ofInts (-2 ^ 31) 29 (2 ^ 31 - 1) = some c) ∧
    Config.Coef.ofInts (-2 ^ 31 - 1) 0 0 = none ∧ Config.Coef.ofInts 0 30 0 = none ∧
    Config.Coef.ofInts 0 (-1) 0 = none ∧ Config.Coef.ofInts 0 0 (2 ^ 31) = none :=
  ⟨⟨_, rfl⟩, by decide, by decide, by decide, by decide⟩

/-- The last byte of P1v's destination, and the first after it; the first byte of it where CHECKS will fail, for an odd
WIDTH and for RSVD = 1; and an odd HEIGHT's chroma row 0. -/
theorem witness_HostLoadsOfBusyDestinations :
    let dst := fun d => (planOf (.cvtP422 .cached) tp1 d).dstFps
    (solo p1v p1vMem).units ≠ [] ∧ (solo p1v p1vMem).units[0]? = some (running p1v) ∧ (running p1v).busy = true ∧
    namedOperation p1v.cmd = some (.cvtP422 .cached) ∧ covered (dst p1v) (0x300B : Word64).toNat ∧
    ¬ covered (dst p1v) (0x300C : Word64).toNat ∧
    (planOf (.cvtP422 .cached) tp1 { p1v with width := 3 }).check = some .parity ∧
    covered (dst { p1v with width := 3 }) (0x3000 : Word64).toNat ∧
    decode 0x210 = .error .reservedBits ∧ namedOperation 0x210 = some (.cvtP422 .cached) ∧
    covered (dst { p1v with cmd := 0x210 }) (0x3000 : Word64).toNat := by
  unfold covered
  decide

/-- R75, R37: a BUSY unit with RSVD = 1 leaves its destination open, which OP names; one with an illegal OP names none. -/
theorem test_busy_dst_reserved :
    (solo { p1v with cmd := 0x210 } []).busyDst 0x300B = true ∧ (solo { p1v with cmd := 0x210 } []).busyDst 0x300C = false ∧
    (solo { p1v with cmd := 0x002 } []).busyDst 0x3000 = false := by decide

/-- The last byte of P1v's source, the first of its destination, and the first byte after it; and the end of the operation
after the store, which finds the unit as the store left it. -/
theorem witness_HostStoreRacesWithOperation :
    let p := planOf (.cvtP422 .cached) tp1 p1v
    let later : UnitState := { running p1v with foreignWrites := [byteFootprint 0x100F] }
    (solo p1v p1vMem).mem.wf = true ∧ (solo p1v p1vMem).units ≠ [] ∧
    (solo p1v p1vMem).units[0]? = some (running p1v) ∧ (running p1v).busy = true ∧
    namedOperation p1v.cmd = some (.cvtP422 .cached) ∧ covered p.srcFps (0x100F : Word64).toNat ∧
    covered p.dstFps (0x3000 : Word64).toNat ∧ ¬ covered (p.srcFps ++ p.dstFps) (0x300C : Word64).toNat ∧
    unraced (running p1v) p ∧
    later.runsOn later ∧ p.check = none ∧ p.admittedBy (machine [later] p1vMem).admitted p1vMem.read = true :=
  ⟨by decide, by decide, rfl, rfl, by decide, by unfold covered; decide, by unfold covered; decide,
    by unfold covered; decide, unraced_of_nil rfl rfl _,
    ⟨rfl, rfl, rfl, List.prefix_rfl, List.prefix_rfl⟩, by decide, by decide⟩

/-- P1v runs on unit 1, which has noted an unrelated store, while a MOVE of the same source bytes starts on unit 0. -/
theorem witness_OperationsRaceWhereTheyMeet :
    let mv := moveD 0x001 0x1000 0x5000 16
    let vn : UnitState := { running p1v with foreignWrites := [byteFootprint 0x6000] }
    let s := machine [loaded mv, vn] p1vMem
    s.units[0]? = some (loaded mv) ∧ (loaded mv).busy = false ∧ namedOperation mv.cmd = some .moveC ∧
    (1 : Word64).getLsbD 0 = true ∧
    (∀ (v : Nat) (wn : UnitState) (k : Instr), s.units[v]? = some wn → wn.busy = true →
      namedOperation wn.latch.cmd = some k → raceFree (planOf .moveC s.params mv) (planOf k s.params wn.latch) = true) ∧
    s.units[1]? = some vn ∧ vn.busy = true ∧ namedOperation vn.latch.cmd = some (.cvtP422 .cached) ∧
    unraced vn (planOf (.cvtP422 .cached) s.params vn.latch) := by
  refine ⟨rfl, rfl, by decide, by decide, fun v wn k h hb hk => ?_, rfl, rfl, by decide,
    unraced_of_disjoint (by decide) (by decide)⟩
  match v, h with
  | 0, h =>
    obtain rfl := Option.some.inj h
    cases hb
  | 1, h =>
    obtain rfl := Option.some.inj h
    obtain rfl : Instr.cvtP422 .cached = k := Option.some.inj ((show namedOperation p1v.cmd = _ by decide).symm.trans hk)
    decide
  | _ + 2, h => cases h

/-- The racing clauses, beside P1v: a MOVE into P1v's last source byte; one from P1v's last destination byte; one into
it; and two whose CHECKS fail (source and destination the same; RSVD = 1) with P1v's source in their destination. -/
theorem witness_OperationsRaceWhereTheyMeet_racing :
    let q := planOf (.cvtP422 .cached) tp1 p1v
    let mv := fun src dst => moveD 0x001 src dst 1
    let p := fun src dst => planOf .moveC tp1 (mv src dst)
    checksPass (.cvtP422 .cached) tp1 p1v ∧
    (checksPass .moveC tp1 (mv 0x5000 0x100F) ∧ covered (p 0x5000 0x100F).dstFps 0x100F ∧ covered q.srcFps 0x100F) ∧
    (checksPass .moveC tp1 (mv 0x300B 0x5000) ∧ covered q.dstFps 0x300B ∧ covered (p 0x300B 0x5000).srcFps 0x300B) ∧
    (checksPass .moveC tp1 (mv 0x5000 0x300B) ∧ covered (p 0x5000 0x300B).dstFps 0x300B ∧ covered q.dstFps 0x300B) ∧
    (p 0x1000 0x1000).check = some .overlap ∧ decode 0x201 = .error .reservedBits ∧
    namedOperation 0x201 = some .moveC ∧
    ∃ w ∈ q.byteWrites p1vMem.read, w.addr = 0x3000 ∧ ∃ r ∈ w.reads, covered (p 0x1000 0x1000).dstFps r := by
  unfold covered checksPass
  decide

/-- The end of a raced operation: P1v, and later the same unit with a store to its destination's second byte noted, which
is left to the race, its first not; and a step that leaves a BUSY unit BUSY. -/
theorem witness_OperationsRaceWhereTheyMeet_done :
    let later : UnitState := { running p1v with foreignWrites := [byteFootprint 0x3001] }
    let s := machine [later] p1vMem
    let p := planOf (.cvtP422 .cached) tp1 p1v
    s.mem.wf = true ∧ s.units[0]? = some later ∧ s.units[s.cur]? = some later ∧
    (running p1v).runsOn later ∧ p.check = none ∧ p.admittedBy s.admitted p1vMem.read = true ∧
    (∀ a, accessed (.cvtP422 .cached) tp1 p1v a → admits s.admitted a = true) ∧
    (∃ w ∈ p.byteWrites s.mem.read, w.addr = 0x3001 ∧ racedAt later p w.addr = true) ∧
    (∃ w ∈ p.byteWrites s.mem.read, w.addr = 0x3000 ∧ racedAt later p w.addr = false ∧ w.value = some 10) ∧
    step waiting = .next waiting ∧ waiting.units[0]? = some { running p1v with stuck := true } :=
  ⟨by decide, rfl, rfl, ⟨rfl, rfl, rfl, List.nil_prefix, List.nil_prefix⟩, by decide, by decide,
    (admittedBy_iff (by decide) (rd := p1vMem.read)).1 (by decide), by decide, by decide, rfl, rfl⟩

/-- A BUSY unit and an idle one. -/
theorem witness_WaitEndsWhenIdle :
    (solo p1v []).units[0]? = some (running p1v) ∧ regTarget (solo p1v []) 0x40000098 8 = .ok (0, 19) ∧
    (machine [loaded p1v] []).units[0]? = some (loaded p1v) ∧
    regTarget (machine [loaded p1v] []) 0x40000098 8 = .ok (0, 19) ∧ regOfSlot 19 = some .status := by decide

theorem witness_PlatformResetState :
    (machine twoUnits p1vMem).units ≠ [] ∧ ∀ un ∈ (machine twoUnits p1vMem).units, un.busy = false := by decide

/-- P1v, which has noted an unrelated store, beside P1v with an odd WIDTH, whose CHECKS fail. -/
theorem witness_ResetWhileBusyLeavesOldOrFinal :
    let un : UnitState := { running p1v with foreignWrites := [byteFootprint 0x6000] }
    let s := machine [un, running { p1v with width := 3 }] p1vMem
    s.mem.wf = true ∧ s.units ≠ [] ∧
    ∀ (u : Nat) (vn : UnitState) (i : Instr), s.units[u]? = some vn → vn.busy = true → decode vn.latch.cmd = .ok i →
      (planOf i s.params vn.latch).check = none → unraced vn (planOf i s.params vn.latch) := by
  refine ⟨by decide, by decide, fun u vn i h _ hd hc => ?_⟩
  match u, h with
  | 0, h =>
    obtain rfl := Option.some.inj h
    obtain rfl : Instr.cvtP422 .cached = i := Except.ok.inj ((show decode p1v.cmd = _ by decide).symm.trans hd)
    exact unraced_of_disjoint (by decide) (by decide)
  | 1, h =>
    obtain rfl := Option.some.inj h
    obtain rfl : Instr.cvtP422 .cached = i := Except.ok.inj ((show decode p1v.cmd = _ by decide).symm.trans hd)
    exact absurd hc (by decide)
  | _ + 2, h => cases h

/-- The second clause: a BUSY unit whose CHECKS fail, and one whose CMD names no operation. -/
theorem witness_ResetWhileBusyLeavesOldOrFinal_failing :
    let s := machine [running { p1v with width := 3 }, running (moveD 0x002 0x1000 0x2000 16)] p1vMem
    ∀ (u : Nat) (vn : UnitState) (i : Instr), s.units[u]? = some vn → vn.busy = true → decode vn.latch.cmd = .ok i →
      (planOf i s.params vn.latch).check ≠ none := by
  intro s u vn i h _ hd
  match u, h with
  | 0, h =>
    obtain rfl := Option.some.inj h
    obtain rfl : Instr.cvtP422 .cached = i := Except.ok.inj ((show decode p1v.cmd = _ by decide).symm.trans hd)
    decide
  | 1, h =>
    obtain rfl := Option.some.inj h
    exact absurd ((show decode 0x002 = .error .illegalOpcode by decide).symm.trans hd) (by simp)
  | _ + 2, h => cases h

/-- The host at `START` of unit 0, the unit idle. -/
def startNext : State :=
  { machine [loaded p1v] p1vMem with host := { prog := [.regStore 0x40000090 8 1], loads := [] } }

theorem witness_OnlyStartLeavesIdle :
    ∃ t un', step startNext = .next t ∧ startNext.units[0]? = some (loaded p1v) ∧ t.units[0]? = some un' ∧
      (loaded p1v).busy = false ∧ un'.busy = true :=
  ⟨_, _, rfl, rfl, rfl, rfl, rfl⟩

theorem witness_FaultRecordOnlyGrows :
    (∃ t, step startNext = .next t) ∧ startNext.turns.head? ≠ some .platformReset :=
  ⟨⟨_, rfl⟩, by decide⟩

theorem witness_StepKeepsTheInvariant :
    State.reset.Inv ∧ ∃ t, step State.reset = .next t := by
  refine ⟨⟨by decide, fun u un h => ?_⟩, ⟨_, rfl⟩⟩
  match u, h with
  | 0, h =>
    obtain rfl := Option.some.inj h
    unfold UnitState.flagsOk recordedOk
    decide
  | _ + 1, h => cases h

theorem witness_LaunchMeetsTheInvariant : p1vMem.wf = true := by decide

theorem witness_ConfigurationNeverChanges : ∃ t, step startNext = .next t := ⟨_, rfl⟩

/-- Each refusal: no unit; 4 bytes; a misaligned address; a block at an odd base; the address after the last block. -/
theorem witness_StepStopsOnlyOnRefusals :
    step (machine [] []) = .refused .badConfig ∧
    step (hostTurnNext (machine twoUnits []) (.regLoad 0x40000000 4) []) = .refused .registerAccess ∧
    step (hostTurnNext (machine twoUnits []) (.wait 0x4000009C) []) = .refused .registerAccess ∧
    step (hostTurnNext (machine [{ loaded p1v with base := 0x40000001 }] []) (.regStore 0x40000008 8 0) []) =
      .refused .registerAccess ∧
    step (hostTurnNext (machine twoUnits []) (.regLoad 0x40000200 8) []) = .refused .noRegisterBlock :=
  ⟨rfl, rfl, rfl, rfl, rfl⟩

/-- Two units with a step at once; and one whose access is refused. -/
theorem witness_EveryReadyUnitEnds :
    let s := machine [running p1v, running hop1] p1vMem
    s.turns = [] ∧ s.units ≠ [] ∧ readyCount s = 2 ∧ s.units[1]? = some (running hop1) ∧
    (running hop1).busy = true ∧ (running hop1).stuck = false ∧
    refusing.turns = [] ∧ refusing.units ≠ [] ∧ refusing.units[0]? = some (running p1v) := by decide

theorem witness_FetchWordRunsNext :
    State.reset.units ≠ [] ∧ decodeTableWord 32 0x00000141 = some (.cvtPk444wI .nonTemporal) :=
  ⟨by unfold State.reset State.launch; simp, by decide⟩

/-- A statement the assembler accepts, with and without a crop, and one it does not. -/
theorem witness_CommandStatementExpands :
    let cropped : Command :=
      { op := .cvtPl420Uv .cached,
        args := [(.src1, 0x2000), (.src2, 0x2800), (.dst0, 0x3000), (.width, 4), (.height, 2), (.srcPitchC, 2),
                 (.dstPitchY, 4), (.dstHeight, 2)],
        crop := some ⟨2, 0, 0, 0⟩, nt := some .nonTemporal }
    exampleMove.wf = true ∧ exampleMove.op = .moveNT ∧ exampleMove.crop = none ∧
    Reg.size ∈ registersRead exampleMove.op ∧ Reg.size ∉ [Reg.cropL, .cropT, .cropR, .cropB] ∧
    cropped.wf = true ∧ { exampleMove with nt := some .cached }.wf = false := by decide

theorem witness_RunOverIsFinal :
    (machine twoUnits []).units ≠ [] ∧ (machine twoUnits []).turns = [] ∧ (machine twoUnits []).runOver = true := by
  decide

end Sys2Proof.Tests
end

section
/-! SUPPORT. Proofs about the configuration (00_scope.md): which configurations are refused, that a step keeps the
configuration it runs in, and what a step is refused for. -/

namespace Sys2Proof.Machine

/-! ### Rescale triples (R7) -/

theorem coef_ofInts_eq_none_iff (mul shift off : Int) :
    Config.Coef.ofInts mul shift off = none ↔
      ¬ (-2 ^ 31 ≤ mul ∧ mul ≤ 2 ^ 31 - 1 ∧ 0 ≤ shift ∧ shift ≤ 29 ∧ -2 ^ 31 ≤ off ∧ off ≤ 2 ^ 31 - 1) := by
  rw [Config.Coef.ofInts, dite_eq_right_iff]
  constructor
  · rintro h ⟨hm, hm', hs, hs', ho, ho'⟩
    exact absurd (h (by omega)) (Option.some_ne_none _)
  · intro h hin
    omega

/-- An accepted triple is the triple given: each part reads back as its integer. -/
theorem coef_ofInts_eq_some {mul shift off : Int} {c : Config.Coef} (h : Config.Coef.ofInts mul shift off = some c) :
    c.mul.toInt = mul ∧ (c.shift.val : Int) = shift ∧ c.off.toInt = off := by
  rw [Config.Coef.ofInts, Option.dite_none_right_eq_some] at h
  obtain ⟨⟨⟨hm, hm'⟩, ⟨hs, _⟩, ho, ho'⟩, hc⟩ := h
  obtain rfl := Option.some.inj hc
  exact ⟨BitVec.toInt_ofInt_eq_self (by decide) hm hm', Int.toNat_of_nonneg hs,
    BitVec.toInt_ofInt_eq_self (by decide) ho ho'⟩

theorem step_of_no_units {s : State} (hs : s.units = []) : step s = .refused .badConfig := by
  simp [step, hs]

/-- Settles O43: the two cases of `Coef.ofInts`, and a step's first check. -/
theorem badConfigurationsRefused : Obligations.BadConfigurationsRefused := by
  unfold Obligations.BadConfigurationsRefused
  exact ⟨fun mul shift off => ⟨coef_ofInts_eq_none_iff mul shift off, fun _ => coef_ofInts_eq_some⟩,
    fun _ => step_of_no_units rfl⟩

/-! ### What every step keeps of the configuration (R7, R41, R61) -/

/-- `t` has the configuration of `s`: the parameters, the admitted set, and the units' number and places. -/
def State.SameConfig (s t : State) : Prop :=
  t.params = s.params ∧ t.admitted = s.admitted ∧ t.units.map UnitState.base = s.units.map UnitState.base

theorem State.SameConfig.refl (s : State) : s.SameConfig s := ⟨rfl, rfl, rfl⟩

@[simp] theorem noteForeign_base (fps gs : List Footprint) (un : UnitState) :
    (noteForeign fps gs un).base = un.base := by
  rw [noteForeign_eq]

theorem map_base_noteForeign (fps gs : List Footprint) (l : List UnitState) :
    (l.map (noteForeign fps gs)).map UnitState.base = l.map UnitState.base := by
  simp

/-- A unit replaced by one at its own place leaves the list of places as it was. -/
theorem map_base_set {l : List UnitState} {u : Nat} {un un' : UnitState} (hu : l[u]? = some un)
    (hb : un'.base = un.base) : (l.set u un').map UnitState.base = l.map UnitState.base := by
  rw [List.map_set, hb, ← List.map_set, set_self hu]

theorem setUnit_sameConfig {s : State} {u : Nat} {un un' : UnitState} (hu : s.units[u]? = some un)
    (hb : un'.base = un.base) : s.SameConfig (s.setUnit u un') :=
  ⟨rfl, rfl, map_base_set hu hb⟩

theorem beginOperation_sameConfig {s : State} {u : Nat} {un un' : UnitState} (hu : s.units[u]? = some un)
    (hb : un'.base = un.base) : s.SameConfig (s.beginOperation u un') := by
  refine ⟨rfl, rfl, ?_⟩
  obtain ⟨f, g, hn⟩ := map_noteForeign_get _ _ hu
  exact (map_base_set hn (by simpa [beginBusy] using hb)).trans (map_base_noteForeign _ _ _)

theorem storeSlot_sameConfig (s : State) (u slot : Nat) (v : Word64) : s.SameConfig (s.storeSlot u slot v) := by
  rcases storeSlot_cases s u slot v with h | ⟨un, hu, ⟨d, h⟩ | ⟨-, -, h⟩ | ⟨-, -, -, h | h⟩⟩ <;> rw [h]
  · exact .refl s
  · exact setUnit_sameConfig hu rfl
  · exact setUnit_sameConfig hu rfl
  · exact beginOperation_sameConfig hu rfl
  · exact beginOperation_sameConfig hu rfl

theorem hostStep_sameConfig {s t : State} (h : hostStep s = .next t) : s.SameConfig t := by
  obtain ⟨st, rest, rfl | ⟨-, hc⟩⟩ := hostStep_cases h
  · exact .refl _
  · rcases hc with ⟨addr, v, u, slot, -, -, rfl⟩ | ⟨v, rfl⟩ | rfl | ⟨a, b, rfl⟩ | ⟨v, rfl⟩
    · exact storeSlot_sameConfig s u slot v
    · exact .refl s
    · exact .refl s
    · exact ⟨rfl, rfl, map_base_noteForeign _ _ _⟩
    · exact .refl s

theorem unitStep_sameConfig {u : Nat} {s t : State} (h : unitStep u s = .next t) : s.SameConfig t := by
  rcases unitStep_cases h with ⟨rfl, -⟩ | ⟨un, hu, -, ⟨c, -, rfl⟩ | ⟨i, -, -, ⟨-, rfl⟩ | ⟨-, rfl⟩⟩⟩
  · exact .refl _
  · exact ⟨rfl, rfl, map_base_set hu (endInFault_base un c)⟩
  · exact ⟨rfl, rfl, map_base_set hu (endInDone_base un)⟩
  · exact ⟨rfl, rfl, map_base_set hu (endStuck_base un)⟩

theorem platformReset_sameConfig (s : State) : s.SameConfig s.platformReset :=
  ⟨rfl, rfl, by simp [UnitState.reset]⟩

theorem takeTurn_sameConfig {a : Agent} {s t : State} (h : takeTurn a s = .next t) : s.SameConfig t := by
  cases a with
  | host => exact hostStep_sameConfig h
  | unit u => exact unitStep_sameConfig h
  | platformReset =>
    cases h
    exact platformReset_sameConfig s

/-- Settles O55: a step is one agent's turn, and each agent's turn keeps the configuration. -/
theorem configurationNeverChanges : Obligations.ConfigurationNeverChanges := by
  unfold Obligations.ConfigurationNeverChanges
  intro s t h
  obtain ⟨a, ts, ht, -⟩ := step_turn h
  exact takeTurn_sameConfig (s := { s with turns := ts }) ht

/-! ### Where a register access goes, and why it is refused (R31, R32) -/

theorem inBlock_iff {base addr : Word64} :
    inBlock base addr = true ↔ base.toNat ≤ addr.toNat ∧ addr.toNat < base.toNat + 256 := by
  simp [inBlock]

theorem not_inBlock_iff {base addr : Word64} :
    inBlock base addr = false ↔ addr.toNat < base.toNat ∨ base.toNat + 256 ≤ addr.toNat := by
  rw [← Bool.not_eq_true, inBlock_iff]
  omega

theorem blockOf_eq_some {units : List UnitState} {addr : Word64} {u off : Nat}
    (h : blockOf units addr = some (u, off)) :
    ∃ un, units[u]? = some un ∧ inBlock un.base addr = true ∧ off = addr.toNat - un.base.toNat := by
  unfold blockOf at h
  split at h
  · cases h
  · next v hv =>
    have hin := List.of_findIdx?_eq_some hv
    split at h
    · cases h
    · next un hu =>
      cases h
      exact ⟨un, hu, by simpa [hu] using hin, rfl⟩

theorem blockOf_eq_none {units : List UnitState} {addr : Word64} (h : blockOf units addr = none) :
    ∀ un ∈ units, inBlock un.base addr = false := by
  unfold blockOf at h
  split at h
  · next hn => exact List.findIdx?_eq_none_iff.1 hn
  · next v hv =>
    have hin := List.of_findIdx?_eq_some hv
    split at h
    · next hu => simp [hu] at hin
    · cases h

/-- Why a register access of `bytes` bytes at `addr` is refused (R32, log 18). -/
def RefusedAccess (units : List UnitState) (addr : Word64) (bytes : Nat) (r : Refusal) : Prop :=
  (r = .registerAccess ∧ ∃ un ∈ units,
      un.base.toNat ≤ addr.toNat ∧ addr.toNat < un.base.toNat + 256 ∧
      (bytes ≠ 8 ∨ addr.toNat % 8 ≠ 0 ∨ un.base.toNat % 8 ≠ 0)) ∨
  (r = .noRegisterBlock ∧ ∀ un ∈ units, addr.toNat < un.base.toNat ∨ un.base.toNat + 256 ≤ addr.toNat)

theorem regTarget_eq_error {s : State} {addr : Word64} {bytes : Nat} {r : Refusal}
    (h : regTarget s addr bytes = .error r) : RefusedAccess s.units addr bytes r := by
  unfold regTarget at h
  split at h
  · next hb =>
    cases h
    exact .inr ⟨rfl, fun un hm => not_inBlock_iff.1 (blockOf_eq_none hb un hm)⟩
  · next u off hb =>
    obtain ⟨un, hu, hin, rfl⟩ := blockOf_eq_some hb
    obtain ⟨hlo, hhi⟩ := inBlock_iff.1 hin
    split at h
    · cases h
    · next hbad =>
      cases h
      exact .inl ⟨rfl, un, List.mem_of_getElem? hu, hlo, hhi, by omega⟩

/-! ### How a turn can stop -/

/-- A host statement goes on, or it is a register access that goes nowhere. -/
theorem runStmt_next_or_refused (st : HostStmt) (rest : List HostStmt) (s : State) :
    (∃ t, runStmt st rest s = .next t) ∨
    ∃ r addr bytes, runStmt st rest s = .refused r ∧ registerAccessOf st = some (addr, bytes) ∧
      regTarget s addr bytes = .error r := by
  cases st with
  | regStore addr bytes v =>
    cases h : regTarget s addr bytes with
    | error r => exact .inr ⟨r, addr, bytes, by simp [runStmt, h], rfl, h⟩
    | ok p => exact .inl (by simp [runStmt, h])
  | regLoad addr bytes =>
    cases h : regTarget s addr bytes with
    | error r => exact .inr ⟨r, addr, bytes, by simp [runStmt, h], rfl, h⟩
    | ok p => exact .inl (by simp [runStmt, h])
  | wait addr =>
    cases h : regTarget s addr 8 with
    | error r => exact .inr ⟨r, addr, 8, by simp [runStmt, h], rfl, h⟩
    | ok p =>
      left
      simp only [runStmt, h]
      split <;> exact ⟨_, rfl⟩
  | memStore a v => exact .inl ⟨_, rfl⟩
  | memLoad a => exact .inl ⟨_, rfl⟩

/-- An operation of a unit that exists has a next state, whichever way it ends (R221, R224, R61). -/
theorem runPlan_next (plan : Config.Params → Descriptor → Plan) {s : State} {un : UnitState}
    (hu : s.units[s.cur]? = some un) : ∃ t, runPlan plan s = .next t := by
  cases hc : (plan s.params un.latch).check with
  | some c => exact ⟨_, runPlan_fault hu hc⟩
  | none =>
    cases ha : (plan s.params un.latch).admittedBy s.admitted s.mem.read with
    | true => exact ⟨_, runPlan_done hu hc ha⟩
    | false => exact ⟨_, runPlan_stuck hu hc ha⟩

theorem unitStep_next (u : Nat) (s : State) : ∃ t, unitStep u s = .next t := by
  unfold unitStep
  split
  · exact ⟨_, rfl⟩
  · next un hu =>
    split
    · split
      · next i _ =>
        rw [exec_eq_runPlan]
        exact runPlan_next (planOf i) (s := { s with cur := u }) hu
      · exact ⟨_, rfl⟩
    · exact ⟨_, rfl⟩

/-- A turn goes on, or it is the host's and its next statement is a register access that goes nowhere. -/
theorem takeTurn_next_or_refused (a : Agent) (s : State) :
    (∃ t, takeTurn a s = .next t) ∨
    ∃ r st rest addr bytes, takeTurn a s = .refused r ∧ s.host.prog = st :: rest ∧
      registerAccessOf st = some (addr, bytes) ∧ regTarget s addr bytes = .error r := by
  cases a with
  | unit u => exact .inl (unitStep_next u s)
  | platformReset => exact .inl ⟨_, rfl⟩
  | host =>
    cases hp : s.host.prog with
    | nil => exact .inl ⟨s, by simp [takeTurn, hostStep, hp]⟩
    | cons st rest =>
      have hrun : takeTurn .host s = runStmt st rest s := by simp [takeTurn, hostStep, hp]
      rw [hrun]
      rcases runStmt_next_or_refused st rest s with hn | ⟨r, addr, bytes, hr, hacc, ht⟩
      · exact .inl hn
      · exact .inr ⟨r, st, rest, addr, bytes, hr, rfl, hacc, ht⟩

/-- A step of a configuration with units is a turn, on a state that differs in the schedule only. -/
theorem step_eq_takeTurn {s : State} (hs : s.units ≠ []) :
    ∃ a ts, step s = takeTurn a { s with turns := ts } := by
  cases ht : s.turns with
  | nil => exact ⟨defaultTurn s, s.turns, show step s = takeTurn (defaultTurn s) s by simp [step, hs, ht]⟩
  | cons a rest => exact ⟨a, rest, by simp [step, hs, ht]⟩

/-- Everything a step can come to: a next state, or a refusal: of a configuration without units, or of a register access
that is the host's next statement. -/
theorem step_next_or_refused (s : State) :
    (∃ t, step s = .next t) ∨ (step s = .refused .badConfig ∧ s.units = []) ∨
    ∃ r st rest addr bytes, step s = .refused r ∧ s.host.prog = st :: rest ∧
      registerAccessOf st = some (addr, bytes) ∧ RefusedAccess s.units addr bytes r := by
  by_cases hs : s.units = []
  · exact .inr (.inl ⟨step_of_no_units hs, hs⟩)
  · obtain ⟨a, ts, hstep⟩ := step_eq_takeTurn hs
    rw [hstep]
    rcases takeTurn_next_or_refused a { s with turns := ts } with hn | ⟨r, st, rest, addr, bytes, hr, hp, hacc, ht⟩
    · exact .inl hn
    · exact .inr (.inr ⟨r, st, rest, addr, bytes, hr, hp, hacc, regTarget_eq_error ht⟩)

/-- Settles O56: a step's outcomes are those of `step_next_or_refused`, none of them a fault. -/
theorem stepStopsOnlyOnRefusals : Obligations.StepStopsOnlyOnRefusals := by
  unfold Obligations.StepStopsOnlyOnRefusals
  intro s
  rcases step_next_or_refused s with ⟨t, h⟩ | ⟨h, hs⟩ | ⟨r, st, rest, addr, bytes, h, hp, hacc, href⟩ <;> rw [h]
  · exact ⟨nofun, nofun⟩
  · refine ⟨nofun, fun r hr => ?_⟩
    cases hr
    exact .inl ⟨rfl, hs⟩
  · refine ⟨nofun, fun r' hr => ?_⟩
    cases hr
    exact .inr ⟨st, rest, addr, bytes, hp, hacc, href⟩

end Sys2Proof.Machine
end

section
/-! SUPPORT. Proofs about the state of the units (10_state.md): the invariant of R33, R38, R223 and R225 is kept by
every step. -/

namespace Sys2Proof.Machine

/-! ### The flags of one unit (R33, R38, R223) -/

theorem flagsOk_of_ready {un : UnitState} (h : un.flagsOk) (hr : un.ready = true) :
    un.busy = true ∧ un.stuck = false ∧ un.done = false ∧ un.fault = false ∧ un.cause = .noFault := by
  obtain ⟨hbd, hbf, -, hcause, -, -⟩ := h
  simp only [UnitState.ready, Bool.and_eq_true, Bool.not_eq_true'] at hr
  obtain ⟨hb, hs⟩ := hr
  simp_all

theorem flagsOk_of_idle {un : UnitState} (h : un.flagsOk) (hb : un.busy = false) :
    un.vdirty = false ∧ un.stuck = false := by
  obtain ⟨-, -, -, -, hv, hs⟩ := h
  simp_all

theorem endInFault_flagsOk {un : UnitState} (h : un.flagsOk) (hr : un.ready = true) {c : Cause} (hc : c ≠ .noFault) :
    (endInFault c un).flagsOk := by
  obtain ⟨-, hs, hd, -, -⟩ := flagsOk_of_ready h hr
  simp [UnitState.flagsOk, endInFault, hs, hd, hc]

theorem endInDone_flagsOk {un : UnitState} (h : un.flagsOk) (hr : un.ready = true) : (endInDone un).flagsOk := by
  obtain ⟨-, hs, -, hf, hc⟩ := flagsOk_of_ready h hr
  simp [UnitState.flagsOk, endInDone, hs, hf, hc]

theorem endStuck_flagsOk {un : UnitState} (h : un.flagsOk) (hr : un.ready = true) : (endStuck un).flagsOk := by
  obtain ⟨hb, -, hd, hf, hc⟩ := flagsOk_of_ready h hr
  simp [UnitState.flagsOk, endStuck, hb, hd, hf, hc]

theorem clearStatus_flagsOk {un : UnitState} (h : un.flagsOk) (hb : un.busy = false) : (clearStatus un).flagsOk := by
  obtain ⟨hv, hs⟩ := flagsOk_of_idle h hb
  simp [UnitState.flagsOk, clearStatus, hb, hv, hs]

theorem beginBusy_flagsOk (v : Bool) (fs gs : List Footprint) (un : UnitState) : (beginBusy v fs gs un).flagsOk := by
  simp [UnitState.flagsOk, beginBusy]

theorem reset_flagsOk (base : Word64) : (UnitState.reset base).flagsOk := by
  simp [UnitState.flagsOk, UnitState.reset]

/-! ### One unit against the fault record (R225) -/

theorem recordedOk_mono {r r' : List FaultEntry} {u : Nat} {un : UnitState} (h : recordedOk r u un) (hr : r ⊆ r') :
    recordedOk r' u un :=
  ⟨fun hf => hr (h.1 hf), fun hs => hr (h.2 hs)⟩

theorem recordedOk_of_clean {r : List FaultEntry} {u : Nat} {un : UnitState} (hf : un.fault = false)
    (hs : un.stuck = false) : recordedOk r u un := by
  simp [recordedOk, hf, hs]

/-- What the invariant asks of unit `u`, `un`, beside the fault record. -/
def UnitState.okIn (record : List FaultEntry) (u : Nat) (un : UnitState) : Prop :=
  un.flagsOk ∧ recordedOk record u un

theorem clearStatus_okIn {r : List FaultEntry} {u : Nat} {un : UnitState} (h : un.okIn r u) (hb : un.busy = false) :
    (clearStatus un).okIn r u :=
  ⟨clearStatus_flagsOk h.1 hb, recordedOk_of_clean rfl (flagsOk_of_idle h.1 hb).2⟩

theorem beginBusy_okIn (r : List FaultEntry) (u : Nat) (v : Bool) (fs gs : List Footprint) (un : UnitState) :
    (beginBusy v fs gs un).okIn r u :=
  ⟨beginBusy_flagsOk v fs gs un, recordedOk_of_clean rfl rfl⟩

theorem reset_okIn (r : List FaultEntry) (u : Nat) (base : Word64) : (UnitState.reset base).okIn r u :=
  ⟨reset_flagsOk base, recordedOk_of_clean rfl rfl⟩

theorem noteForeign_okIn {r : List FaultEntry} {u : Nat} {un : UnitState} (h : un.okIn r u) (fs gs : List Footprint) :
    (noteForeign fs gs un).okIn r u := by
  rw [noteForeign_eq]
  exact h

/-! ### The invariant of the machine -/

/-- One unit changes, memory stays canonical, and the record loses nothing. -/
theorem inv_of_set {s t : State} {u : Nat} {un' : UnitState} (h : s.Inv) (hm : t.mem.wf = true)
    (hr : s.record ⊆ t.record) (hu : t.units = s.units.set u un') (hok : un'.okIn t.record u) : t.Inv := by
  refine ⟨hm, fun v vn hv => ?_⟩
  rw [hu, List.getElem?_set] at hv
  split at hv
  · next huv =>
    split at hv
    · cases hv
      exact huv ▸ hok
    · cases hv
  · exact ⟨(h.2 v vn hv).1, recordedOk_mono (h.2 v vn hv).2 hr⟩

/-- Every unit is told of another agent's access. -/
theorem map_noteForeign_inv {s : State} (h : s.Inv) (fs gs : List Footprint) :
    State.Inv { s with units := s.units.map (noteForeign fs gs) } := by
  refine ⟨h.1, fun v vn hv => ?_⟩
  obtain ⟨wn, hw, rfl⟩ := Option.map_eq_some_iff.1 (List.getElem?_map ▸ hv)
  exact noteForeign_okIn (h.2 v wn hw) fs gs

theorem setUnit_inv {s : State} {u : Nat} {un' : UnitState} (h : s.Inv) (hok : un'.okIn s.record u) :
    (s.setUnit u un').Inv :=
  inv_of_set h h.1 (List.Subset.refl _) rfl hok

theorem beginOperation_inv {s : State} (h : s.Inv) (u : Nat) (un : UnitState) : (s.beginOperation u un).Inv :=
  inv_of_set (map_noteForeign_inv h _ _) h.1 (List.Subset.refl _) rfl (beginBusy_okIn _ u _ _ _ un)

theorem storeSlot_inv {s : State} (h : s.Inv) (u slot : Nat) (v : Word64) : (s.storeSlot u slot v).Inv := by
  rcases storeSlot_cases s u slot v with hs | ⟨un, hu, ⟨d, hs⟩ | ⟨hb, -, hs⟩ | ⟨-, -, -, hs | hs⟩⟩ <;> rw [hs]
  · exact h
  · exact setUnit_inv h (h.2 u un hu)
  · exact setUnit_inv h (clearStatus_okIn (h.2 u un hu) hb)
  · exact beginOperation_inv h u un
  · exact beginOperation_inv h u (clearStatus un)

theorem hostStore_inv {s : State} (h : s.Inv) (a : Word64) (b : Byte) : (s.hostStore a b).Inv :=
  ⟨Memory.wf_write h.1 a.isLt b, (map_noteForeign_inv h _ _).2⟩

theorem hostStep_inv {s t : State} (h : s.Inv) (ht : hostStep s = .next t) : t.Inv := by
  obtain ⟨st, rest, rfl | ⟨-, hc⟩⟩ := hostStep_cases ht
  · exact h
  · rcases hc with ⟨addr, v, u, slot, -, -, rfl⟩ | ⟨v, rfl⟩ | rfl | ⟨a, b, rfl⟩ | ⟨v, rfl⟩
    · exact storeSlot_inv h u slot v
    · exact h
    · exact h
    · exact hostStore_inv h a b
    · exact h

theorem raiseFault_inv {s : State} (h : s.Inv) {un : UnitState} (hu : s.units[s.cur]? = some un)
    (hr : un.ready = true) {c : Cause} (hc : c ≠ .noFault) : (s.raiseFault un c).Inv := by
  obtain ⟨hflags, -⟩ := h.2 s.cur un hu
  refine inv_of_set h h.1 (List.subset_append_left _ _) rfl ⟨endInFault_flagsOk hflags hr hc, ?_⟩
  obtain ⟨-, hs, -⟩ := flagsOk_of_ready hflags hr
  simp [recordedOk, endInFault, hs]

theorem finish_inv {s : State} (h : s.Inv) {un : UnitState} (hu : s.units[s.cur]? = some un) (hr : un.ready = true)
    {cells : List Host.Cell} (hc : ∀ c ∈ cells, c.1 < Config.spaceBytes) : (s.finish un cells).Inv := by
  obtain ⟨hflags, -⟩ := h.2 s.cur un hu
  obtain ⟨-, hs, -, hf, -⟩ := flagsOk_of_ready hflags hr
  exact inv_of_set h (Memory.wf_writeAll h.1 hc) (List.Subset.refl _) rfl
    ⟨endInDone_flagsOk hflags hr, recordedOk_of_clean hf hs⟩

theorem getStuck_inv {s : State} (h : s.Inv) {un : UnitState} (hu : s.units[s.cur]? = some un) (hr : un.ready = true)
    {cells : List Host.Cell} (hc : ∀ c ∈ cells, c.1 < Config.spaceBytes) : (s.getStuck un cells).Inv := by
  obtain ⟨hflags, -⟩ := h.2 s.cur un hu
  refine inv_of_set h (Memory.wf_writeAll h.1 hc) (List.subset_append_left _ _) rfl ⟨endStuck_flagsOk hflags hr, ?_⟩
  obtain ⟨-, -, -, hf, -⟩ := flagsOk_of_ready hflags hr
  simp [recordedOk, endStuck, hf]

theorem unitStep_inv {u : Nat} {s t : State} (h : s.Inv) (ht : unitStep u s = .next t) : t.Inv := by
  have hcur : { s with cur := u }.Inv := h
  rcases unitStep_cases ht with ⟨rfl, -⟩ | ⟨un, hu, hr, ⟨c, hc, rfl⟩ | ⟨i, -, hc, ⟨-, rfl⟩ | ⟨-, rfl⟩⟩⟩
  · exact h
  · exact raiseFault_inv hcur hu hr hc
  · exact finish_inv hcur hu hr (finalCells_addr_lt hc)
  · exact getStuck_inv hcur hu hr (partialCells_addr_lt hc)

/-- R252: what a reset leaves of a BUSY operation lies in the data space, since its CHECKS passed. -/
theorem resetCellsFrom_addr_lt (s : State) : ∀ c ∈ resetCellsFrom s 0 s.units, c.1 < Config.spaceBytes := by
  intro c hc
  obtain ⟨j, un, -, hj⟩ := mem_resetCellsFrom _ _ hc
  obtain ⟨-, -, i, -, hcheck, w, hw, rfl⟩ := mem_resetCells hj
  exact Plan.addr_lt_of_mem_byteWrites hcheck hw

theorem platformReset_inv {s : State} (h : s.Inv) : s.platformReset.Inv := by
  refine ⟨Memory.wf_writeAll h.1 (resetCellsFrom_addr_lt s), fun u un hu => ?_⟩
  obtain ⟨vn, -, rfl⟩ := Option.map_eq_some_iff.1 (List.getElem?_map ▸ hu)
  exact reset_okIn _ u vn.base

theorem takeTurn_inv {a : Agent} {s t : State} (h : s.Inv) (ht : takeTurn a s = .next t) : t.Inv := by
  cases a with
  | host => exact hostStep_inv h ht
  | unit u => exact unitStep_inv h ht
  | platformReset =>
    cases ht
    exact platformReset_inv h

/-- Settles O53: a step is one agent's turn, and each agent's turn keeps the invariant. -/
theorem stepKeepsTheInvariant : Obligations.StepKeepsTheInvariant := by
  unfold Obligations.StepKeepsTheInvariant
  intro s t h hst
  obtain ⟨a, ts, ht, -⟩ := step_turn hst
  exact takeTurn_inv (s := { s with turns := ts }) h ht

end Sys2Proof.Machine
end

section
/-! SUPPORT. Proofs about the register block (10_state.md R31, R32, R34, R36): what a store to a slot does and a load of
one returns, which slot a host address reaches, and CTRL and STATUS. -/

namespace Sys2Proof.Machine

/-! ### What a slot's store does and its load returns -/

section Slots
variable {s : State} {u slot : Nat} {un : UnitState} {r : Reg}

theorem loadSlot_eq (hu : s.units[u]? = some un) (hr : regOfSlot slot = some r) : s.loadSlot u slot = un.load r := by
  simp [State.loadSlot, hu, hr]

theorem storeSlot_eq (hu : s.units[u]? = some un) (hr : regOfSlot slot = some r) (hc : r ≠ .ctrl) (v : Word64) :
    s.storeSlot u slot v = s.setUnit u { un with regs := un.regs.store r v } := by
  simp only [State.storeSlot, hu, hr]

theorem storeSlot_ctrl (hu : s.units[u]? = some un) (v : Word64) :
    s.storeSlot u (0x90 / 8) v = s.storeCtrl u un v := by
  simp [State.storeSlot, hu, regOfSlot]

theorem regOfSlot_reserved (h : 0xA0 / 8 ≤ slot) : regOfSlot slot = none := by
  obtain ⟨k, rfl⟩ := Nat.exists_eq_add_of_le' h
  rfl

theorem storeSlot_none (hr : regOfSlot slot = none) (v : Word64) : s.storeSlot u slot v = s := by
  simp only [State.storeSlot, hr]
  split <;> rfl

theorem loadSlot_none (hr : regOfSlot slot = none) : s.loadSlot u slot = 0 := by
  simp only [State.loadSlot, hr]
  split <;> rfl

theorem setUnit_self (hu : s.units[u]? = some un) : s.setUnit u un = s := by
  simp [State.setUnit, set_self hu]

theorem setUnit_get {un' : UnitState} (hu : s.units[u]? = some un) : (s.setUnit u un').units[u]? = some un' :=
  List.getElem?_set_self (List.getElem?_eq_some_iff.1 hu).1

end Slots

/-! ### Stored registers (R31) -/

/-- The registers whose slot keeps all 64 bits stored there (R31). -/
def wideRegs : List Reg := [.dst0, .dst1, .dst2, .src0, .src1, .src2, .size]

theorem setWidth_low_word (v : Word64) : (v.setWidth 32).setWidth 64 = BitVec.ofNat 64 (v.toNat % 2 ^ 32) := by
  apply BitVec.eq_of_toNat_eq
  simp

/-- A RW register's load after its store: all of the value, or its low 32 bits. -/
theorem load_store_self (un : UnitState) {r : Reg} (hc : r ≠ .ctrl) (hs : r ≠ .status) (v : Word64) :
    { un with regs := un.regs.store r v }.load r =
      if r ∈ wideRegs then v else BitVec.ofNat 64 (v.toNat % 2 ^ 32) := by
  cases r
  case ctrl => exact absurd rfl hc
  case status => exact absurd rfl hs
  all_goals simp [UnitState.load, Descriptor.store, wideRegs, setWidth_low_word]

/-- A store to one register leaves what every other one reads as. -/
theorem load_store_other (un : UnitState) {r r' : Reg} (h : r' ≠ r) (v : Word64) :
    { un with regs := un.regs.store r v }.load r' = un.load r' := by
  cases r <;> cases r' <;> try exact absurd rfl h
  all_goals rfl

/-- Settles O7: the store's slot is the load's. -/
theorem storedRegisterReadsBack : Obligations.StoredRegisterReadsBack := by
  unfold Obligations.StoredRegisterReadsBack
  intro s u slot un r v hu hr hc hs
  rw [storeSlot_eq hu hr hc, loadSlot_eq (setUnit_get hu) hr]
  exact load_store_self un hc hs v

/-- Settles O8: the store changes the unit's live registers, and no register's load but that slot's. -/
theorem registerStoreFrame : Obligations.RegisterStoreFrame := by
  unfold Obligations.RegisterStoreFrame
  intro s u slot un r v hu hr hc hs
  rw [storeSlot_eq hu hr hc]
  refine ⟨un.regs.store r v, rfl, fun slot' r' hr' hne => ?_⟩
  rw [loadSlot_eq (setUnit_get hu) hr', loadSlot_eq hu hr']
  exact load_store_other un hne v

/-- Settles O10: STATUS is not stored, CTRL loads 0, and a reserved slot is no register. -/
theorem statusAndReservedSlots : Obligations.StatusAndReservedSlots := by
  unfold Obligations.StatusAndReservedSlots
  intro s u slot v _
  cases hu : s.units[u]? with
  | none => simp [State.storeSlot, State.loadSlot, hu]
  | some un =>
    refine ⟨?_, ?_⟩ <;> rintro (rfl | hres)
    · exact (storeSlot_eq (r := .status) hu rfl (by decide) v).trans (setUnit_self hu)
    · exact storeSlot_none (regOfSlot_reserved hres) v
    · exact loadSlot_eq (r := .ctrl) hu rfl
    · exact loadSlot_none (regOfSlot_reserved hres)

/-! ### STATUS (R31, R33, R223) -/

theorem flagNat_lt (b : Bool) : flagNat b < 2 := by
  cases b <;> decide

/-- STATUS as its CAUSE byte above eight bits of flags. -/
theorem statusValue_eq (un : UnitState) :
    statusValue un = 2 ^ 8 * un.cause.code.toNat + (flagNat un.busy + 2 * flagNat un.done + 4 * flagNat un.fault) := by
  simp only [statusValue]
  omega

theorem flags_testBit (busy done fault : Bool) {k : Nat} (hk : k < 8) :
    (flagNat busy + 2 * flagNat done + 4 * flagNat fault).testBit k =
      if k = 0 then busy else if k = 1 then done else if k = 2 then fault else false := by
  revert k
  cases busy <;> cases done <;> cases fault <;> decide

theorem statusValue_testBit (un : UnitState) (k : Nat) :
    (statusValue un).testBit k = if k < 8 then
      (if k = 0 then un.busy else if k = 1 then un.done else if k = 2 then un.fault else false)
      else un.cause.code.getLsbD (k - 8) := by
  have := flagNat_lt un.busy
  have := flagNat_lt un.done
  have := flagNat_lt un.fault
  rw [statusValue_eq, Nat.testBit_two_pow_mul_add _ (by omega)]
  split
  · next hk => exact flags_testBit _ _ _ hk
  · rfl

theorem statusLoad_getLsbD (un : UnitState) (k : Nat) :
    (un.load .status).getLsbD k =
      if k = 0 then un.busy else if k = 1 then un.done else if k = 2 then un.fault
      else if 8 ≤ k ∧ k < 16 then un.cause.code.getLsbD (k - 8) else false := by
  simp only [UnitState.load, BitVec.getLsbD_ofNat, statusValue_testBit]
  by_cases hlow : k < 8
  · simp [hlow, show k < 64 by omega, show ¬ 8 ≤ k by omega]
  · have hflags : k ≠ 0 ∧ k ≠ 1 ∧ k ≠ 2 := by omega
    by_cases hhigh : k < 16
    · simp [hlow, hflags, hhigh, show k < 64 by omega, show 8 ≤ k by omega]
    · simp [hlow, hflags, hhigh, BitVec.getLsbD_of_ge _ (k - 8) (show 8 ≤ k - 8 by omega)]

/-- Bit 0 of a load of STATUS is BUSY. -/
theorem loadSlot_status_busy {s : State} {u slot : Nat} {un : UnitState} (hu : s.units[u]? = some un)
    (hr : regOfSlot slot = some .status) : (s.loadSlot u slot).getLsbD 0 = un.busy := by
  rw [loadSlot_eq hu hr, statusLoad_getLsbD, if_pos rfl]

/-- Settles O11: the bits of `statusValue`, CAUSE's code being the one of R223. -/
theorem statusWordFields : Obligations.StatusWordFields := by
  unfold Obligations.StatusWordFields
  intro s u un hu
  refine ⟨un.cause.code, ?_, fun k => ?_⟩
  · cases un.cause <;> decide
  · rw [loadSlot_eq hu rfl, statusLoad_getLsbD]

/-! ### CTRL (R34, R36) -/

/-- Settles O12: BUSY is the first thing a store to CTRL asks. -/
theorem ctrlStoreWhileBusyLost : Obligations.CtrlStoreWhileBusyLost := by
  unfold Obligations.CtrlStoreWhileBusyLost
  intro s u un v hu hb
  rw [storeSlot_ctrl hu, State.storeCtrl, if_pos hb]

/-- Settles O13: without START a store to CTRL leaves the unit cleared, or as it is. -/
theorem clearAcknowledges : Obligations.ClearAcknowledges := by
  unfold Obligations.ClearAcknowledges
  intro s u un v hu hb h0
  rw [storeSlot_ctrl hu, State.storeCtrl, if_neg (by simp [hb])]
  refine ⟨fun h1 => ?_, fun h1 => ?_⟩ <;> simp only [h0, h1, Bool.false_eq_true, if_false, if_true]
  · rfl
  · exact setUnit_self hu

/-- What an accepted START makes of the unit `un`: latched, BUSY, told of every operation it finds BUSY. -/
def State.started (s : State) (un : UnitState) : UnitState :=
  beginBusy (Config.freeBool s.draws 0) (s.units.flatMap (busyWrittenFps s.params))
    (s.units.flatMap (busyDstFps s.params)) un

/-- What the START of the unit `un` makes of another unit, `vn`: told of the newcomer's destination, if BUSY. -/
def State.told (s : State) (un vn : UnitState) : UnitState :=
  noteForeign (busyWrittenFps s.params (s.started un)) (busyDstFps s.params (s.started un)) vn

theorem beginOperation_units_eq (s : State) (u : Nat) (un : UnitState) :
    (s.beginOperation u un).units = (s.units.map (s.told un)).set u (s.started un) := rfl

theorem beginOperation_get_self {s : State} {u : Nat} {un un' : UnitState} (hu : s.units[u]? = some un) :
    (s.beginOperation u un').units[u]? = some (s.started un') :=
  List.getElem?_set_self (by simpa using (List.getElem?_eq_some_iff.1 hu).1)

theorem beginOperation_get_other {s : State} {u w : Nat} {un' wn : UnitState} (hw : s.units[w]? = some wn)
    (hne : w ≠ u) : (s.beginOperation u un').units[w]? = some (s.told un' wn) := by
  rw [beginOperation_units_eq, List.getElem?_set_ne (Ne.symm hne), List.getElem?_map, hw, Option.map_some]

/-- Settles O14: an accepted START is `beginOperation`, which tells the other units of the newcomer and no more. -/
theorem startLatchesAndBegins : Obligations.StartLatchesAndBegins := by
  unfold Obligations.StartLatchesAndBegins
  intro s u un v hu hb h0
  obtain ⟨un', hregs, -, hstart⟩ := storeSlot_start hu hb h0
  rw [hstart]
  refine ⟨_, beginOperation_get_self hu, hregs, hregs, rfl, rfl, rfl, rfl, rfl, rfl, rfl, fun w wn hne hw => ?_⟩
  rw [beginOperation_get_other hw hne]
  obtain ⟨f, g, hn⟩ := noteForeign_flags _ _ wn
  exact ⟨f, g, congrArg some hn⟩

/-! ### Which slot a host address reaches (R31, R32, R98) -/

/-- A block that holds an address no other unit's block holds. -/
theorem blockOf_eq_of_only {units : List UnitState} {u : Nat} {un : UnitState} {addr : Word64}
    (hu : units[u]? = some un) (hin : inBlock un.base addr = true)
    (honly : ∀ v vn, units[v]? = some vn → v ≠ u → inBlock vn.base addr = false) :
    blockOf units addr = some (u, addr.toNat - un.base.toNat) := by
  cases hb : blockOf units addr with
  | none => exact absurd hin (by simp [blockOf_eq_none hb un (List.mem_of_getElem? hu)])
  | some p =>
    obtain ⟨v, off⟩ := p
    obtain ⟨vn, hv, hvin, rfl⟩ := blockOf_eq_some hb
    obtain rfl : v = u := by
      by_contra hne
      exact absurd hvin (by simp [honly v vn hv hne])
    obtain rfl : vn = un := Option.some.inj (hv.symm.trans hu)
    rfl

/-- A register access goes to a slot only when it is an aligned one of 8 bytes. -/
theorem regTarget_ok_aligned {s : State} {addr : Word64} {bytes u slot : Nat}
    (h : regTarget s addr bytes = .ok (u, slot)) : bytes = 8 ∧ addr.toNat % 8 = 0 := by
  unfold regTarget at h
  split at h
  · cases h
  · split at h
    · next halign => exact ⟨halign.1, halign.2.1⟩
    · cases h

/-- Inside a block, an access that is no aligned one of 8 bytes is refused (R32). -/
theorem regTarget_misaligned {s : State} {u : Nat} {un : UnitState} {addr : Word64} {bytes : Nat}
    (hu : s.units[u]? = some un) (hin : inBlock un.base addr = true) (hbad : bytes ≠ 8 ∨ addr.toNat % 8 ≠ 0) :
    regTarget s addr bytes = .error .registerAccess := by
  cases h : regTarget s addr bytes with
  | ok p =>
    obtain ⟨h8, ha⟩ := regTarget_ok_aligned (u := p.1) (slot := p.2) h
    omega
  | error r =>
    rcases regTarget_eq_error h with ⟨rfl, -⟩ | ⟨-, hout⟩
    · rfl
    · have := hout un (List.mem_of_getElem? hu)
      have := inBlock_iff.1 hin
      omega

@[simp] theorem regTarget_hostGoesOn (s : State) (p : List HostStmt) (addr : Word64) (bytes : Nat) :
    regTarget (hostGoesOn s p) addr bytes = regTarget s addr bytes := rfl

/-- Settles O9: the host's turn refuses what `regTarget` does. -/
theorem unalignedRegisterAccessRefused : Obligations.UnalignedRegisterAccessRefused := by
  unfold Obligations.UnalignedRegisterAccessRefused
  intro s rest u un addr v bytes hu hlo hhi hbad
  have hs : s.units ≠ [] := List.ne_nil_of_mem (List.mem_of_getElem? hu)
  have ht := regTarget_misaligned hu (inBlock_iff.2 ⟨hlo, hhi⟩) hbad
  refine ⟨?_, ?_⟩ <;> simp only [step_hostTurnNext hs, runStmt, regTarget_hostGoesOn, ht]

theorem regOff_lt (r : Reg) : regOff r < 256 := by
  cases r <;> decide

theorem regOff_mod (r : Reg) : regOff r % 8 = 0 := by
  cases r <;> rfl

theorem regOfSlot_regOff (r : Reg) : regOfSlot (regOff r / 8) = some r := by
  cases r <;> rfl

theorem regAddr_toNat {base : Word64} (h : base.toNat + 256 ≤ 2 ^ 64) (r : Reg) :
    (regAddr base r).toNat = base.toNat + regOff r := by
  have := regOff_lt r
  simp only [regAddr, BitVec.toNat_add, BitVec.toNat_ofNat]
  omega

/-- R31, R98: `REG_BASE[u] + off` reaches the slot of its register, off the other units' blocks. -/
theorem regTarget_regAddr {s : State} {u : Nat} {un : UnitState} (hu : s.units[u]? = some un)
    (h8 : un.base.toNat % 8 = 0) (hend : un.base.toNat + 256 ≤ 2 ^ 64)
    (hoff : ∀ v vn, s.units[v]? = some vn → v ≠ u →
      vn.base.toNat + 256 ≤ un.base.toNat ∨ un.base.toNat + 256 ≤ vn.base.toNat) (r : Reg) :
    regTarget s (regAddr un.base r) 8 = .ok (u, regOff r / 8) := by
  have ha := regAddr_toNat hend r
  have hlt := regOff_lt r
  have hmod := regOff_mod r
  have hin : inBlock un.base (regAddr un.base r) = true := inBlock_iff.2 (by omega)
  have honly : ∀ v vn, s.units[v]? = some vn → v ≠ u → inBlock vn.base (regAddr un.base r) = false := by
    intro v vn hv hne
    have := hoff v vn hv hne
    exact not_inBlock_iff.2 (by omega)
  have hsub : (regAddr un.base r).toNat - un.base.toNat = regOff r := by omega
  simp only [regTarget, blockOf_eq_of_only hu hin honly, hsub]
  rw [if_pos ⟨trivial, by omega, hmod⟩]

/-- A slot's store neither reads nor changes the host. -/
theorem storeSlot_hostGoesOn (s : State) (p : List HostStmt) (u slot : Nat) (v : Word64) :
    (hostGoesOn s p).storeSlot u slot v = hostGoesOn (s.storeSlot u slot v) p := by
  simp only [State.storeSlot, State.storeCtrl, hostGoesOn]
  split
  · rfl
  · split
    · rfl
    · split_ifs <;> rfl
    · rfl

theorem regTarget_units_ne_nil {s : State} {addr : Word64} {bytes : Nat} {p : Nat × Nat}
    (h : regTarget s addr bytes = .ok p) : s.units ≠ [] := by
  intro hs
  simp [regTarget, blockOf, hs] at h

/-- Settles O6: `regTarget_regAddr` for the addresses; the host's turn is the slot's store or load. -/
theorem registerAddressesReachTheirSlots : Obligations.RegisterAddressesReachTheirSlots := by
  unfold Obligations.RegisterAddressesReachTheirSlots
  refine ⟨fun s u un r hu h8 hend hoff => ⟨_, regTarget_regAddr hu h8 hend hoff r, regOfSlot_regOff r⟩, ?_⟩
  intro s u slot addr v rest ht
  refine ⟨?_, ?_⟩ <;> simp only [step_hostTurnNext (regTarget_units_ne_nil ht), runStmt, regTarget_hostGoesOn, ht]
  · rw [storeSlot_hostGoesOn]
    rfl
  · rfl

end Sys2Proof.Machine
end

section
/-! SUPPORT. Proofs about the ends of an operation (10_state.md R33, R35, R37; R61, R221, R224, R225), its turn, and
units without a step. -/

namespace Sys2Proof.Machine

/-! ### The three ends of an operation, as the statements write them -/

theorem raiseFault_eq_afterFault (s : State) (un : UnitState) (c : Cause) : s.raiseFault un c = afterFault s un c := rfl

theorem finish_eq_afterDone (s : State) (un : UnitState) (cells : List Host.Cell) :
    s.finish un cells = afterDone s un (s.mem.writeAll cells) := rfl

theorem getStuck_eq_afterStuck (s : State) (un : UnitState) (cells : List Host.Cell) :
    s.getStuck un cells = afterStuck s un (s.mem.writeAll cells) := rfl

/-- Settles O29: `runPlan_cases`, each end written out. -/
theorem operationEndsOneOfThreeWays : Obligations.OperationEndsOneOfThreeWays := by
  unfold Obligations.OperationEndsOneOfThreeWays
  intro i s t un hu h
  rw [exec_eq_runPlan] at h
  obtain ⟨un', hu', hcase⟩ := runPlan_cases h
  obtain rfl : un' = un := Option.some.inj (hu'.symm.trans hu)
  rcases hcase with ⟨c, -, rfl⟩ | ⟨-, -, rfl⟩ | ⟨-, -, rfl⟩
  · exact .inl ⟨c, raiseFault_eq_afterFault s un' c⟩
  · exact .inr (.inl (finish_eq_afterDone s un' _))
  · exact .inr (.inr (getStuck_eq_afterStuck s un' _))

/-! ### DONE, and a refused access (R61, R73) -/

/-- What DONE leaves at every byte the operation writes: a free value where the byte is left to a race, else its rule's
value, or a free one where the rule gives none (R75, R199). -/
theorem finish_read_write {i : Instr} {s : State} {un : UnitState} (hm : s.mem.wf = true)
    (hc : (planOf i s.params un.latch).check = none) {w : ByteWrite}
    (hw : w ∈ (planOf i s.params un.latch).byteWrites s.mem.read) :
    (s.mem.writeAll (finalCells s un (planOf i s.params un.latch))).read w.addr =
      (w.cell (Config.freeByte s.draws) (racedAt un (planOf i s.params un.latch))).2 := by
  refine Memory.read_writeAll_of_mem hm (finalCells_addr_lt hc) (List.mem_map.2 ⟨w, hw, rfl⟩) fun c hcm hca => ?_
  obtain ⟨w', hw', rfl⟩ := List.mem_map.1 hcm
  rw [Plan.byteWrites_unique hc (planOf_pitchOk i _ _ hc) hw' hw hca]

/-- With every access admitted, the operation ends DONE. -/
theorem exec_done {i : Instr} {s : State} {un : UnitState} (hu : s.units[s.cur]? = some un)
    (hc : (planOf i s.params un.latch).check = none)
    (ha : ∀ a, accessed i s.params un.latch a → admits s.admitted a = true) :
    exec i s =
      .next (afterDone s un (s.mem.writeAll (finalCells s un (planOf i s.params un.latch)))) := by
  rw [exec_eq_runPlan, runPlan_done hu hc ((admittedBy_iff hc).2 ha)]
  rfl

/-- A byte of a plane of an operation whose CHECKS pass is in the data space (check 9 of R222). -/
theorem lt_of_check {p : Plan} (hc : p.check = none) {f : Footprint} (hf : f ∈ p.srcFps ++ p.dstFps) {a : Nat}
    (ha : f.has a = true) : a < Config.spaceBytes := by
  obtain ⟨-, -, hwrap, -⟩ := (Plan.check_eq_none_iff p).1 hc
  have hplane : ∃ q ∈ p.planes, q.2 = f := by
    rcases List.mem_append.1 hf with h | h
    · obtain ⟨q, hq, rfl⟩ := List.mem_map.1 h
      exact ⟨_, List.mem_append_left _ (List.mem_map_of_mem hq), rfl⟩
    · obtain ⟨q, hq, rfl⟩ := List.mem_map.1 h
      exact ⟨_, List.mem_append_right _ (List.mem_map_of_mem hq), rfl⟩
  obtain ⟨q, hq, rfl⟩ := hplane
  by_contra hge
  have hw : q.2.wraps = true := q.2.wraps_iff.2 ⟨a, ha, not_lt.1 hge⟩
  exact List.any_eq_false.1 hwrap q hq hw

theorem accessed_lt {i : Instr} {p : Config.Params} {d : Descriptor} (hc : (planOf i p d).check = none) {a : Nat}
    (ha : accessed i p d a) : a < 2 ^ 64 := by
  rcases ha with ⟨f, hf, ha⟩ | ⟨f, hf, r, hr, b, hb, rfl, -⟩
  · exact lt_of_check hc (List.mem_append_right _ hf) ha
  · exact lt_of_check hc (List.mem_append_left _ hf) ((f.has_iff _).2 ⟨r, hr, b, hb, rfl⟩)

theorem admits_whole_space {a : Nat} (h : a < 2 ^ 64) : admits [{ base := 0, size := 2 ^ 64 }] a = true := by
  simpa [admits] using h

/-- R61: a byte after a refused access holds its old value, or the one DONE leaves. -/
theorem stuck_read_old_or_final {i : Instr} {s : State} {un : UnitState} (hm : s.mem.wf = true)
    (hc : (planOf i s.params un.latch).check = none) (a : Nat) :
    let p := planOf i s.params un.latch
    (s.mem.writeAll (partialCells s.draws s.admitted s.mem un p)).read a = s.mem.read a ∨
    (s.mem.writeAll (partialCells s.draws s.admitted s.mem un p)).read a =
      (s.mem.writeAll (finalCells s un p)).read a := by
  have hcells := partialCells_addr_lt (n := s.draws) (rs := s.admitted) (m := s.mem) (un := un) hc
  rcases Memory.read_writeAll_cases hm hcells a with h | ⟨c, hcm, rfl, h⟩
  · exact .inl h
  · obtain ⟨w, hw, rfl⟩ := List.mem_map.1 hcm
    exact .inr (h.trans (finish_read_write hm hc (List.mem_filter.1 hw).1).symm)

/-- R61: a refused byte keeps its value. -/
theorem stuck_read_refused {i : Instr} {s : State} {un : UnitState} (hm : s.mem.wf = true)
    (hc : (planOf i s.params un.latch).check = none) {a : Nat} (ha : admits s.admitted a = false) :
    (s.mem.writeAll (partialCells s.draws s.admitted s.mem un (planOf i s.params un.latch))).read a =
      s.mem.read a := by
  refine Memory.read_writeAll_of_not_mem hm (partialCells_addr_lt hc) fun c hcm he => ?_
  obtain ⟨w, hw, rfl⟩ := List.mem_map.1 hcm
  have hadm : (w.admittedBy s.admitted && Config.freeBool s.draws w.addr) = true := (List.mem_filter.1 hw).2
  simp only [ByteWrite.admittedBy, Bool.and_eq_true] at hadm
  obtain ⟨⟨-, hadm⟩, -⟩ := hadm
  rw [show w.addr = a from he, ha] at hadm
  cases hadm

/-- Settles O33: a refused access is `getStuck` with `partialCells`, which are among the cells of DONE. -/
theorem refusedAccessLeavesBusy : Obligations.RefusedAccessLeavesBusy := by
  unfold Obligations.RefusedAccessLeavesBusy
  intro i s un hm hu hc
  refine ⟨?_, fun ha => ⟨(admittedBy_iff hc).2 ha, _, exec_done hu hc ha⟩⟩
  rintro ⟨a, ha, href⟩
  have hadm : (planOf i s.params un.latch).admittedBy s.admitted s.mem.read = false := by
    rw [← Bool.not_eq_true, admittedBy_iff hc]
    exact fun h => by simp [h a ha] at href
  refine ⟨hadm, _, _, ?_, exec_done (s := { s with admitted := _ }) hu hc fun b hb => ?_,
    stuck_read_old_or_final hm hc, fun b hb => stuck_read_refused hm hc hb⟩
  · rw [exec_eq_runPlan, runPlan_stuck hu hc hadm, getStuck_eq_afterStuck]
  · exact admits_whole_space (accessed_lt hc hb)

/-! ### Units without a step (R237, R61) -/

theorem unitStep_of_not_ready {s : State} {u : Nat} {un : UnitState} (hu : s.units[u]? = some un)
    (hr : un.ready = false) : unitStep u s = .next s := by
  simp [unitStep, hu, hr]

/-- The host's turn at a WAIT on a BUSY unit's STATUS changes nothing (R98). -/
theorem runStmt_wait_busy {s : State} {u slot : Nat} {un : UnitState} {addr : Word64} (hu : s.units[u]? = some un)
    (hb : un.busy = true) (ht : regTarget s addr 8 = .ok (u, slot)) (hr : regOfSlot slot = some .status)
    (rest : List HostStmt) : runStmt (.wait addr) rest s = .next s := by
  simp [runStmt, ht, loadSlot_status_busy hu hr, hb]

/-- Where a register access goes depends on the blocks' places only. -/
theorem blockOf_eq_bases (units : List UnitState) (addr : Word64) :
    blockOf units addr = ((units.map UnitState.base).findIdx? fun b => inBlock b addr).bind fun u =>
      ((units.map UnitState.base)[u]?).map fun b => (u, addr.toNat - b.toNat) := by
  rw [List.findIdx?_map]
  unfold blockOf
  simp only [Function.comp_def]
  cases units.findIdx? fun un => inBlock un.base addr with
  | none => rfl
  | some u =>
    simp only [Option.bind_some, List.getElem?_map]
    cases units[u]? <;> rfl

theorem regTarget_of_sameConfig {s t : State} (h : s.SameConfig t) (addr : Word64) (bytes : Nat) :
    regTarget t addr bytes = regTarget s addr bytes := by
  obtain ⟨-, -, hbases⟩ := h
  simp only [regTarget, blockOf_eq_bases, hbases]

theorem step_sameConfig {s t : State} (h : step s = .next t) : s.SameConfig t := by
  obtain ⟨a, ts, ht, -⟩ := step_turn h
  exact takeTurn_sameConfig (s := { s with turns := ts }) ht

theorem unitStep_host {u : Nat} {s t : State} (h : unitStep u s = .next t) : t.host = s.host := by
  rcases unitStep_cases h with ⟨rfl, -⟩ | ⟨un, -, -, ⟨c, -, rfl⟩ | ⟨i, -, -, ⟨-, rfl⟩ | ⟨-, rfl⟩⟩⟩
  all_goals rfl

/-- While a unit is BUSY, no step moves the host past a WAIT on that unit's STATUS. -/
theorem step_host_of_wait {s t : State} (h : step s = .next t) {u slot : Nat} {un : UnitState} {addr : Word64}
    {rest : List HostStmt} (hu : s.units[u]? = some un) (hb : un.busy = true) (hp : s.host.prog = .wait addr :: rest)
    (ht : regTarget s addr 8 = .ok (u, slot)) (hr : regOfSlot slot = some .status) : t.host = s.host := by
  obtain ⟨a, ts, hturn, -⟩ := step_turn h
  cases a with
  | host =>
    have hw : hostStep { s with turns := ts } = .next { s with turns := ts } := by
      simp only [hostStep, hp]
      exact runStmt_wait_busy (s := { s with turns := ts }) hu hb ht hr rest
    cases hw.symm.trans hturn
    rfl
  | unit v => exact (unitStep_host hturn).trans rfl
  | platformReset =>
    cases hturn
    rfl

/-- Settles O34: an idle or stuck unit is not ready; STATUS shows a stuck unit BUSY; and `step_busy` has no other case
left for it. -/
theorem unitsWithoutAStep : Obligations.UnitsWithoutAStep := by
  unfold Obligations.UnitsWithoutAStep
  refine ⟨fun s u un hu hidle => ?_, fun s u slot un addr rest hu hb ht hr => ?_,
    fun s t u un h hnr hu hb hs => ⟨?_, fun slot addr rest hp ht hr => ⟨step_host_of_wait h hu hb hp ht hr, ?_⟩⟩⟩
  · rw [step_unitTurnNext hu]
    exact unitStep_of_not_ready hu (by rcases hidle with h | h <;> simp [UnitState.ready, h])
  · rw [step_hostTurnNext (regTarget_units_ne_nil ht)]
    exact runStmt_wait_busy (s := hostGoesOn s (.wait addr :: rest)) hu hb ht hr rest
  · rcases step_busy h hu hb with ⟨hreset, -⟩ | ⟨hns, -⟩ | ⟨d, f, g, hlater⟩
    · exact absurd hreset hnr
    · rw [hs] at hns
      cases hns
    · exact ⟨d, _, _, hlater⟩
  · rw [regTarget_of_sameConfig (step_sameConfig h)]
    exact ht

/-! ### Every ready unit ends (R256) -/

/-- How the operation of a unit with a step, `un`, ends: idle with DONE or FAULT; or stuck, where its CHECKS pass and an
access is refused. Admission does not depend on what memory holds, so `rd` is any. -/
def UnitState.endsAs (p : Config.Params) (rs : List Region) (rd : Nat → Byte) (un un' : UnitState) : Prop :=
  (un'.busy = false ∧ (un'.done = true ∨ un'.fault = true)) ∨
  (un'.busy = true ∧ un'.stuck = true ∧ ∃ i, decode un.latch.cmd = .ok i ∧ (planOf i p un.latch).check = none ∧
    (planOf i p un.latch).admittedBy rs rd = false)

theorem endsAs_not_ready {p : Config.Params} {rs : List Region} {rd : Nat → Byte} {un un' : UnitState}
    (h : un.endsAs p rs rd un') : un'.ready = false := by
  rcases h with ⟨hb, -⟩ | ⟨-, hs, -⟩
  · simp [UnitState.ready, hb]
  · simp [UnitState.ready, hs]

theorem endsAs_congr {p : Config.Params} {rs : List Region} {rd : Nat → Byte} {un un' : UnitState}
    (h : un.endsAs p rs rd un') (rd' : Nat → Byte) : un.endsAs p rs rd' un' := by
  rcases h with h | ⟨hb, hs, i, hi, hc, ha⟩
  · exact .inl h
  · exact .inr ⟨hb, hs, i, hi, hc, (Plan.admittedBy_congr ..).trans ha⟩

/-- The turn of a unit with a step ends its operation, and changes neither another unit, nor the host, the parameters,
the admitted set or the schedule. -/
theorem unitStep_ends {s : State} {u : Nat} {un : UnitState} (hu : s.units[u]? = some un) (hr : un.ready = true) :
    ∃ t un', unitStep u s = .next t ∧ t.units = s.units.set u un' ∧ un.endsAs s.params s.admitted s.mem.read un' ∧
      t.host = s.host ∧ t.params = s.params ∧ t.admitted = s.admitted ∧ t.turns = s.turns := by
  obtain ⟨t, ht⟩ := unitStep_next u s
  have hbusy : un.busy = true := (Bool.and_eq_true _ _ ▸ hr : un.busy = true ∧ _).1
  refine ⟨t, ?_⟩
  rcases unitStep_cases ht with ⟨-, hidle⟩ | ⟨vn, hv, -, hcase⟩
  · simp [hidle un hu] at hr
  · obtain rfl : vn = un := Option.some.inj (hv.symm.trans hu)
    rcases hcase with ⟨c, -, rfl⟩ | ⟨i, hi, hc, ⟨-, rfl⟩ | ⟨ha, rfl⟩⟩
    · exact ⟨endInFault c vn, ht, rfl, .inl ⟨rfl, .inr rfl⟩, rfl, rfl, rfl, rfl⟩
    · exact ⟨endInDone vn, ht, rfl, .inl ⟨rfl, .inl rfl⟩, rfl, rfl, rfl, rfl⟩
    · exact ⟨endStuck vn, ht, rfl, .inr ⟨hbusy, rfl, i, hi, hc, ha⟩, rfl, rfl, rfl, rfl⟩

theorem readyCount_eq_countP (s : State) : readyCount s = s.units.countP UnitState.ready :=
  List.countP_eq_length_filter.symm

theorem readyCount_set {s t : State} {u : Nat} {un un' : UnitState} (hu : s.units[u]? = some un)
    (hr : un.ready = true) (hr' : un'.ready = false) (ht : t.units = s.units.set u un') :
    readyCount s = readyCount t + 1 := by
  obtain ⟨hlt, rfl⟩ := List.getElem?_eq_some_iff.1 hu
  have hpos : 0 < s.units.countP UnitState.ready := List.countP_pos_iff.2 ⟨_, List.getElem_mem hlt, hr⟩
  rw [readyCount_eq_countP, readyCount_eq_countP, ht, List.countP_set hlt, hr, hr']
  simp only [if_true, Bool.false_eq_true, if_false]
  omega

/-- With an empty schedule the first unit with a step moves (log 6). -/
theorem step_of_ready {s : State} (hts : s.turns = []) (hpos : 0 < readyCount s) :
    ∃ u un, s.units[u]? = some un ∧ un.ready = true ∧ step s = unitStep u s := by
  rw [readyCount_eq_countP, List.countP_pos_iff] at hpos
  obtain ⟨vn, hv, hvr⟩ := hpos
  have hs : s.units ≠ [] := List.ne_nil_of_mem hv
  cases hf : s.units.findIdx? UnitState.ready with
  | none => simp [List.findIdx?_eq_none_iff.1 hf vn hv] at hvr
  | some u =>
    obtain ⟨hlt, hr, -⟩ := List.findIdx?_eq_some_iff_getElem.1 hf
    refine ⟨u, s.units[u], List.getElem?_eq_getElem hlt, hr, ?_⟩
    simp [step, hts, hs, defaultTurn, hf, takeTurn]

theorem run_succ {s t : State} (h : step s = .next t) (n : Nat) :
    Host.Core.run core (n + 1) s = Host.Core.run core n t := by
  have hcore : core.step s = .next t := h
  simp only [Host.Core.run, hcore]

/-- A run with an empty schedule, one step for each unit that has one: each such unit ends its operation, the other
units and the host are as they were. -/
theorem run_readyCount (n : Nat) : ∀ s : State, s.turns = [] → readyCount s = n →
    ∃ t, Host.Core.run core n s = .next t ∧ readyCount t = 0 ∧ t.host = s.host ∧
      ∀ (u : Nat) (un : UnitState), s.units[u]? = some un → ∃ un', t.units[u]? = some un' ∧
        (un.ready = false → un' = un) ∧ (un.ready = true → un.endsAs s.params s.admitted s.mem.read un') := by
  induction n with
  | zero =>
    intro s _ hn
    refine ⟨s, rfl, hn, rfl, fun u un hu => ⟨un, hu, fun _ => rfl, fun hr => ?_⟩⟩
    rw [readyCount_eq_countP, List.countP_eq_zero] at hn
    exact absurd hr (hn un (List.mem_of_getElem? hu))
  | succ n ih =>
    intro s hts hn
    obtain ⟨v, vn, hv, hvr, hstep⟩ := step_of_ready hts (by omega)
    obtain ⟨t₁, vn', ht₁, hunits, hends, hhost, hparams, hadm, hturns⟩ := unitStep_ends hv hvr
    have hcount := readyCount_set hv hvr (endsAs_not_ready hends) hunits
    obtain ⟨t, hrun, hzero, hthost, hall⟩ := ih t₁ (hturns.trans hts) (by omega)
    refine ⟨t, ?_, hzero, hthost.trans hhost, fun u un hu => ?_⟩
    · rw [run_succ (hstep.trans ht₁)]
      exact hrun
    · by_cases huv : v = u
      · subst huv
        obtain rfl : un = vn := Option.some.inj (hu.symm.trans hv)
        obtain ⟨un', hu', hkeep, -⟩ := hall v vn'
          (by rw [hunits]; exact List.getElem?_set_self (List.getElem?_eq_some_iff.1 hv).1)
        obtain rfl := hkeep (endsAs_not_ready hends)
        exact ⟨un', hu', fun hr => by simp [hr] at hvr, fun _ => hends⟩
      · obtain ⟨un', hu', hkeep, hend⟩ := hall u un (by rw [hunits, List.getElem?_set_ne huv]; exact hu)
        rw [hparams, hadm] at hend
        exact ⟨un', hu', hkeep, fun hr => endsAs_congr (hend hr) _⟩

/-- Settles O57: `run_readyCount`, with as many steps as units that have one. -/
theorem everyReadyUnitEnds : Obligations.EveryReadyUnitEnds := by
  unfold Obligations.EveryReadyUnitEnds
  intro s hts _
  obtain ⟨t, hrun, hzero, hhost, hall⟩ := run_readyCount _ s hts rfl
  refine ⟨_, t, le_rfl, hrun, hzero, hhost, fun u un hu hb hs => ?_⟩
  obtain ⟨un', hu', -, hend⟩ := hall u un hu
  exact ⟨un', hu', hend (by simp [UnitState.ready, hb, hs])⟩

/-! ### The launch entry of log 5 -/

theorem decodeTableWord_32 {w : Nat} {i : Instr} (h : decodeTableWord 32 w = some i) :
    decode (BitVec.ofNat 32 (w % 2 ^ 32)) = .ok i := by
  unfold decodeTableWord at h
  split at h
  · next hd => exact hd.trans (congrArg _ (Option.some.inj h))
  · cases h

/-- The unit that has accepted a START for the command `word` (log 5). -/
def UnitState.fetched (word : Word32) (un : UnitState) : UnitState :=
  { un with
    regs := { un.regs with cmd := word }
    latch := { un.regs with cmd := word }
    done := false, fault := false, cause := .noFault, busy := true, stuck := false, foreignWrites := [],
    openReads := [] }

/-- `withFetchWord` is unit 0's turn on the word. -/
theorem withFetchWord_eq (s : State) (nbits w : Nat) : s.withFetchWord nbits w =
    unitTurnNext { s with units := s.units.modify 0 (UnitState.fetched (BitVec.ofNat 32 (w % 2 ^ nbits))) } 0 := rfl

/-- The turn of a unit with a step, on a command that decodes, is that operation (R90, R257). -/
theorem unitStep_decoded {s : State} {u : Nat} {un : UnitState} {i : Instr} (hu : s.units[u]? = some un)
    (hr : un.ready = true) (hd : decode un.latch.cmd = .ok i) : unitStep u s = exec i { s with cur := u } := by
  simp only [unitStep, hu, hr, if_true, hd]

/-- Settles O58: the schedule's first turn is unit 0's, which is BUSY on the word. -/
theorem fetchWordRunsNext : Obligations.FetchWordRunsNext := by
  unfold Obligations.FetchWordRunsNext
  intro s w i hs hw
  obtain ⟨un, hun⟩ : ∃ un, s.units[0]? = some un := ⟨_, List.getElem?_eq_getElem (List.length_pos_iff.2 hs)⟩
  have hun' : (s.units.modify 0 (UnitState.fetched (BitVec.ofNat 32 (w % 2 ^ 32))))[0]? =
      some (un.fetched (BitVec.ofNat 32 (w % 2 ^ 32))) := by
    simp [hun]
  refine ⟨{ s with units := s.units.modify 0 (UnitState.fetched (BitVec.ofNat 32 (w % 2 ^ 32))), cur := 0 },
    ?_, rfl, rfl, rfl, un, _, hun, hun', rfl, ?_⟩
  · rw [withFetchWord_eq, step_unitTurnNext hun']
    exact unitStep_decoded hun' rfl (decodeTableWord_32 hw)
  · rw [show BitVec.ofNat 32 (w % 2 ^ 32) = BitVec.ofNat 32 w from BitVec.eq_of_toNat_eq (by simp)]
    rfl

end Sys2Proof.Machine
end

section
/-! SUPPORT. Proofs about races (10_state.md R37; R75, R234, R258): what a host load of a BUSY destination returns, and
where concurrent operations race. -/

namespace Sys2Proof.Machine

/-! ### Bytes of some footprints -/

theorem covered_append {fs gs : List Footprint} {a : Nat} : covered (fs ++ gs) a ↔ covered fs a ∨ covered gs a := by
  simp only [covered, List.mem_append, or_and_right, exists_or]

theorem not_covered_nil (a : Nat) : ¬ covered [] a := by
  simp [covered]

/-- Some footprint of `fs` overlaps some of `gs` exactly when a byte is covered by both. -/
theorem any_overlaps_iff {fs gs : List Footprint} :
    (∃ f ∈ fs, ∃ g ∈ gs, f.overlaps g = true) ↔ ∃ x, covered fs x ∧ covered gs x := by
  constructor
  · rintro ⟨f, hf, g, hg, ho⟩
    obtain ⟨x, hfx, hgx⟩ := (f.overlaps_iff g).1 ho
    exact ⟨x, ⟨f, hf, hfx⟩, g, hg, hgx⟩
  · rintro ⟨x, ⟨f, hf, hfx⟩, g, hg, hgx⟩
    exact ⟨f, hf, g, hg, (f.overlaps_iff g).2 ⟨x, hfx, hgx⟩⟩

/-! ### The operation of a BUSY unit -/

theorem covered_busyDstFps {p : Config.Params} {un : UnitState} {a : Nat} :
    covered (busyDstFps p un) a ↔
      un.busy = true ∧ ∃ i, namedOperation un.latch.cmd = some i ∧ covered (planOf i p un.latch).dstFps a := by
  simp only [covered, mem_busyDstFps]
  constructor
  · rintro ⟨f, ⟨hb, i, hi, hf⟩, ha⟩
    exact ⟨hb, i, hi, f, hf, ha⟩
  · rintro ⟨hb, i, hi, f, hf, ha⟩
    exact ⟨f, ⟨hb, i, hi, hf⟩, ha⟩

/-- The operation a BUSY unit runs writes its destination where its CHECKS pass (R221). -/
theorem covered_busyWrittenFps {p : Config.Params} {un : UnitState} {i : Instr} {a : Nat} (hb : un.busy = true)
    (hi : namedOperation un.latch.cmd = some i) :
    covered (busyWrittenFps p un) a ↔ checksPass i p un.latch ∧ covered (planOf i p un.latch).dstFps a := by
  simp only [covered, mem_busyWrittenFps]
  constructor
  · rintro ⟨f, ⟨-, k, hk, hc, hf⟩, ha⟩
    obtain rfl : k = i := Option.some.inj ((namedOperation_of_decode hk).symm.trans hi)
    exact ⟨⟨hk, hc⟩, f, hf, ha⟩
  · rintro ⟨⟨hk, hc⟩, f, hf, ha⟩
    exact ⟨f, ⟨hb, i, hk, hc, hf⟩, ha⟩

/-- What a unit may write is part of what its operation's destination is. -/
theorem covered_busyDst_of_written {p : Config.Params} {un : UnitState} {a : Nat}
    (h : covered (busyWrittenFps p un) a) : covered (busyDstFps p un) a := by
  obtain ⟨f, hf, ha⟩ := h
  obtain ⟨hb, i, hi, -, hf⟩ := mem_busyWrittenFps.1 hf
  exact ⟨f, mem_busyDstFps.2 ⟨hb, i, namedOperation_of_decode hi, hf⟩, ha⟩

/-! ### A host load of memory (R75, R258) -/

theorem busyDst_iff {s : State} {a : Nat} :
    s.busyDst a = true ↔ ∃ (u : Nat) (un : UnitState) (i : Instr), s.units[u]? = some un ∧ un.busy = true ∧
      namedOperation un.latch.cmd = some i ∧ covered (planOf i s.params un.latch).dstFps a := by
  have hcov : s.busyDst a = true ↔ ∃ un ∈ s.units, covered (busyDstFps s.params un) a := by
    simp only [State.busyDst, List.any_eq_true, covered]
  simp only [hcov, covered_busyDstFps, List.mem_iff_getElem?]
  constructor
  · rintro ⟨un, ⟨u, hu⟩, hb, i, hi, hc⟩
    exact ⟨u, un, i, hu, hb, hi, hc⟩
  · rintro ⟨u, un, i, hu, hb, hi, hc⟩
    exact ⟨un, ⟨u, hu⟩, hb, i, hi, hc⟩

/-- The host's turn at a load of memory: the byte is returned, memory and units are as they were. -/
theorem step_memLoad {s : State} (hs : s.units ≠ []) (a : Word64) (rest : List HostStmt) :
    ∃ t, step (hostTurnNext s (.memLoad a) rest) = .next t ∧
      t.host.loads = s.host.loads ++ [(s.hostByte a.toNat).setWidth 64] ∧
      t.host.prog = rest ∧ t.mem = s.mem ∧ t.units = s.units :=
  ⟨_, step_hostTurnNext hs _ _, rfl, rfl, rfl, rfl⟩

/-- Settles O44: the byte a load returns is free exactly where some BUSY unit's destination holds it. -/
theorem hostLoadsOfBusyDestinations : Obligations.HostLoadsOfBusyDestinations := by
  unfold Obligations.HostLoadsOfBusyDestinations
  intro s a rest hs
  have hload := step_memLoad hs a rest
  refine ⟨fun u un i hu hb hi hc => ?_, fun hfree => ?_⟩
  · rwa [State.hostByte, if_pos (busyDst_iff.2 ⟨u, un, i, hu, hb, hi, hc⟩)] at hload
  · have hno : ¬ s.busyDst a.toNat = true := fun h => by
      obtain ⟨u, un, i, hu, hb, hi, hc⟩ := busyDst_iff.1 h
      exact hfree u un i hu hb hi hc
    rwa [State.hostByte, if_neg hno] at hload

/-! ### Which bytes are left to a race (R75) -/

/-- Byte `a` of plan `q` is left to a race by agents that write the footprints `written` and make reads of `opened`
return any value (R75). -/
def racesFrom (written opened : List Footprint) (q : Plan) (a : Nat) : Prop :=
  (covered written a ∨ ∃ x, covered written x ∧ covered q.srcFps x) ∨
  ∃ w ∈ q.byteWrites (fun _ => 0), w.addr = a ∧ ∃ r ∈ w.reads, covered opened r ∧ covered q.srcFps r

theorem readsOpen_iff {fps : List Footprint} {q : Plan} {a : Nat} : readsOpen fps q a = true ↔
    ∃ w ∈ q.byteWrites (fun _ => 0), w.addr = a ∧ ∃ r ∈ w.reads, covered fps r ∧ covered q.srcFps r := by
  simp only [readsOpen, List.any_eq_true, Bool.and_eq_true, decide_eq_true_eq, covered]
  constructor
  · rintro ⟨f, hf, w, hw, ha, r, hr, hfr, g, hg, hgr⟩
    exact ⟨w, hw, ha, r, hr, ⟨f, hf, hfr⟩, g, hg, hgr⟩
  · rintro ⟨w, hw, ha, r, hr, ⟨f, hf, hfr⟩, g, hg, hgr⟩
    exact ⟨f, hf, w, hw, ha, r, hr, hfr, g, hg, hgr⟩

theorem racedAt_iff {un : UnitState} {q : Plan} {a : Nat} :
    racedAt un q a = true ↔ racesFrom un.foreignWrites un.openReads q a := by
  simp only [racedAt, racesFrom, Bool.or_eq_true, readsOpen_iff, ← any_overlaps_iff, List.any_eq_true, and_or_left,
    exists_or]
  rfl

theorem racesFrom_append {ws ws' os os' : List Footprint} {q : Plan} {a : Nat} :
    racesFrom (ws ++ ws') (os ++ os') q a ↔ racesFrom ws os q a ∨ racesFrom ws' os' q a := by
  simp only [racesFrom, covered_append, or_and_right, and_or_left, exists_or]
  constructor
  · rintro (((h | h) | h | h) | h | h)
    exacts [.inl (.inl (.inl h)), .inr (.inl (.inl h)), .inl (.inl (.inr h)), .inr (.inl (.inr h)), .inl (.inr h),
      .inr (.inr h)]
  · rintro (((h | h) | h) | (h | h) | h)
    exacts [.inl (.inl (.inl h)), .inl (.inr (.inl h)), .inr (.inl h), .inl (.inl (.inr h)), .inl (.inr (.inr h)),
      .inr (.inr h)]

theorem racesFrom_flatMap {α : Type} {l : List α} {W O : α → List Footprint} {q : Plan} {a : Nat} :
    racesFrom (l.flatMap W) (l.flatMap O) q a ↔ ∃ x ∈ l, racesFrom (W x) (O x) q a := by
  induction l with
  | nil => simp [racesFrom, not_covered_nil]
  | cons x l ih => simp only [List.flatMap_cons, racesFrom_append, ih, List.exists_mem_cons_iff]

/-- Beside a BUSY unit, the bytes left to a race are those of `racesAt` with the operation it runs. -/
theorem racesFrom_busy {p : Config.Params} {vn : UnitState} {k : Instr} (hb : vn.busy = true)
    (hk : namedOperation vn.latch.cmd = some k) {q : Plan} {a : Nat} :
    racesFrom (busyWrittenFps p vn) (busyDstFps p vn) q a ↔
      racesAt (checksPass k p vn.latch) (planOf k p vn.latch) q a := by
  have hdst : ∀ x, covered (busyDstFps p vn) x ↔ covered (planOf k p vn.latch).dstFps x := fun x => by
    simp only [covered_busyDstFps, hb, hk, true_and, Option.some.injEq, exists_eq_left']
  simp only [racesFrom, racesAt, covered_busyWrittenFps hb hk, hdst, and_assoc, exists_and_left, and_or_left]

/-- A unit that leaves a byte to a race is BUSY and its OP names an operation. -/
theorem busy_of_racesFrom {p : Config.Params} {vn : UnitState} {q : Plan} {a : Nat}
    (h : racesFrom (busyWrittenFps p vn) (busyDstFps p vn) q a) :
    vn.busy = true ∧ ∃ k, namedOperation vn.latch.cmd = some k := by
  have hdst : ∃ x, covered (busyDstFps p vn) x := by
    rcases h with (h | ⟨x, h, -⟩) | ⟨-, -, -, r, -, h, -⟩
    exacts [⟨a, covered_busyDst_of_written h⟩, ⟨x, covered_busyDst_of_written h⟩, ⟨r, h⟩]
  obtain ⟨x, hx⟩ := hdst
  obtain ⟨hb, k, hk, -⟩ := covered_busyDstFps.1 hx
  exact ⟨hb, k, hk⟩

section NoteForeign
variable (ws os : List Footprint) (vn : UnitState)

@[simp] theorem noteForeign_busy : (noteForeign ws os vn).busy = vn.busy := by rw [noteForeign_eq]
@[simp] theorem noteForeign_stuck : (noteForeign ws os vn).stuck = vn.stuck := by rw [noteForeign_eq]
@[simp] theorem noteForeign_latch : (noteForeign ws os vn).latch = vn.latch := by rw [noteForeign_eq]
end NoteForeign

/-- What noting more of other agents adds to the bytes left to a race. -/
theorem racedAt_noteForeign {vn : UnitState} (hb : vn.busy = true) {ws os : List Footprint} {q : Plan} {a : Nat} :
    racedAt (noteForeign ws os vn) q a = true ↔ racedAt vn q a = true ∨ racesFrom ws os q a := by
  simp only [racedAt_iff, noteForeign, hb, if_true, racesFrom_append]

/-- A byte left to a race stays so while the operation runs on. -/
theorem racedAt_of_runsOn {un later : UnitState} (h : un.runsOn later) {q : Plan} {a : Nat}
    (hr : racedAt un q a = true) : racedAt later q a = true := by
  obtain ⟨-, -, -, ⟨ws, hw⟩, os, ho⟩ := h
  rw [racedAt_iff] at hr ⊢
  rw [← hw, ← ho]
  exact racesFrom_append.2 (.inl hr)

/-! ### Race-free operations (R234) -/

theorem raceFree_comm (p q : Plan) : raceFree p q = raceFree q p := Bool.and_comm ..

theorem not_covered_of_raceFree {p q : Plan} (h : raceFree p q = true) {x : Nat} (hx : covered p.dstFps x) :
    ¬ covered (q.srcFps ++ q.dstFps) x := by
  intro hq
  obtain ⟨f, hf, g, hg, ho⟩ := any_overlaps_iff.2 ⟨x, hx, hq⟩
  simp only [raceFree, Bool.and_eq_true, List.all_eq_true, Bool.not_eq_true'] at h
  obtain ⟨h, -⟩ := h
  simp [h f hf g hg] at ho

/-- Beside a race-free operation no destination byte is left to a race. -/
theorem not_racesAt_of_raceFree {W : Prop} {p q : Plan} (h : raceFree p q = true) {a : Nat} (ha : covered q.dstFps a) :
    ¬ racesAt W p q a := by
  rintro (⟨-, hd | ⟨x, hd, hs⟩⟩ | ⟨-, -, -, x, -, hd, hs⟩)
  · exact not_covered_of_raceFree h hd (covered_append.2 (.inr ha))
  · exact not_covered_of_raceFree h hd (covered_append.2 (.inl hs))
  · exact not_covered_of_raceFree h hd (covered_append.2 (.inl hs))

theorem unraced_iff {un : UnitState} {p : Plan} :
    unraced un p ↔ ∀ a, covered p.dstFps a → racedAt un p a = false :=
  ⟨fun h a ⟨f, hf, ha⟩ => h f hf a ha, fun h f hf a ha => h a ⟨f, hf, ha⟩⟩

/-! ### The end of an operation left to a race (R75) -/

theorem freeAtDone_mono {s : State} {u : Nat} {un : UnitState} {P Q : Nat → Prop} (h : freeAtDone s u un P)
    (hQ : ∀ a, Q a → P a) : freeAtDone s u un Q := by
  intro t later i hm hp hl hon hd hc ha
  obtain ⟨t', hstep, hend, hfree⟩ := h t later i hm hp hl hon hd hc ha
  exact ⟨t', hstep, hend, fun a hQa => hfree a (hQ a hQa)⟩

/-- The turn of a unit whose operation comes to its end. -/
theorem unitStep_done {s : State} {u : Nat} {un : UnitState} {i : Instr} (hu : s.units[u]? = some un)
    (hr : un.ready = true) (hd : decode un.latch.cmd = .ok i) (hc : (planOf i s.params un.latch).check = none)
    (ha : (planOf i s.params un.latch).admittedBy s.admitted s.mem.read = true) :
    unitStep u s = .next ({ s with cur := u }.finish un (finalCells s un (planOf i s.params un.latch))) := by
  rw [unitStep_decoded hu hr hd, exec_eq_runPlan]
  exact runPlan_done (s := { s with cur := u }) hu hc ha

/-- Destination bytes left to a race hold free values at DONE. -/
theorem freeAtDone_of_raced {s : State} {u : Nat} {un : UnitState} {bytes : Nat → Prop}
    (h : ∀ i, checksPass i s.params un.latch → ∀ a, bytes a →
      covered (planOf i s.params un.latch).dstFps a ∧ racedAt un (planOf i s.params un.latch) a = true) :
    freeAtDone s u un bytes := by
  intro t later i hm hparams hlater hon hd hc ha
  have hrace := fun a hb => (h i ⟨hd, hc⟩ a hb).imp_right (racedAt_of_runsOn hon)
  obtain ⟨hbusy, hstuck, hlatch, -, -⟩ := hon
  rw [← hparams, ← hlatch] at hc ha hrace
  have hready : later.ready = true := by simp [UnitState.ready, hbusy, hstuck]
  have hdone := unitStep_done hlater hready (hlatch ▸ hd) hc ha
  refine ⟨_, (step_unitTurnNext hlater).trans hdone, ⟨endInDone later, ?_, rfl, rfl⟩, fun a hb => ?_⟩
  · exact List.getElem?_set_self (List.getElem?_eq_some_iff.1 hlater).1
  · obtain ⟨⟨f, hf, hfa⟩, hr⟩ := hrace a hb
    exact finish_read_raced hm hc hf hfa hr

/-- The three ways of R75 in which an operation, that of unit `n` on plan `q`, is left to a race by one of plan `p`:
where `p` writes (`W`), every destination byte if it meets the source, and the destination bytes it meets; and in any
case each byte computed from a read of `p`'s destination. -/
theorem freeAtDone_of_racesAt {t : State} {u : Nat} {n : UnitState} {i : Instr} {W : Prop} {p q : Plan}
    (hn : namedOperation n.latch.cmd = some i) (hq : planOf i t.params n.latch = q)
    (hrace : ∀ a, racesAt W p q a → racedAt n q a = true) :
    (W → ((∃ a, covered p.dstFps a ∧ covered q.srcFps a) → freeAtDone t u n (covered q.dstFps)) ∧
      freeAtDone t u n (fun a => covered p.dstFps a ∧ covered q.dstFps a)) ∧
    ∀ rd, freeAtDone t u n (fun a => ∃ w ∈ q.byteWrites rd, w.addr = a ∧ ∃ r ∈ w.reads, covered p.dstFps r) := by
  have free : ∀ bytes : Nat → Prop, (q.check = none → ∀ a, bytes a → covered q.dstFps a ∧ racesAt W p q a) →
      freeAtDone t u n bytes := by
    refine fun bytes h => freeAtDone_of_raced fun k hk a ha => ?_
    obtain rfl : k = i := Option.some.inj ((namedOperation_of_decode hk.1).symm.trans hn)
    rw [hq]
    exact (h (hq ▸ hk.2) a ha).imp_right (hrace a)
  refine ⟨fun hW => ⟨fun hmeet => free _ fun _ a ha => ⟨ha, .inl ⟨hW, .inr hmeet⟩⟩,
    free _ fun _ a ha => ⟨ha.2, .inl ⟨hW, .inl ha.1⟩⟩⟩, fun rd => free _ ?_⟩
  rintro hc a ⟨w, hw, rfl, r, hr, hp⟩
  refine ⟨Plan.has_of_mem_byteWrites hw, .inr ?_⟩
  have hsrc : covered q.srcFps r := Plan.reads_has (hq ▸ planOf_readsInSource i _ _ (hq.symm ▸ hc)) hw r hr
  obtain ⟨d, hd, y, hy, b, hb, rfl⟩ := Plan.mem_byteWrites.1 hw
  exact ⟨_, Plan.mem_byteWrites.2 ⟨d, hd, y, hy, b, hb, rfl⟩, rfl, r, hr, hp, hsrc⟩

/-! ### An accepted START beside BUSY units (R234) -/

section Start
variable {s : State} {u : Nat} {un : UnitState}

/-- The bytes of the newcomer left to a race: those of `racesAt` with some operation it finds BUSY. -/
theorem racedAt_started {q : Plan} {a : Nat} : racedAt (s.started un) q a = true ↔
    ∃ (v : Nat) (vn : UnitState) (k : Instr), s.units[v]? = some vn ∧ vn.busy = true ∧
      namedOperation vn.latch.cmd = some k ∧
      racesAt (checksPass k s.params vn.latch) (planOf k s.params vn.latch) q a := by
  have hfrom : racedAt (s.started un) q a = true ↔
      ∃ vn ∈ s.units, racesFrom (busyWrittenFps s.params vn) (busyDstFps s.params vn) q a := by
    rw [racedAt_iff, ← racesFrom_flatMap]
    rfl
  rw [hfrom]
  constructor
  · rintro ⟨vn, hv, hr⟩
    obtain ⟨v, hv⟩ := List.mem_iff_getElem?.1 hv
    obtain ⟨hb, k, hk⟩ := busy_of_racesFrom hr
    exact ⟨v, vn, k, hv, hb, hk, (racesFrom_busy hb hk).1 hr⟩
  · rintro ⟨v, vn, k, hv, hb, hk, hr⟩
    exact ⟨vn, List.mem_of_getElem? hv, (racesFrom_busy hb hk).2 hr⟩

/-- A newcomer race-free with every operation it finds BUSY is left to no race. -/
theorem unraced_started {p : Plan}
    (hfree : ∀ (v : Nat) (vn : UnitState) (k : Instr), s.units[v]? = some vn → vn.busy = true →
      namedOperation vn.latch.cmd = some k → raceFree p (planOf k s.params vn.latch) = true) :
    unraced (s.started un) p := by
  refine unraced_iff.2 fun a ha => ?_
  rw [← Bool.not_eq_true, racedAt_started]
  rintro ⟨v, vn, k, hv, hb, hk, hr⟩
  exact not_racesAt_of_raceFree (raceFree_comm .. ▸ hfree v vn k hv hb hk) ha hr

variable {vn : UnitState} {i : Instr}

/-- The bytes of a BUSY unit's operation left to a race after a START: those left before, and those of `racesAt` with
the newcomer. -/
theorem racedAt_told (hb : vn.busy = true) (hi : namedOperation un.regs.cmd = some i) {q : Plan} {a : Nat} :
    racedAt (s.told un vn) q a = true ↔
      racedAt vn q a = true ∨ racesAt (checksPass i s.params un.regs) (planOf i s.params un.regs) q a := by
  rw [State.told, racedAt_noteForeign hb, racesFrom_busy (vn := s.started un) rfl hi]
  rfl

/-- A BUSY operation left to no race stays so beside a newcomer race-free with it. -/
theorem unraced_told (hb : vn.busy = true) (hi : namedOperation un.regs.cmd = some i) {q : Plan}
    (hfree : raceFree (planOf i s.params un.regs) q = true) (h : unraced vn q) : unraced (s.told un vn) q := by
  refine unraced_iff.2 fun a ha => ?_
  rw [← Bool.not_eq_true, racedAt_told hb hi, unraced_iff.1 h a ha]
  rintro (hr | hr)
  · cases hr
  · exact not_racesAt_of_raceFree hfree ha hr

/-- What a BUSY operation, that of unit `v`, leaves at DONE beside the newcomer. -/
theorem freeAtDone_told (hb : vn.busy = true) (hi : namedOperation un.regs.cmd = some i) {k : Instr}
    (hk : namedOperation vn.latch.cmd = some k) (v : Nat) :
    let p := planOf i s.params un.regs
    let q := planOf k s.params vn.latch
    let t := s.beginOperation u un
    (checksPass i s.params un.regs →
      ((∃ a, covered p.dstFps a ∧ covered q.srcFps a) → freeAtDone t v (s.told un vn) (covered q.dstFps)) ∧
      freeAtDone t v (s.told un vn) (fun a => covered p.dstFps a ∧ covered q.dstFps a)) ∧
    ∀ rd, freeAtDone t v (s.told un vn) (fun a =>
      ∃ w ∈ q.byteWrites rd, w.addr = a ∧ ∃ r ∈ w.reads, covered p.dstFps r) :=
  freeAtDone_of_racesAt (by rwa [State.told, noteForeign_latch]) (by rw [State.told, noteForeign_latch]; rfl)
    fun _ hr => (racedAt_told hb hi).2 (.inr hr)

/-- What the newcomer leaves at DONE beside a BUSY operation, that of unit `v`. -/
theorem freeAtDone_started {v : Nat} (hv : s.units[v]? = some vn) (hb : vn.busy = true)
    (hi : namedOperation un.regs.cmd = some i) {k : Instr} (hk : namedOperation vn.latch.cmd = some k) :
    let p := planOf i s.params un.regs
    let q := planOf k s.params vn.latch
    let t := s.beginOperation u un
    (checksPass k s.params vn.latch →
      ((∃ a, covered q.dstFps a ∧ covered p.srcFps a) → freeAtDone t u (s.started un) (covered p.dstFps)) ∧
      freeAtDone t u (s.started un) (fun a => covered q.dstFps a ∧ covered p.dstFps a)) ∧
    ∀ rd, freeAtDone t u (s.started un) (fun a =>
      ∃ w ∈ p.byteWrites rd, w.addr = a ∧ ∃ r ∈ w.reads, covered q.dstFps r) :=
  freeAtDone_of_racesAt hi rfl fun _ hr => racedAt_started.2 ⟨v, vn, k, hv, hb, hk, hr⟩

end Start

/-- A unit BUSY before and after a step keeps its latch and what it has noted of races (R37, R75). -/
theorem step_keeps_notes {s t : State} {u : Nat} {un un' : UnitState} (h : step s = .next t)
    (hu : s.units[u]? = some un) (hu' : t.units[u]? = some un') (hb : un.busy = true) (hb' : un'.busy = true) :
    un'.latch = un.latch ∧ un.foreignWrites <+: un'.foreignWrites ∧ un.openReads <+: un'.openReads := by
  rcases step_busy h hu hb with ⟨-, hlater⟩ | ⟨-, ⟨c, hlater⟩ | hlater | hlater⟩ | ⟨d, f, g, hlater⟩ <;>
    obtain rfl := Option.some.inj (hu'.symm.trans hlater)
  · cases hb'
  · cases hb'
  · cases hb'
  · exact ⟨rfl, List.prefix_rfl, List.prefix_rfl⟩
  · exact ⟨rfl, List.prefix_append _ _, List.prefix_append _ _⟩

/-- Settles O46: a START leaves to a race what `racesAt` says, on either side; a byte so left is free at DONE; and no
step before it loses what was noted. -/
theorem operationsRaceWhereTheyMeet : Obligations.OperationsRaceWhereTheyMeet := by
  unfold Obligations.OperationsRaceWhereTheyMeet
  refine ⟨fun s u un i value hu hidle hi h0 => ?_, fun i s un hm hu hc ha => ?_,
    fun s t u un un' h hu hu' hb hb' => step_keeps_notes h hu hu' hb hb'⟩
  · obtain ⟨un₁, hregs, -, hstart⟩ := storeSlot_start hu hidle h0
    rw [hstart, ← hregs]
    rw [← hregs] at hi
    refine ⟨_, beginOperation_get_self hu, rfl, rfl, rfl, fun a => racedAt_started, unraced_started,
      fun v vn k hv hb hk => ?_⟩
    have hne : v ≠ u := by
      rintro rfl
      cases hu.symm.trans hv
      simp [hidle] at hb
    obtain ⟨hwritten, hread⟩ := freeAtDone_told (s := s) (u := u) hb hi hk v
    obtain ⟨hwritten', hread'⟩ := freeAtDone_started (u := u) hv hb hi hk
    exact ⟨_, beginOperation_get_other hv hne, (noteForeign_busy ..).trans hb, noteForeign_stuck ..,
      noteForeign_latch .., fun a => racedAt_told hb hi, unraced_told hb hi, hwritten,
      fun hpass => (hwritten' hpass).imp_right fun h => freeAtDone_mono h fun _ => And.symm,
      hread _, hread' _⟩
  · refine ⟨_, exec_done hu hc ha, fun w hw => ?_⟩
    exact finish_read_write hm hc hw

end Sys2Proof.Machine
end

section
/-! SUPPORT. Proofs about the arithmetic of bytes (10_state.md R40; R141, R142, R145). -/

namespace Sys2Proof.Machine

theorem avgU8_eq (a b : Nat) : avgU8 a b = (a + b + 1) / 2 := by
  simp [avgU8, Nat.shiftRight_eq_div_pow]

/-- The tap as a quotient; the two weights of a row of WEIGHT sum to 4 (R40). -/
theorem tapU8_weight {a b : Nat} (ha : a ≤ 255) (hb : b ≤ 255) :
    tapU8 a b (Config.weight 0) = (a + 3 * b + 2) / 4 ∧ tapU8 a b (Config.weight 1) = (3 * a + b + 2) / 4 := by
  refine ⟨?_, ?_⟩ <;> rw [tapU8_eq ha hb _ rfl, Nat.shiftRight_eq_div_pow]
  · simp only [Config.weight, if_true]
    omega
  · simp only [Config.weight, Fin.one_eq_zero_iff, OfNat.ofNat_ne_one, if_false]
    omega

/-- Settles O40: both in closed form, the rest is linear arithmetic. -/
theorem averageAndTapsOfBytes : Obligations.AverageAndTapsOfBytes := by
  unfold Obligations.AverageAndTapsOfBytes
  intro a b ha hb
  obtain ⟨h0, h1⟩ := tapU8_weight ha hb
  obtain ⟨-, h1'⟩ := tapU8_weight hb ha
  rw [avgU8_eq, avgU8_eq, h0, h1, h1']
  omega

end Sys2Proof.Machine
end

section
/-! SUPPORT. Proofs about memory (20_memory.md): what an operation writes and leaves unchanged (R67, R72, R81), in any
order (R73, R74). -/

namespace Sys2Proof.Machine

/-! ### The frame of an operation (R72), and its policy (R81, R93) -/

/-- Settles O30: the meaning is its plan run, and a plan writes in its destination only. -/
theorem onlyDestinationBytesChange : Obligations.OnlyDestinationBytesChange := by
  unfold Obligations.OnlyDestinationBytesChange
  intro i s t un a hm hu h ha
  rw [exec_eq_runPlan] at h
  exact runPlan_read_outside hm hu h ha

/-- What an instruction does depends on its plan alone. -/
theorem exec_congr {i j : Instr} (h : planOf i = planOf j) (s : State) : exec i s = exec j s := by
  rw [exec_eq_runPlan, exec_eq_runPlan, h]

/-- Settles O35: no plan depends on the policy. -/
theorem storePolicyChangesNothing : Obligations.StorePolicyChangesNothing := by
  unfold Obligations.StorePolicyChangesNothing
  intro a b s
  exact ⟨exec_congr rfl s, exec_congr rfl s, exec_congr rfl s, exec_congr rfl s, exec_congr rfl s,
    exec_congr rfl s, exec_congr rfl s, exec_congr rfl s⟩

/-! ### Zero-size operations (R67) -/

theorem Plan.byteWrites_eq_nil {p : Plan} (h : ∀ q ∈ p.dst, q.rows = 0 ∨ q.cols = 0) (rd : Nat → Byte) :
    p.byteWrites rd = [] := by
  refine List.eq_nil_iff_forall_not_mem.2 fun w hw => ?_
  obtain ⟨q, hq, r, hr, b, hb, -⟩ := Plan.mem_byteWrites.1 hw
  rcases h q hq with h0 | h0
  · omega
  · rw [h0, Nat.zero_mul] at hb
    omega

/-- An operation that writes no byte ends DONE with memory as it was, once CHECKS pass. -/
theorem exec_of_no_writes {i : Instr} {s : State} {un : UnitState} (hu : s.units[s.cur]? = some un)
    (hc : (planOf i s.params un.latch).check = none)
    (hw : (planOf i s.params un.latch).byteWrites s.mem.read = []) :
    exec i s = .next (afterDone s un s.mem) := by
  rw [exec_eq_runPlan, runPlan_done hu hc (by simp [Plan.admittedBy, hw]), finish_eq_afterDone]
  simp [finalCells, hw, Memory.writeAll]

/-- R67: MOVE of no bytes, or another operation on no rows or no columns. -/
def zeroSize (i : Instr) (d : Descriptor) : Prop :=
  if i = .moveC ∨ i = .moveNT then d.size = 0 else croppedWidth d = 0 ∨ croppedHeight d = 0

/-- The destination planes of a zero-size operation have no rows or no columns. -/
theorem planOf_dst_of_zeroSize {i : Instr} {p : Config.Params} {d : Descriptor} (h : zeroSize i d) :
    ∀ q ∈ (planOf i p d).dst, q.rows = 0 ∨ q.cols = 0 := by
  unfold zeroSize at h
  rw [← outW_eq, ← outH_eq] at h
  cases i
  case moveC => simp_all [planOf, planMoveC, movePlan]
  case moveNT => simp_all [planOf, planMoveNT, movePlan]
  all_goals
    simp only [reduceCtorEq, or_self, if_false] at h
    simp only [planOf, planCvtP422, planCvtP422I, planCvtPl420, planCvtPl420Uv, planCopyPl444, planCvtPk444w,
      planCvtPk444wI, p422LumaDst, p422ChromaDst, pl420LumaDst, pl420ChromaDst, pl444Dst, pk444LumaDst,
      pk444ChromaDst, List.mem_cons, List.not_mem_nil, or_false, forall_eq_or_imp, forall_eq]
    omega

/-- Settles O32: a zero-size operation has no byte to write, so none to read. -/
theorem zeroSizeMakesNoAccess : Obligations.ZeroSizeMakesNoAccess := by
  unfold Obligations.ZeroSizeMakesNoAccess
  intro i s un hu hc hz
  exact exec_of_no_writes hu hc (Plan.byteWrites_eq_nil (planOf_dst_of_zeroSize hz) _)

/-! ### The order of the writes (R73, R74) -/

/-- Writes that agree on every address leave the same memory as any others with the same members, whatever their order
and repetitions. -/
theorem Memory.writeAll_eq_of_mem_iff {m : Memory} (hm : m.wf = true) {cells cells' : List Host.Cell}
    (hc : ∀ c ∈ cells, c.1 < Config.spaceBytes) (huniq : ∀ c ∈ cells, ∀ d ∈ cells, d.1 = c.1 → d.2 = c.2)
    (hmem : ∀ c, c ∈ cells' ↔ c ∈ cells) : m.writeAll cells' = m.writeAll cells := by
  have hc' : ∀ c ∈ cells', c.1 < Config.spaceBytes := fun c h => hc c ((hmem c).1 h)
  refine Memory.wf_ext (Memory.wf_writeAll hm hc') (Memory.wf_writeAll hm hc) fun a => ?_
  by_cases ha : ∃ c ∈ cells, c.1 = a
  · obtain ⟨c, hcm, rfl⟩ := ha
    rw [Memory.read_writeAll_of_mem hm hc hcm (huniq c hcm),
      Memory.read_writeAll_of_mem hm hc' ((hmem c).2 hcm) fun d hd => huniq c hcm d ((hmem d).1 hd)]
  · have hnot : ∀ c ∈ cells, c.1 ≠ a := fun c hcm he => ha ⟨c, hcm, he⟩
    rw [Memory.read_writeAll_of_not_mem hm hc hnot,
      Memory.read_writeAll_of_not_mem hm hc' fun c h => hnot c ((hmem c).1 h)]

/-- An operation left to no race leaves the cells of its rule. -/
theorem cell_of_unraced {un : UnitState} {p : Plan} (hr : unraced un p) {rd : Nat → Byte} {w : ByteWrite}
    (hw : w ∈ p.byteWrites rd) (draw : Nat → Byte) :
    w.cell draw (racedAt un p) = w.cell draw fun _ => false := by
  simp [ByteWrite.cell, unraced_iff.1 hr w.addr (Plan.has_of_mem_byteWrites hw)]

theorem finalCells_of_unraced {s : State} {un : UnitState} {p : Plan} (hr : unraced un p) :
    finalCells s un p = (p.byteWrites s.mem.read).map (ByteWrite.cell (Config.freeByte s.draws) fun _ => false) :=
  List.map_congr_left fun _ hw => cell_of_unraced hr hw _

/-- Cells at one address are one (R73): the operation's writes agree on every address. -/
theorem finalCells_unique {i : Instr} {s : State} {un : UnitState} (hc : (planOf i s.params un.latch).check = none) :
    ∀ c ∈ finalCells s un (planOf i s.params un.latch), ∀ d ∈ finalCells s un (planOf i s.params un.latch),
      d.1 = c.1 → d.2 = c.2 := by
  intro c hcm d hdm he
  obtain ⟨w, hw, rfl⟩ := List.mem_map.1 hcm
  obtain ⟨v, hv, rfl⟩ := List.mem_map.1 hdm
  rw [Plan.byteWrites_unique hc (planOf_pitchOk i _ _ hc) hv hw he]

/-- Settles O38: the writes agree on every address, so only which ones there are counts. -/
theorem anyOrderLeavesTheSameMemory : Obligations.AnyOrderLeavesTheSameMemory := by
  unfold Obligations.AnyOrderLeavesTheSameMemory
  intro i s un h
  refine ⟨_, ready_exec h, fun writes hmem => ?_⟩
  obtain ⟨hm, -, hc, -, hrace⟩ := h
  refine Memory.writeAll_eq_of_mem_iff hm (finalCells_addr_lt hc) (finalCells_unique hc) fun c => ?_
  simp only [finalCells_of_unraced hrace, List.mem_map, hmem]

end Sys2Proof.Machine
end

section
/-! SUPPORT. Proofs about memory shared with other agents (20_memory.md R75, R259, R261; R252): a host store, and a
reset while BUSY. -/

namespace Sys2Proof.Machine

/-! ### A host store of memory (R75, R259, R261) -/

theorem covered_byteFootprint (a x : Nat) : covered [byteFootprint a] x ↔ x = a := by
  simp [covered, byteFootprint_has]

/-- What a write of the byte at `a` leaves to a race: that byte, or, where it is a source byte, every byte. -/
theorem racesFrom_byte {a : Nat} {q : Plan} {x : Nat} :
    racesFrom [byteFootprint a] [] q x ↔ x = a ∨ covered q.srcFps a := by
  simp [racesFrom, covered_byteFootprint, not_covered_nil]

section HostStore
variable {un : UnitState} (hb : un.busy = true) (a : Word64)
include hb

/-- The bytes of a BUSY unit's operation left to a race after a host store at `a`. -/
theorem racedAt_hostStore {q : Plan} {x : Nat} :
    racedAt (noteForeign [byteFootprint a.toNat] [] un) q x = true ↔
      racedAt un q x = true ∨ x = a.toNat ∨ covered q.srcFps a.toNat := by
  rw [racedAt_noteForeign hb, racesFrom_byte]

/-- A host store off the planes of an operation leaves it to no race. -/
theorem unraced_hostStore {q : Plan} (hout : ¬ covered (q.srcFps ++ q.dstFps) a.toNat) (h : unraced un q) :
    unraced (noteForeign [byteFootprint a.toNat] [] un) q := by
  refine unraced_iff.2 fun x hx => ?_
  rw [← Bool.not_eq_true, racedAt_hostStore hb, unraced_iff.1 h x hx]
  rintro (hr | rfl | hs)
  · cases hr
  · exact hout (covered_append.2 (.inr hx))
  · exact hout (covered_append.2 (.inl hs))

/-- After a host store at `a`, the destination bytes it leaves to a race are free at DONE. -/
theorem freeAtDone_hostStore {t : State} (u : Nat) {i : Instr} (hi : namedOperation un.latch.cmd = some i)
    {bytes : Nat → Prop}
    (h : ∀ x, bytes x → covered (planOf i t.params un.latch).dstFps x ∧
      (x = a.toNat ∨ covered (planOf i t.params un.latch).srcFps a.toNat)) :
    freeAtDone t u (noteForeign [byteFootprint a.toNat] [] un) bytes := by
  refine freeAtDone_of_raced fun k hk x hx => ?_
  rw [noteForeign_latch] at hk ⊢
  obtain rfl : k = i := Option.some.inj ((namedOperation_of_decode hk.1).symm.trans hi)
  exact (h x hx).imp_right fun hr => (racedAt_hostStore hb a).2 (.inr hr)

end HostStore

/-- What a unit has noted of other agents, left out. -/
def UnitState.withoutNotes (un : UnitState) : UnitState :=
  { un with foreignWrites := [], openReads := [] }

/-- Noting an access of another agent changes nothing but the notes. -/
theorem map_withoutNotes_noteForeign (fps gs : List Footprint) (l : List UnitState) :
    (l.map (noteForeign fps gs)).map UnitState.withoutNotes = l.map UnitState.withoutNotes := by
  rw [List.map_map]
  refine List.map_congr_left fun un _ => ?_
  rw [Function.comp_apply, noteForeign_eq]
  rfl

/-- Settles O45: the host's turn is `hostStore`, which every BUSY unit notes; `racedAt_hostStore` says what that leaves
to a race. -/
theorem hostStoreRacesWithOperation : Obligations.HostStoreRacesWithOperation := by
  unfold Obligations.HostStoreRacesWithOperation
  intro s a v rest hm hs
  refine ⟨_, step_hostTurnNext hs _ _, ?_, fun x hx => ?_, rfl, rfl, map_withoutNotes_noteForeign _ _ _,
    fun u un i hu hb hi => ?_⟩
  · exact (Memory.read_write_wf hm _ _ _).trans (if_pos rfl)
  · exact (Memory.read_write_wf hm _ _ _).trans (if_neg hx)
  · refine ⟨noteForeign [byteFootprint a.toNat] [] un, ?_, (noteForeign_busy ..).trans hb, noteForeign_stuck ..,
      noteForeign_latch .., fun hsrc => ?_, fun hdst => ?_, fun x => racedAt_hostStore hb a, unraced_hostStore hb a⟩
    · exact (List.getElem?_map ..).trans (congrArg _ hu)
    · exact freeAtDone_hostStore hb a u hi fun x hx => ⟨hx, .inr hsrc⟩
    · refine freeAtDone_hostStore hb a u hi ?_
      rintro x rfl
      exact ⟨hdst, .inl rfl⟩

/-! ### A reset while BUSY (R252) -/

theorem step_platformReset {s : State} (hs : s.units ≠ []) :
    step { s with turns := .platformReset :: s.turns } = .next s.platformReset := by
  simp [step, hs, takeTurn]

/-- Every byte after a reset: its old value, or the cell of a write of a BUSY operation whose CHECKS pass. -/
theorem platformReset_read_cases {s : State} (hm : s.mem.wf = true) (a : Nat) :
    s.platformReset.mem.read a = s.mem.read a ∨
    ∃ (u : Nat) (un : UnitState) (i : Instr), s.units[u]? = some un ∧ un.busy = true ∧ un.stuck = false ∧
      decode un.latch.cmd = .ok i ∧ (planOf i s.params un.latch).check = none ∧
      ∃ w ∈ (planOf i s.params un.latch).byteWrites s.mem.read, w.addr = a ∧ s.platformReset.mem.read a =
        (w.cell (Config.freeByte (s.draws + u)) (racedAt un (planOf i s.params un.latch))).2 := by
  rw [State.platformReset_mem]
  rcases Memory.read_writeAll_cases hm (resetCellsFrom_addr_lt s) a with h | ⟨c, hc, ha, h⟩
  · exact .inl h
  · right
    obtain ⟨u, un, hu, hcu⟩ := mem_resetCellsFrom _ _ hc
    rw [Nat.zero_add] at hcu
    obtain ⟨hb, hs, i, hi, hcheck, w, hw, rfl⟩ := mem_resetCells hcu
    exact ⟨u, un, i, hu, hb, hs, hi, hcheck, w, hw, ha, h⟩

/-- A reset beside no BUSY operation whose CHECKS pass leaves memory as it was. -/
theorem platformReset_mem_of_no_passing {s : State}
    (h : ∀ (u : Nat) (un : UnitState) (i : Instr), s.units[u]? = some un → un.busy = true →
      decode un.latch.cmd = .ok i → (planOf i s.params un.latch).check ≠ none) :
    s.platformReset.mem = s.mem := by
  have hnil : resetCellsFrom s 0 s.units = [] := List.eq_nil_iff_forall_not_mem.2 fun c hc => by
    obtain ⟨u, un, hu, hcu⟩ := mem_resetCellsFrom _ _ hc
    obtain ⟨hb, -, i, hi, hcheck, -⟩ := mem_resetCells hcu
    exact h u un i hu hb hi hcheck
  rw [State.platformReset_mem, hnil]
  rfl

/-- Settles O49: `platformReset_read_cases`, where an operation left to no race leaves the value of its rule. -/
theorem resetWhileBusyLeavesOldOrFinal : Obligations.ResetWhileBusyLeavesOldOrFinal := by
  unfold Obligations.ResetWhileBusyLeavesOldOrFinal
  intro s hm hs
  refine ⟨_, step_platformReset hs, fun hrace a => ?_, platformReset_mem_of_no_passing⟩
  refine (platformReset_read_cases hm a).imp_right ?_
  rintro ⟨u, un, i, hu, hb, hns, hi, hc, w, hw, ha, hread⟩
  refine ⟨u, un, i, hu, hb, hns, hi, hc, w, hw, ha, fun v hv => ?_⟩
  rw [hread, cell_of_unraced (hrace u un i hu hb hi hc) hw]
  simp [ByteWrite.cell, hv]

end Sys2Proof.Machine
end

section
/-! SUPPORT. Proofs about the 16-bit conversions (20_memory.md R62; R190 to R204): the memory CVT.PK444W.SP420W and its
interlaced form leave. -/

namespace Sys2Proof.Machine

/-! ### Frame of an operation on two destination planes (R72) -/

theorem ready_outside_two {i : Instr} {s : State} {un : UnitState} (h : ready i s un) {q q' : DstPlane}
    (hd : (planOf i s.params un.latch).dst = [q, q']) {a : Nat}
    (ha : ¬ inRows q.start q.pitch q.rows (q.cols * q.bytes) a)
    (ha' : ¬ inRows q'.start q'.pitch q'.rows (q'.cols * q'.bytes) a) :
    (doneMem i s un).read a = s.mem.read a := by
  refine ready_outside h fun f hf => ?_
  rw [Plan.dstFps, hd] at hf
  simp only [List.map_cons, List.map_nil, List.mem_cons, List.not_mem_nil, or_false] at hf
  rcases hf with rfl | rfl
  · exact has_false_of_not_inRows ha
  · exact has_false_of_not_inRows ha'

/-! ### The samples of the PK444W operations (R190 to R194) -/

/-- The widened sample of channel `c` of cropped pixel `x` of cropped row `r` (R191, R193). -/
def pk444Sample (s : State) (d : Descriptor) (c r x : Nat) : Int :=
  widened s.params.widen (word16 s.mem.read (pk444Channel d c r x))

theorem widen_readLE (w : Widen) (rd : Nat → Byte) (a : Nat) :
    widen w (readLE rd a 2) = widened w (word16 rd a) := by
  rw [readLE_two, widen_eq_widened w (word16_lt rd a)]

section Pk444
variable {i : Instr} {s : State} {un : UnitState} (h : ready i s un)
include h

/-- R196: a luma sample at DONE, wherever its rescale gives a value. -/
theorem ready_pk444Luma (hq : pk444LumaDst s.params un.latch ∈ (planOf i s.params un.latch).dst) {r x v : Nat}
    (hr : r < croppedHeight un.latch) (hx : x < croppedWidth un.latch)
    (hv : rsY s.params.coefY (pk444Sample s un.latch 0 r x) = some v) :
    word16 (doneMem i s un).read (un.latch.dst0.toNat + r * un.latch.dstPitchY.toNat + 2 * x) = v := by
  rw [← readLE_two]
  refine ready_sample16 h hq rfl (by rwa [← outH_eq] at hr) (by rwa [← outW_eq] at hx) ?_ (rescale_lt hv)
  simp only [pk444LumaDst, Sample.value, widen_readLE]
  exact hv

/-- R192, R194: channel `c` of chroma pair `k` at DONE, wherever its rule gives a value. -/
theorem ready_pk444Chroma {up down : Nat → Nat} {combine : Nat → Int → Int → Option Nat}
    (hq : pk444ChromaDst s.params un.latch up down combine ∈ (planOf i s.params un.latch).dst) {j k c v : Nat}
    (hj : j < croppedHeight un.latch / 2) (hk : k < croppedWidth un.latch / 2) (hc : c < 2)
    (hv : combine j (pk444Sample s un.latch (1 + c) (up j) (2 * k))
      (pk444Sample s un.latch (1 + c) (down j) (2 * k)) = some v) (hlt : v < 65536) :
    word16 (doneMem i s un).read (cbase un.latch + j * un.latch.dstPitchY.toNat + 4 * k + 2 * c) = v := by
  rw [← outH_eq] at hj
  rw [← outW_eq] at hk
  have hcol : (2 * k + c) % 2 = c ∧ (2 * k + c) / 2 = k := by omega
  have hread := ready_sample16 h hq rfl (r := j) (x := 2 * k + c) hj
    (show 2 * k + c < outW un.latch by omega) (by
      simp only [pk444ChromaDst, hcol, Sample.value, widen_readLE]
      exact hv) hlt
  rw [readLE_two] at hread
  rw [show cbase un.latch + j * un.latch.dstPitchY.toNat + 4 * k + 2 * c =
    cbase un.latch + j * un.latch.dstPitchY.toNat + 2 * (2 * k + c) by omega]
  exact hread

/-- R72: a byte in neither destination plane. -/
theorem ready_pk444Outside {up down : Nat → Nat} {combine : Nat → Int → Int → Option Nat}
    (hd : (planOf i s.params un.latch).dst =
      [pk444LumaDst s.params un.latch, pk444ChromaDst s.params un.latch up down combine]) {a : Nat}
    (ha : ¬ inRows un.latch.dst0.toNat un.latch.dstPitchY.toNat (croppedHeight un.latch)
      (2 * croppedWidth un.latch) a)
    (ha' : ¬ inRows (cbase un.latch) un.latch.dstPitchY.toNat (croppedHeight un.latch / 2)
      (2 * croppedWidth un.latch) a) :
    (doneMem i s un).read a = s.mem.read a := by
  rw [← outH_eq, ← outW_eq, Nat.mul_comm] at ha ha'
  exact ready_outside_two h hd ha ha'

end Pk444

/-- Settles O22: `ready_pk444Luma` and `ready_pk444Chroma` on rows 2j and 2j + 1. -/
theorem cvtPk444wConverts : Obligations.CvtPk444wConverts := by
  unfold Obligations.CvtPk444wConverts
  intro nt s un h d p yp dp w hgt start chroma src
  have hl : pk444LumaDst p d ∈ (planOf (.cvtPk444w nt) p d).dst := List.mem_cons_self ..
  have hc : pk444ChromaDst p d (fun j => 2 * j) (fun j => 2 * j + 1) (fun _ a b => rsCp p.coefC a b) ∈
      (planOf (.cvtPk444w nt) p d).dst := List.mem_cons_of_mem _ (List.mem_singleton.2 rfl)
  refine ⟨_, ready_exec h, fun r hr x hx v hv => ready_pk444Luma h hl hr hx hv,
    fun j hj k hk => ⟨fun v hv => ?_, fun v hv => ?_⟩, fun a ha ha' => ready_pk444Outside h rfl ha ha'⟩
  · exact ready_pk444Chroma h hc hj hk (c := 0) (by decide) hv (rescale_lt hv)
  · exact ready_pk444Chroma h hc hj hk (c := 1) (by decide) hv (rescale_lt hv)

/-! ### The fields of the interlaced form (R202, R203) -/

section Field
variable {g i : Nat} (hi : i < 2)
include hi

theorem fieldUp_eq : fieldUp (2 * g + i) = 4 * g + i := by
  unfold fieldUp
  omega

theorem fieldDown_eq : fieldDown (2 * g + i) = 4 * g + i + 2 := by
  unfold fieldDown
  omega

theorem fieldWeight_eq : fieldWeight (2 * g + i) = if i = 0 then (1, 3) else (3, 1) := by
  have hmod : (2 * g + i) % 2 = i := by omega
  simp [fieldWeight, Config.weight, hmod, Fin.ext_iff]

end Field

/-- Settles O23: `ready_pk444Luma`, and `ready_pk444Chroma` on the rows and weights of each field. -/
theorem cvtPk444wInterlacedConverts : Obligations.CvtPk444wInterlacedConverts := by
  unfold Obligations.CvtPk444wInterlacedConverts
  intro nt s un h d p yp dp w hgt start chroma src
  have hl : pk444LumaDst p d ∈ (planOf (.cvtPk444wI nt) p d).dst := List.mem_cons_self ..
  have hc : pk444ChromaDst p d fieldUp fieldDown (fun j a b => rsCi p.coefC a b (fieldWeight j)) ∈
      (planOf (.cvtPk444wI nt) p d).dst := List.mem_cons_of_mem _ (List.mem_singleton.2 rfl)
  refine ⟨_, ready_exec h, fun r hr x hx v hv => ready_pk444Luma h hl hr hx hv,
    fun g hg i hi k hk => ?_, fun a ha ha' => ready_pk444Outside h rfl ha ha'⟩
  have hj : 2 * g + i < hgt / 2 := by omega
  have chromaAt : ∀ c, c < 2 → ∀ v,
      rsCi p.coefC (src (1 + c) (4 * g + i) (2 * k)) (src (1 + c) (4 * g + i + 2) (2 * k))
        (if i = 0 then (1, 3) else (3, 1)) = some v →
      word16 (doneMem (.cvtPk444wI nt) s un).read (chroma + (2 * g + i) * dp + 4 * k + 2 * c) = v := by
    intro c hc2 v hv
    refine ready_pk444Chroma h hc hj hk hc2 ?_ (rescale_lt hv)
    rw [fieldUp_eq hi, fieldDown_eq hi, fieldWeight_eq hi]
    exact hv
  exact ⟨chromaAt 0 (by decide), chromaAt 1 (by decide)⟩

end Sys2Proof.Machine
end

section
/-! SUPPORT. Proofs about cropping (95_test_vectors.md S6; 20_memory.md R66, R69): it commutes with the three progressive
conversions. -/

namespace Sys2Proof.Machine

/-! ### The full frame of a cropped descriptor -/

/-- The descriptor of the whole source frame of `d`, with another destination (S6). -/
def fullFrame (d : Descriptor) (dst : Word64) (pitch height : Word32) : Descriptor :=
  { d with cropL := 0, cropT := 0, cropR := 0, cropB := 0, dst0 := dst, dstPitchY := pitch, dstHeight := height }

theorem ready_check {i : Instr} {s : State} {un : UnitState} (h : ready i s un) :
    (planOf i s.params un.latch).check = none := by
  obtain ⟨-, -, hc, -, -⟩ := h
  exact hc

/-- PARITY passed: the crop has even offsets. -/
theorem even_crop {p : Plan} {d : Descriptor} (hc : p.check = none) (hp : (anyOddGeometry d, Cause.parity) ∈ p.pre) :
    d.cropT.toNat % 2 = 0 ∧ d.cropL.toNat % 2 = 0 := by
  have hodd : ¬ oddGeometry d := fun ho => by
    obtain ⟨hpre, -⟩ := (Plan.check_eq_none_iff p).1 hc
    exact Bool.false_ne_true ((hpre _ hp).symm.trans ((anyOddGeometry_iff d).2 ho))
  unfold oddGeometry at hodd
  omega

section FullFrame
variable (d : Descriptor) (dst : Word64) (pitch height : Word32)

@[simp] theorem croppedWidth_fullFrame : croppedWidth (fullFrame d dst pitch height) = d.width.toNat := rfl
@[simp] theorem croppedHeight_fullFrame : croppedHeight (fullFrame d dst pitch height) = d.height.toNat := rfl

variable {d}

theorem row_lt_height {r : Nat} (hr : r < croppedHeight d) : d.cropT.toNat + r < d.height.toNat := by
  unfold croppedHeight at hr
  omega

theorem col_lt_width {x : Nat} (hx : x < croppedWidth d) : d.cropL.toNat + x < d.width.toNat := by
  unfold croppedWidth at hx
  omega

theorem row_lt_half_height {j : Nat} (hj : j < croppedHeight d / 2) :
    d.cropT.toNat / 2 + j < d.height.toNat / 2 := by
  unfold croppedHeight at hj
  omega

theorem col_lt_half_width {k : Nat} (hk : k < croppedWidth d / 2) : d.cropL.toNat / 2 + k < d.width.toNat / 2 := by
  unfold croppedWidth at hk
  omega

/-! ### A source sample of the cropped region is one of the full frame -/

variable (d)

theorem srcStart_fullFrame (base : Word64) (p : Word32) (top left r : Nat) :
    srcStart base p 0 0 + (top + r) * p.toNat + left = srcStart base p top left + r * p.toNat := by
  simp only [srcStart]
  ring

theorem p422Luma_fullFrame (r x : Nat) :
    p422Luma (fullFrame d dst pitch height) (d.cropT.toNat + r) (d.cropL.toNat + x) = p422Luma d r x := by
  have h := srcStart_fullFrame d.src0 d.srcPitchY d.cropT.toNat (2 * d.cropL.toNat) r
  simp only [p422Luma, p422Start, fullFrame, BitVec.ofNat_eq_ofNat, BitVec.toNat_ofNat, Nat.zero_mod, Nat.mul_zero]
  omega

theorem p422Chroma_fullFrame (r x : Nat) :
    p422Chroma (fullFrame d dst pitch height) (d.cropT.toNat + r) (d.cropL.toNat + x) = p422Chroma d r x :=
  congrArg (· + 1) (p422Luma_fullFrame d dst pitch height r x)

theorem pl420Luma_fullFrame (r x : Nat) :
    pl420LumaStart (fullFrame d dst pitch height) + (d.cropT.toNat + r) * d.srcPitchY.toNat + (d.cropL.toNat + x) =
      pl420LumaStart d + r * d.srcPitchY.toNat + x := by
  have h := srcStart_fullFrame d.src0 d.srcPitchY d.cropT.toNat d.cropL.toNat r
  simp only [pl420LumaStart, fullFrame, BitVec.ofNat_eq_ofNat, BitVec.toNat_ofNat, Nat.zero_mod]
  omega

theorem pl420ChromaStart_fullFrame (base : Word64) (j k : Nat) :
    pl420ChromaStart base (fullFrame d dst pitch height) + (d.cropT.toNat / 2 + j) * d.srcPitchC.toNat +
        (d.cropL.toNat / 2 + k) =
      pl420ChromaStart base d + j * d.srcPitchC.toNat + k := by
  have h := srcStart_fullFrame base d.srcPitchC (d.cropT.toNat / 2) (d.cropL.toNat / 2) j
  simp only [pl420ChromaStart, fullFrame, BitVec.ofNat_eq_ofNat, BitVec.toNat_ofNat, Nat.zero_mod, Nat.zero_div]
  omega

theorem pk444Channel_fullFrame (c r x : Nat) :
    pk444Channel (fullFrame d dst pitch height) c (d.cropT.toNat + r) (d.cropL.toNat + x) = pk444Channel d c r x := by
  have h := srcStart_fullFrame d.src0 d.srcPitchY d.cropT.toNat (6 * d.cropL.toNat) r
  simp only [pk444Channel, pk444Start, fullFrame, BitVec.ofNat_eq_ofNat, BitVec.toNat_ofNat, Nat.zero_mod,
    Nat.mul_zero]
  omega

/-- Byte `x` of a chroma row is in the same place of its pair in the full frame (R161), the crop being even. -/
theorem pl420ChromaDst_sample_fullFrame (hL : d.cropL.toNat % 2 = 0) (j x : Nat) :
    (pl420ChromaDst (fullFrame d dst pitch height)).sample (d.cropT.toNat / 2 + j) (d.cropL.toNat + x) =
      (pl420ChromaDst d).sample j x := by
  have hmod : (d.cropL.toNat + x) % 2 = x % 2 := by omega
  have hdiv : (d.cropL.toNat + x) / 2 = d.cropL.toNat / 2 + x / 2 := by omega
  have hplane := fun base => pl420ChromaStart_fullFrame d dst pitch height base j (x / 2)
  simp only [pl420ChromaDst, hmod, hdiv, pl420U, pl420V, ← hplane]
  rfl

end FullFrame

/-! ### Byte planes: the region's bytes at the crop's place -/

/-- The byte of a one-byte sample whose rule gives a value. -/
theorem ready_sample8 {i : Instr} {s : State} {un : UnitState} (h : ready i s un) {q : DstPlane}
    (hq : q ∈ (planOf i s.params un.latch).dst) (h1 : q.bytes = 1) {r x v : Nat} (hr : r < q.rows) (hx : x < q.cols)
    (hs : (q.sample r x).value (fun a => readLE s.mem.read a 1) = some v) :
    (doneMem i s un).read (q.start + r * q.pitch + x) = byteOfLE v 0 := by
  have hread := ready_read h hq hr (b := x) (by rwa [h1, Nat.mul_one])
  simpa [DstPlane.byteWrite, h1, hs, Footprint.addr, DstPlane.fp, Nat.mod_one] using hread

/-- Memory `m`'s luma and chroma bytes at the destination of `d` are those of `m'` at the crop's place in the destination
of `full` (S6). -/
def SameAtCrop (d full : Descriptor) (m m' : Memory) : Prop :=
  (∀ r, r < croppedHeight d → ∀ x, x < croppedWidth d →
    m.read (d.dst0.toNat + r * d.dstPitchY.toNat + x) =
      m'.read (full.dst0.toNat + (d.cropT.toNat + r) * full.dstPitchY.toNat + (d.cropL.toNat + x))) ∧
  ∀ j, j < croppedHeight d / 2 → ∀ x, x < croppedWidth d →
    m.read (cbase d + j * d.dstPitchY.toNat + x) =
      m'.read (cbase full + (d.cropT.toNat / 2 + j) * full.dstPitchY.toNat + (d.cropL.toNat + x))

/-- A destination plane of bytes of an 8-bit operation (R71): luma or chroma. -/
def bytePlane (d : Descriptor) (start rows : Nat) (sample : Nat → Nat → Sample) : DstPlane :=
  { base := d.dst0, start := start, pitch := d.dstPitchY.toNat, rows := rows, cols := outW d, bytes := 1,
    sample := sample }

/-- The luma and the chroma plane of an 8-bit operation (R71), from the sample each writes at a row and a column. -/
def bytePlanes (d : Descriptor) (luma chroma : Nat → Nat → Sample) : List DstPlane :=
  [bytePlane d d.dst0.toNat (outH d) luma, bytePlane d (cbase d) (outH d / 2) chroma]

theorem luma_mem_bytePlanes (d : Descriptor) (luma chroma : Nat → Nat → Sample) :
    bytePlane d d.dst0.toNat (outH d) luma ∈ bytePlanes d luma chroma := List.mem_cons_self ..

theorem chroma_mem_bytePlanes (d : Descriptor) (luma chroma : Nat → Nat → Sample) :
    bytePlane d (cbase d) (outH d / 2) chroma ∈ bytePlanes d luma chroma :=
  List.mem_cons_of_mem _ (List.mem_singleton.2 rfl)

section Crop
variable {i : Instr} {s s' : State} {un un' : UnitState} {dst : Word64} {pitch height : Word32}
  (hfull : un'.latch = fullFrame un.latch dst pitch height) (hmem : s'.mem = s.mem)
  (h : ready i s un) (h' : ready i s' un')
include hfull hmem h h'

/-- A byte of a row of the region, written from the sample the full frame's operation writes at the crop's place. -/
theorem read_eq_at_crop {start rows start' rows' : Nat} {f f' : Nat → Nat → Sample}
    (hq : bytePlane un.latch start rows f ∈ (planOf i s.params un.latch).dst)
    (hq' : bytePlane un'.latch start' rows' f' ∈ (planOf i s'.params un'.latch).dst) {r r' x : Nat} (hr : r < rows)
    (hr' : r' < rows') (hx : x < croppedWidth un.latch) (hs : f' r' (un.latch.cropL.toNat + x) = f r x)
    (hv : ∃ v, (f r x).value (fun a => readLE s.mem.read a 1) = some v) :
    (doneMem i s un).read (start + r * un.latch.dstPitchY.toNat + x) =
      (doneMem i s' un').read (start' + r' * un'.latch.dstPitchY.toNat + (un.latch.cropL.toNat + x)) := by
  obtain ⟨v, hv⟩ := hv
  have hx' : un.latch.cropL.toNat + x < outW un'.latch := by
    rw [outW_eq, hfull]
    exact col_lt_width hx
  have hv' : (f' r' (un.latch.cropL.toNat + x)).value (fun a => readLE s'.mem.read a 1) = some v := by
    rw [hs, hmem, hv]
  rw [← outW_eq] at hx
  exact (ready_sample8 h hq rfl hr hx hv).trans (ready_sample8 h' hq' rfl hr' hx' hv').symm

/-- Where the full frame's operation writes the region's samples at the crop's place, the bytes are the same. -/
theorem sameAtCrop_of_samples {luma chroma luma' chroma' : Nat → Nat → Sample}
    (hd : (planOf i s.params un.latch).dst = bytePlanes un.latch luma chroma)
    (hd' : (planOf i s'.params un'.latch).dst = bytePlanes un'.latch luma' chroma')
    (hl : ∀ r x, luma' (un.latch.cropT.toNat + r) (un.latch.cropL.toNat + x) = luma r x)
    (hc : ∀ j x, chroma' (un.latch.cropT.toNat / 2 + j) (un.latch.cropL.toNat + x) = chroma j x)
    (hlv : ∀ r x, ∃ v, (luma r x).value (fun a => readLE s.mem.read a 1) = some v)
    (hcv : ∀ j x, ∃ v, (chroma j x).value (fun a => readLE s.mem.read a 1) = some v) :
    SameAtCrop un.latch un'.latch (doneMem i s un) (doneMem i s' un') := by
  have hheight : outH un'.latch = un.latch.height.toNat := by rw [outH_eq, hfull, croppedHeight_fullFrame]
  refine ⟨fun r hr x hx => ?_, fun j hj x hx => ?_⟩
  · refine read_eq_at_crop hfull hmem h h' (hd ▸ luma_mem_bytePlanes un.latch luma chroma)
      (hd' ▸ luma_mem_bytePlanes un'.latch luma' chroma') ?_ ?_ hx (hl r x) (hlv r x)
    · rwa [outH_eq]
    · rw [hheight]
      exact row_lt_height hr
  · refine read_eq_at_crop hfull hmem h h' (hd ▸ chroma_mem_bytePlanes un.latch luma chroma)
      (hd' ▸ chroma_mem_bytePlanes un'.latch luma' chroma') ?_ ?_ hx (hc j x) (hcv j x)
    · rwa [outH_eq]
    · rw [hheight]
      exact row_lt_half_height hj

end Crop

section CropBytes
variable {nt : StorePolicy} {s s' : State} {un un' : UnitState} {dst : Word64} {pitch height : Word32}
  (hfull : un'.latch = fullFrame un.latch dst pitch height) (hmem : s'.mem = s.mem)
include hfull hmem

theorem cvtP422_sameAtCrop (h : ready (.cvtP422 nt) s un) (h' : ready (.cvtP422 nt) s' un') :
    SameAtCrop un.latch un'.latch (doneMem (.cvtP422 nt) s un) (doneMem (.cvtP422 nt) s' un') := by
  obtain ⟨hT, -⟩ := even_crop (ready_check h) (List.mem_cons_of_mem _ (List.mem_cons_self ..))
  refine sameAtCrop_of_samples hfull hmem h h' rfl rfl (fun r x => ?_) (fun j x => ?_) (fun _ _ => ⟨_, rfl⟩)
    (fun _ _ => ⟨_, rfl⟩)
  · simp only [hfull, p422Luma_fullFrame]
  · have hup : 2 * (un.latch.cropT.toNat / 2 + j) = un.latch.cropT.toNat + 2 * j := by omega
    have hdown : un.latch.cropT.toNat + 2 * j + 1 = un.latch.cropT.toNat + (2 * j + 1) := rfl
    simp only [hfull, hup, hdown, p422Chroma_fullFrame]

theorem cvtPl420_sameAtCrop (h : ready (.cvtPl420 nt) s un) (h' : ready (.cvtPl420 nt) s' un') :
    SameAtCrop un.latch un'.latch (doneMem (.cvtPl420 nt) s un) (doneMem (.cvtPl420 nt) s' un') := by
  obtain ⟨-, hL⟩ := even_crop (ready_check h) (List.mem_cons_of_mem _ (List.mem_cons_self ..))
  refine sameAtCrop_of_samples hfull hmem h h' rfl rfl (fun r x => ?_) (fun j x => ?_) (fun _ _ => ⟨_, rfl⟩)
    (fun j x => ?_)
  · simp only [hfull, ← pl420Luma_fullFrame un.latch dst pitch height r x]
    rfl
  · have hsample := pl420ChromaDst_sample_fullFrame un.latch dst pitch height hL j x
    rw [← hfull] at hsample
    exact hsample
  · split <;> exact ⟨_, rfl⟩

end CropBytes

/-! ### Exact rescales (R199) -/

theorem in32_iff {v : Int} : in32 v = true ↔ -2 ^ 31 ≤ v ∧ v ≤ 2 ^ 31 - 1 := by
  simp [in32]

theorem bias_eq (k : Nat) : bias k = if k = 0 then 0 else 2 ^ (k - 1) := by
  cases k <;> rfl

/-- Where every intermediate fits, a rescale gives a value. -/
theorem rescale_of_fit {c : Config.Coef} {k : Nat} {sum : Int} (h : intermediatesFit c k sum) :
    ∃ v, rescale c k sum = some v := by
  obtain ⟨hsum, hprod, hbiased, hout⟩ := h
  rw [← bias_eq] at hbiased hout
  have hshift : (sum * c.mul.toInt + bias k) >>> k = (sum * c.mul.toInt + bias k) / 2 ^ k := by
    simp [Int.shiftRight_eq_div_pow]
  simp [rescale, hshift, in32_iff.2 hsum, in32_iff.2 hprod, in32_iff.2 hbiased, in32_iff.2 hout]

/-! ### The crop of CVT.PK444W.SP420W -/

section Pk444Crop
variable {nt : StorePolicy} {s s' : State} {un un' : UnitState} {dst : Word64} {pitch height : Word32}
  (hfull : un'.latch = fullFrame un.latch dst pitch height) (hmem : s'.mem = s.mem) (hparams : s'.params = s.params)
include hfull hmem hparams

theorem pk444Sample_fullFrame (c r x : Nat) :
    pk444Sample s' un'.latch c (un.latch.cropT.toNat + r) (un.latch.cropL.toNat + x) = pk444Sample s un.latch c r x := by
  simp only [pk444Sample, hfull, hmem, hparams, pk444Channel_fullFrame]

theorem cvtPk444w_luma_sameAtCrop (h : ready (.cvtPk444w nt) s un) (h' : ready (.cvtPk444w nt) s' un') {r x : Nat}
    (hr : r < croppedHeight un.latch) (hx : x < croppedWidth un.latch)
    (hfit : intermediatesFit s.params.coefY s.params.coefY.shift.val (pk444Sample s un.latch 0 r x)) :
    word16 (doneMem (.cvtPk444w nt) s un).read (un.latch.dst0.toNat + r * un.latch.dstPitchY.toNat + 2 * x) =
      word16 (doneMem (.cvtPk444w nt) s' un').read (un'.latch.dst0.toNat +
        (un.latch.cropT.toNat + r) * un'.latch.dstPitchY.toNat + 2 * (un.latch.cropL.toNat + x)) := by
  obtain ⟨v, hv⟩ := rescale_of_fit hfit
  rw [ready_pk444Luma h (List.mem_cons_self ..) hr hx hv,
    ready_pk444Luma h' (List.mem_cons_self ..) (by simpa [hfull] using row_lt_height hr)
      (by simpa [hfull] using col_lt_width hx) (v := v)]
  rw [pk444Sample_fullFrame hfull hmem hparams, hparams]
  exact hv

theorem cvtPk444w_chroma_sameAtCrop (h : ready (.cvtPk444w nt) s un) (h' : ready (.cvtPk444w nt) s' un') {j k c : Nat}
    (hj : j < croppedHeight un.latch / 2) (hk : k < croppedWidth un.latch / 2) (hc : c < 2)
    (hfit : intermediatesFit s.params.coefC (s.params.coefC.shift.val + 1)
      (pk444Sample s un.latch (1 + c) (2 * j) (2 * k) + pk444Sample s un.latch (1 + c) (2 * j + 1) (2 * k))) :
    word16 (doneMem (.cvtPk444w nt) s un).read (cbase un.latch + j * un.latch.dstPitchY.toNat + 4 * k + 2 * c) =
      word16 (doneMem (.cvtPk444w nt) s' un').read (cbase un'.latch +
        (un.latch.cropT.toNat / 2 + j) * un'.latch.dstPitchY.toNat + 4 * (un.latch.cropL.toNat / 2 + k) + 2 * c) := by
  obtain ⟨v, hv⟩ := rescale_of_fit hfit
  obtain ⟨hT, hL⟩ := even_crop (ready_check h) (List.mem_cons_of_mem _ (List.mem_cons_self ..))
  have hup : 2 * (un.latch.cropT.toNat / 2 + j) = un.latch.cropT.toNat + 2 * j := by omega
  have hdown : un.latch.cropT.toNat + 2 * j + 1 = un.latch.cropT.toNat + (2 * j + 1) := rfl
  have hcol : 2 * (un.latch.cropL.toNat / 2 + k) = un.latch.cropL.toNat + 2 * k := by omega
  rw [ready_pk444Chroma h (List.mem_cons_of_mem _ (List.mem_singleton.2 rfl)) hj hk hc hv (rescale_lt hv),
    ready_pk444Chroma h' (List.mem_cons_of_mem _ (List.mem_singleton.2 rfl))
      (by simpa [hfull] using row_lt_half_height hj) (by simpa [hfull] using col_lt_half_width hk) hc (v := v) _
      (rescale_lt hv)]
  rw [hup, hdown, hcol, pk444Sample_fullFrame hfull hmem hparams, pk444Sample_fullFrame hfull hmem hparams, hparams]
  exact hv

end Pk444Crop

/-- Settles O37: a sample of the region is the full frame's at the crop's place, since both are computed from the same
source samples. -/
theorem cropCommutesWithConversion : Obligations.CropCommutesWithConversion := by
  unfold Obligations.CropCommutesWithConversion
  intro nt s un dst pitch height d full s' un' w hgt luma chroma fullLuma fullChroma
  have hfull : un'.latch = fullFrame un.latch dst pitch height := rfl
  have hmem : s'.mem = s.mem := rfl
  have hparams : s'.params = s.params := rfl
  refine ⟨fun i hi h h' => ⟨_, _, ready_exec h, ready_exec h', ?_⟩, fun h h' => ?_⟩
  · rcases hi with rfl | rfl
    · exact cvtP422_sameAtCrop hfull hmem h h'
    · exact cvtPl420_sameAtCrop hfull hmem h h'
  · exact ⟨_, _, ready_exec h, ready_exec h',
      fun r hr x hx => cvtPk444w_luma_sameAtCrop hfull hmem hparams h h' hr hx,
      fun j hj k hk c hc => cvtPk444w_chroma_sameAtCrop hfull hmem hparams h h' hj hk hc⟩

end Sys2Proof.Machine
end

section
/-! SUPPORT. Proofs about the command word (30_encoding.md R90 to R96): the decoder is the encoder's inverse, and what
a unit's turn makes of its latched CMD. -/

namespace Sys2Proof.Machine

/-! ### The fields of a command word (R90) -/

theorem cmdOp_eq (w : Word32) : cmdOp w = w.toNat % 256 := by
  simp [cmdOp]

theorem cmdRsvd_eq (w : Word32) : cmdRsvd w = w.toNat / 512 := by
  have := w.isLt
  simp only [cmdRsvd, BitVec.extractLsb'_toNat, Nat.shiftRight_eq_div_pow]
  omega

theorem policyBit_cmdNt (w : Word32) : (policyBit (cmdNt w)).toNat = w.toNat / 256 % 2 := by
  have hbit : w.getLsbD 8 = decide (w.toNat / 256 % 2 = 1) := Nat.testBit_eq_decide_div_mod_eq
  rcases Nat.mod_two_eq_zero_or_one (w.toNat / 256) with h | h <;>
    simp only [cmdNt, hbit, h] <;>
    rfl

/-- A command word is its three fields. -/
theorem cmd_toNat (w : Word32) :
    w.toNat = 512 * cmdRsvd w + 256 * (policyBit (cmdNt w)).toNat + cmdOp w := by
  rw [cmdOp_eq, cmdRsvd_eq, policyBit_cmdNt]
  omega

theorem encodedFields (i : Instr) : Laws.EncodedFields.Statement i := by
  cases i with
  | moveC => exact Laws.EncodedFields.moveC
  | moveNT => exact Laws.EncodedFields.moveNT
  | cvtP422 nt => exact Laws.EncodedFields.cvtP422 nt
  | cvtP422I nt => exact Laws.EncodedFields.cvtP422I nt
  | cvtPl420 nt => exact Laws.EncodedFields.cvtPl420 nt
  | cvtPl420Uv nt => exact Laws.EncodedFields.cvtPl420Uv nt
  | copyPl444 nt => exact Laws.EncodedFields.copyPl444 nt
  | cvtPk444w nt => exact Laws.EncodedFields.cvtPk444w nt
  | cvtPk444wI nt => exact Laws.EncodedFields.cvtPk444wI nt

theorem encode_toNat (i : Instr) :
    (encode i).toNat = 256 * (policyBit (ntOf i)).toNat + (opcodeOf i).toNat := by
  obtain ⟨-, hop, hnt, hrsvd⟩ := encodedFields i
  rw [cmd_toNat, hop, hnt, hrsvd, Nat.mul_zero, Nat.zero_add]

/-- The encoding is the one word with the operation's fields. -/
theorem eq_encode_iff (w : Word32) (i : Instr) :
    w = encode i ↔ (cmdOp w = (opcodeOf i).toNat ∧ cmdNt w = ntOf i) ∧ cmdRsvd w = 0 := by
  constructor
  · rintro rfl
    obtain ⟨-, hop, hnt, hrsvd⟩ := encodedFields i
    exact ⟨⟨hop, hnt⟩, hrsvd⟩
  · rintro ⟨⟨hop, hnt⟩, hrsvd⟩
    apply BitVec.eq_of_toNat_eq
    rw [encode_toNat, cmd_toNat, hop, hnt, hrsvd, Nat.mul_zero, Nat.zero_add]

/-! ### The opcode map (R92) and the decoder (R96) -/

theorem operationOf_eq_some_iff (op : Nat) (nt : StorePolicy) (i : Instr) :
    operationOf op nt = some i ↔ op = (opcodeOf i).toNat ∧ nt = ntOf i := by
  constructor
  · intro h
    unfold operationOf at h
    split at h
    · cases nt <;> cases h <;> exact ⟨rfl, rfl⟩
    case h_9 => cases h
    all_goals
      cases h
      exact ⟨rfl, rfl⟩
  · rintro ⟨rfl, rfl⟩
    cases i <;> rfl

/-- The OPs in the opcode map (R92). -/
def legalOps : List Nat := [0x01, 0x10, 0x11, 0x20, 0x21, 0x30, 0x40, 0x41]

/-- R94: an OP outside the map names no operation. -/
theorem operationOf_eq_none_iff (op : Nat) (nt : StorePolicy) : operationOf op nt = none ↔ op ∉ legalOps := by
  unfold operationOf
  split
  · cases nt <;> simp [legalOps]
  case h_9 h1 h2 h3 h4 h5 h6 h7 h8 => simpa [legalOps] using ⟨h1, h2, h3, h4, h5, h6, h7, h8⟩
  all_goals simp [legalOps]

theorem decode_eq_ok_iff (w : Word32) (i : Instr) :
    decode w = .ok i ↔ namedOperation w = some i ∧ cmdRsvd w = 0 := by
  unfold decode
  split
  · next h => simp [h]
  · next j h => split <;> simp [*]

theorem decode_of_illegal {w : Word32} (h : w.toNat % 256 ∉ legalOps) : decode w = .error .illegalOpcode := by
  have hnone : namedOperation w = none := by rwa [namedOperation, operationOf_eq_none_iff, cmdOp_eq]
  rw [decode, hnone]

theorem decode_of_reserved {w : Word32} (h : w.toNat % 256 ∈ legalOps) (hr : w.toNat / 512 ≠ 0) :
    decode w = .error .reservedBits := by
  have hsome : namedOperation w ≠ none := by
    rw [namedOperation, Ne, operationOf_eq_none_iff, cmdOp_eq, not_not]
    exact h
  obtain ⟨i, hi⟩ := Option.ne_none_iff_exists'.1 hsome
  simp only [decode, hi, cmdRsvd_eq, if_neg hr]

/-- Settles O1: either side says that the word has the operation's OP and NT, and RSVD 0. -/
theorem decodeIsExactlyEncode : Obligations.DecodeIsExactlyEncode := by
  unfold Obligations.DecodeIsExactlyEncode
  intro w i
  rw [decode_eq_ok_iff, namedOperation, operationOf_eq_some_iff, eq_encode_iff]

/-- Settles O2: each word is its row's encoding. -/
theorem opcodeMapWords : Obligations.OpcodeMapWords := by
  unfold Obligations.OpcodeMapWords
  simp only [decodeIsExactlyEncode _ _]
  decide

/-! ### The turn of a unit with a latched command (R90, R94, R95) -/

theorem ready_of_busy {un : UnitState} (hb : un.busy = true) (hs : un.stuck = false) : un.ready = true := by
  simp [UnitState.ready, hb, hs]

/-- The turn of a unit with a step, on a command the decoder rejects, is that fault (R222). -/
theorem unitStep_rejected {s : State} {u : Nat} {un : UnitState} {e : DecodeError} (hu : s.units[u]? = some un)
    (hr : un.ready = true) (hd : decode un.latch.cmd = .error e) :
    unitStep u s = .next (afterFault { s with cur := u } un (causeOfDecodeError e)) := by
  simp only [unitStep, hu, hr, if_true, hd, raiseFault_eq_afterFault]

/-- Settles O3: the decoder rejects the word. -/
theorem illegalOpcodeFaults : Obligations.IllegalOpcodeFaults := by
  unfold Obligations.IllegalOpcodeFaults
  intro s u un hu hb hs hop
  rw [step_unitTurnNext hu]
  exact unitStep_rejected hu (ready_of_busy hb hs) (decode_of_illegal hop)

/-- Settles O4: the decoder rejects the word; and CMD keeps the low 32 bits of a store to its slot. -/
theorem reservedBitsFault : Obligations.ReservedBitsFault := by
  unfold Obligations.ReservedBitsFault
  intro s u un hu
  refine ⟨fun hb hs hop hrsvd => ?_, fun v => ?_⟩
  · rw [step_unitTurnNext hu]
    exact unitStep_rejected hu (ready_of_busy hb hs) (decode_of_reserved hop hrsvd)
  · rw [storeSlot_eq (r := .cmd) hu rfl (by decide)]
    exact ⟨_, setUnit_get hu, BitVec.toNat_setWidth 32 v⟩

/-- Settles O5: the unit has a step, and its word decodes. -/
theorem stepRunsDecodedCommand : Obligations.StepRunsDecodedCommand := by
  unfold Obligations.StepRunsDecodedCommand
  intro s u un i hu hb hs hd
  rw [step_unitTurnNext hu]
  exact unitStep_decoded hu (ready_of_busy hb hs) hd

end Sys2Proof.Machine
end

section
/-! SUPPORT. Proofs about the registers an operation reads (30_encoding.md R91): its plan is made of those listed for
it, so its end depends on no other. -/

namespace Sys2Proof.Machine

/-! ### A plan is made of the registers listed for its operation -/

/-- The values of the registers `rs` of a unit's block, as loads return them, in a block of zeros. -/
def UnitState.only (un : UnitState) (rs : List Reg) : Descriptor :=
  rs.foldl (fun d r => d.store r (un.load r)) Descriptor.reset

theorem only_congr {un un' : UnitState} {rs : List Reg} (h : ∀ r ∈ rs, un.load r = un'.load r) :
    un.only rs = un'.only rs :=
  List.foldl_ext _ _ _ fun d r hr => by rw [h r hr]

/-- R91: the registers not listed for an operation may be 0. -/
theorem planOf_only (i : Instr) (p : Config.Params) (un : UnitState) :
    planOf i p (un.only (registersRead i)) = planOf i p un.regs := by
  cases i <;>
    simp only [UnitState.only, registersRead, List.foldl_cons, List.foldl_nil, Descriptor.store, UnitState.load,
      BitVec.setWidth_setWidth_of_le _ (show 32 ≤ 64 by decide), BitVec.setWidth_eq] <;>
    rfl

/-- Blocks that agree on the registers listed for an operation have the same plan. -/
theorem planOf_congr {i : Instr} {un un' : UnitState} (h : ∀ r ∈ registersRead i, un.load r = un'.load r)
    (p : Config.Params) : planOf i p un.regs = planOf i p un'.regs := by
  rw [← planOf_only, only_congr h, planOf_only]

/-! ### An operation on another latch of the same plan -/

section Relatch
variable (s : State) (un : UnitState) (d : Descriptor)

theorem modify_latch_set (x : UnitState) :
    (s.units.modify s.cur fun vn => { vn with latch := d }).set s.cur { x with latch := d } =
      (s.units.set s.cur x).modify s.cur fun vn => { vn with latch := d } := by
  apply List.ext_getElem?
  intro j
  by_cases hj : s.cur = j <;> simp [List.getElem?_set, hj]

theorem relatch_setUnit (x : UnitState) :
    (relatch s s.cur d).setUnit s.cur { x with latch := d } = relatch (s.setUnit s.cur x) s.cur d := by
  simp only [State.setUnit, relatch, modify_latch_set]

theorem relatch_raiseFault (c : Cause) :
    (relatch s s.cur d).raiseFault { un with latch := d } c = relatch (s.raiseFault un c) s.cur d :=
  congrArg (fun t : State => { t with record := (s.raiseFault un c).record })
    (relatch_setUnit s d (endInFault c un))

theorem relatch_finish (cells : List Host.Cell) :
    (relatch s s.cur d).finish { un with latch := d } cells = relatch (s.finish un cells) s.cur d :=
  congrArg (fun t : State => { t with mem := s.mem.writeAll cells, draws := s.draws + 1 })
    (relatch_setUnit s d (endInDone un))

theorem relatch_getStuck (cells : List Host.Cell) :
    (relatch s s.cur d).getStuck { un with latch := d } cells = relatch (s.getStuck un cells) s.cur d :=
  congrArg (fun t : State => { t with
      mem := s.mem.writeAll cells
      draws := s.draws + 1
      record := (s.getStuck un cells).record })
    (relatch_setUnit s d (endStuck un))

end Relatch

theorem relatch_get {s : State} {un : UnitState} (hu : s.units[s.cur]? = some un) (d : Descriptor) :
    (relatch s s.cur d).units[(relatch s s.cur d).cur]? = some { un with latch := d } := by
  simp [relatch, hu]

/-- With another latch of the same plan, an operation ends the same way, but for the latch. -/
theorem runPlan_relatch {plan : Config.Params → Descriptor → Plan} {s t : State} {un : UnitState} {d : Descriptor}
    (hu : s.units[s.cur]? = some un) (hp : plan s.params d = plan s.params un.latch) (h : runPlan plan s = .next t) :
    runPlan plan (relatch s s.cur d) = .next (relatch t s.cur d) := by
  have hu' := relatch_get hu d
  obtain ⟨un', hun', hcase⟩ := runPlan_cases h
  obtain rfl : un' = un := Option.some.inj (hun'.symm.trans hu)
  rw [← hp] at hcase
  rcases hcase with ⟨c, hc, rfl⟩ | ⟨hc, ha, rfl⟩ | ⟨hc, ha, rfl⟩
  · rw [runPlan_fault hu' hc, relatch_raiseFault]
  · rw [runPlan_done hu' hc ha, ← relatch_finish]
    rfl
  · rw [runPlan_stuck hu' hc ha, ← relatch_getStuck]
    rfl

/-- Settles O31: the plan is the same. -/
theorem unlistedRegistersIgnored : Obligations.UnlistedRegistersIgnored := by
  unfold Obligations.UnlistedRegistersIgnored
  intro i s t un d hu hagree h
  rw [exec_eq_runPlan] at h ⊢
  exact runPlan_relatch hu (planOf_congr hagree s.params) h

end Sys2Proof.Machine
end

section
/-! SUPPORT. Proofs about the host assembly (30_encoding.md R98, R99): WAIT, and what a command statement expands
to. -/

namespace Sys2Proof.Machine

/-! ### WAIT (R98) -/

/-- The host's turn at a WAIT on an idle unit's STATUS goes on. -/
theorem runStmt_wait_idle {s : State} {u slot : Nat} {un : UnitState} {addr : Word64} (hu : s.units[u]? = some un)
    (hb : un.busy = false) (ht : regTarget s addr 8 = .ok (u, slot)) (hr : regOfSlot slot = some .status)
    (rest : List HostStmt) : runStmt (.wait addr) rest s = .next (s.advance rest) := by
  simp only [runStmt, ht, loadSlot_status_busy hu hr, hb, Bool.false_eq_true, if_false]

/-- Settles O47: bit 0 of the load is BUSY. -/
theorem waitEndsWhenIdle : Obligations.WaitEndsWhenIdle := by
  unfold Obligations.WaitEndsWhenIdle
  intro s u slot un addr rest hu ht hr
  rw [step_hostTurnNext (regTarget_units_ne_nil ht)]
  cases hb : un.busy with
  | true => exact runStmt_wait_busy (s := hostGoesOn s (.wait addr :: rest)) hu hb ht hr rest
  | false => exact runStmt_wait_idle (s := hostGoesOn s (.wait addr :: rest)) hu hb ht hr rest

/-! ### The CMD value of a command statement (R92, R99) -/

theorem opcodeOf_withPolicy (nt : StorePolicy) (i : Instr) : opcodeOf (withPolicy nt i) = opcodeOf i := by
  cases i <;> rfl

theorem ntOf_withPolicy (nt : StorePolicy) (i : Instr) :
    ntOf (withPolicy nt i) = if takesNt i then nt else ntOf i := by
  cases i <;> rfl

theorem takesNt_eq_false_iff (i : Instr) : takesNt i = false ↔ i = .moveC ∨ i = .moveNT := by
  cases i <;> simp [takesNt]

/-- The policy of an accepted statement: MOVE.NT's, or the key `nt`'s, which MOVE.C and MOVE.NT do not accept. -/
theorem policyBit_of_ntOk {c : Command} (h : c.ntOk = true) :
    (policyBit (ntOf (withPolicy (c.nt.getD .cached) c.op))).toNat =
      if c.op = .moveNT ∨ c.nt = some .nonTemporal then 1 else 0 := by
  rw [ntOf_withPolicy]
  cases htakes : takesNt c.op with
  | false =>
    have hnone : c.nt = none := by simpa [Command.ntOk, htakes] using h
    rcases (takesNt_eq_false_iff _).1 htakes with hop | hop <;> simp [hop, hnone, ntOf, policyBit]
  | true =>
    have hop : c.op ≠ .moveNT := fun hop => by simp [hop, takesNt] at htakes
    rcases c.nt with _ | _ | _ <;> simp [hop, policyBit]

theorem encode_withPolicy_toNat (nt : StorePolicy) (i : Instr) :
    ((encode (withPolicy nt i)).setWidth 64).toNat =
      256 * (policyBit (ntOf (withPolicy nt i))).toNat + (opcodeOf i).toNat := by
  rw [BitVec.toNat_setWidth_of_le (by decide), encode_toNat, opcodeOf_withPolicy]

/-! ### The register stores of a command statement (R91, R99) -/

theorem registersRead_ascending (i : Instr) : (registersRead i).Pairwise fun p q => regOff p < regOff q := by
  cases i <;> simp only [registersRead] <;> decide

theorem argValue_of_not_crop (c : Command) {r : Reg} (hr : isCropReg r = false) :
    argValue c r = ((c.args.find? fun p => decide (p.1 = r)).map Prod.snd).getD 0 := by
  cases r
  case cropL | cropT | cropR | cropB => cases hr
  all_goals rfl

/-- A required key is given, and its value is the one stored. -/
theorem argValue_mem_args {c : Command} (h : c.keysGiven = true) {r : Reg} (hr : r ∈ registersRead c.op)
    (hcrop : isCropReg r = false) : (r, argValue c r) ∈ c.args := by
  have hreq : r ∈ requiredKeys c.op := by simp [requiredKeys, hr, hcrop]
  obtain ⟨q, hq, rfl⟩ : ∃ q ∈ c.args, q.1 = r := by
    simpa using List.all_eq_true.1 h r hreq
  cases hfind : c.args.find? fun p => decide (p.1 = q.1) with
  | none => simpa using List.find?_eq_none.1 hfind q hq
  | some v =>
    have hkey : v.1 = q.1 := by simpa using List.find?_some hfind
    rw [argValue_of_not_crop c hcrop, hfind, ← hkey]
    exact List.mem_of_find?_eq_some hfind

theorem keysGiven_and_ntOk_of_wf {c : Command} (h : c.wf = true) : c.keysGiven = true ∧ c.ntOk = true := by
  simp only [Command.wf, Bool.and_eq_true] at h
  obtain ⟨⟨⟨⟨hgiven, -⟩, -⟩, -⟩, hnt⟩ := h
  exact ⟨hgiven, hnt⟩

/-- Settles O59: `expand` on an accepted statement, its stores and its CMD value. -/
theorem commandStatementExpands : Obligations.CommandStatementExpands := by
  unfold Obligations.CommandStatementExpands
  intro base c
  refine ⟨fun hwf => by simp [expand, hwf], fun hwf => ?_⟩
  obtain ⟨hgiven, hnt⟩ := keysGiven_and_ntOk_of_wf hwf
  have hcmd := encode_withPolicy_toNat (c.nt.getD .cached) c.op
  have hop := (opcodeOf c.op).isLt
  refine ⟨registersRead c.op, _, by rw [expand, if_pos hwf]; rfl, ?_, ?_, registersRead_ascending c.op,
    fun r => Iff.rfl, fun r hr hcrop => argValue_mem_args hgiven hr (by simpa [isCropReg] using hcrop),
    fun hnone r hr => ?_, fun cr hsome => ?_⟩
  · rw [hcmd, encode_toNat]
    omega
  · rw [hcmd, ← policyBit_of_ntOk hnt]
    omega
  · simp only [List.mem_cons, List.not_mem_nil, or_false] at hr
    rcases hr with rfl | rfl | rfl | rfl <;> simp [argValue, hnone]
  · simp [argValue, hsome]

end Sys2Proof.Machine
end

section
/-! SUPPORT. Proofs about the Bulk Row Mover (40_bulk_row_mover.md): the copy of MOVE.C and MOVE.NT (R125, R126), their
checks in order (R222), and the access pattern that leaves the same memory (R122 to R124). -/

namespace Sys2Proof.Machine

/-! ### A footprint of one row (R70) -/

/-- The footprint of the `n` bytes from `start`: FS0 and FD0 of R125. -/
def rowFootprint (start n : Nat) : Footprint :=
  { start := start, pitch := 0, rows := 1, rowbytes := n }

theorem rowFootprint_has (start n a : Nat) : (rowFootprint start n).has a = true ↔ start ≤ a ∧ a < start + n := by
  simp [rowFootprint, Footprint.has, Footprint.addr]

theorem rowFootprint_isEmpty (start n : Nat) : (rowFootprint start n).isEmpty = false ↔ 0 < n := by
  simp only [Footprint.isEmpty, Bool.or_eq_false_iff, decide_eq_false_iff_not]
  simp only [rowFootprint]
  omega

theorem rowFootprint_wraps (start n : Nat) : (rowFootprint start n).wraps = true ↔ 0 < n ∧ 2 ^ 64 < start + n := by
  simp only [Footprint.wraps_iff, rowFootprint_has, Config.spaceBytes]
  constructor
  · rintro ⟨a, ⟨hle, hlt⟩, hspace⟩
    exact ⟨by omega, by omega⟩
  · rintro ⟨hn, hlt⟩
    exact ⟨start + n - 1, by omega, by omega⟩

theorem rowFootprint_overlaps (a b n : Nat) :
    (rowFootprint a n).overlaps (rowFootprint b n) = true ↔ 0 < n ∧ a < b + n ∧ b < a + n := by
  simp only [Footprint.overlaps_iff, rowFootprint_has]
  constructor
  · rintro ⟨x, hxa, hxb⟩
    omega
  · rintro ⟨hn, hab, hba⟩
    exact ⟨max a b, by omega, by omega⟩

/-! ### The copy of MOVE.C and MOVE.NT (R125, R126) -/

theorem movePlan_dstFps (d : Descriptor) : (movePlan d).dstFps = [rowFootprint d.dst0.toNat d.size.toNat] := by
  simp [Plan.dstFps, movePlan, DstPlane.fp, rowFootprint]

theorem movePlan_planes (d : Descriptor) :
    (movePlan d).planes =
      [(d.src0, rowFootprint d.src0.toNat d.size.toNat), (d.dst0, rowFootprint d.dst0.toNat d.size.toNat)] := by
  simp [Plan.planes, movePlan, DstPlane.fp, rowFootprint]

/-- A ready operation whose plan is the mover's ends DONE with the copy, and leaves every other byte. -/
theorem ready_move {i : Instr} {s : State} {un : UnitState} (hp : planOf i s.params un.latch = movePlan un.latch)
    (h : ready i s un) :
    ∃ m, exec i s = .next (afterDone s un m) ∧
      (∀ k, k < un.latch.size.toNat →
        m.read (un.latch.dst0.toNat + k) = s.mem.read (un.latch.src0.toNat + k)) ∧
      (∀ a, (∀ k, k < un.latch.size.toNat → a ≠ un.latch.dst0.toNat + k) → m.read a = s.mem.read a) := by
  refine ⟨_, ready_exec h, fun k hk => ?_, fun a ha => ready_outside h fun f hf => ?_⟩
  · have hcopy := ready_copy h (by rw [hp]; exact List.mem_singleton.2 rfl) rfl Nat.zero_lt_one hk rfl
    simpa using hcopy
  · rw [hp, movePlan_dstFps, List.mem_singleton] at hf
    rw [hf, ← Bool.not_eq_true, rowFootprint_has]
    rintro ⟨hle, hlt⟩
    exact ha (a - un.latch.dst0.toNat) (by omega) (by omega)

/-- Settles O15: `ready_move`. -/
theorem moveCCopies : Obligations.MoveCCopies := by
  unfold Obligations.MoveCCopies
  intro s un h
  exact ready_move rfl h

/-- Settles O16: the plan is MOVE.C's, so `ready_move` holds of it too. -/
theorem moveNTCopies : Obligations.MoveNTCopies := by
  unfold Obligations.MoveNTCopies
  intro s un h
  exact ready_move rfl h

/-! ### The first failing check, and only it (R222, R228) -/

/-- A computed check and a stated condition say the same: same cause, and the one fails where the other holds. -/
def checkAgrees (b : Bool × Cause) (p : Prop × Cause) : Prop :=
  (b.1 = true ↔ p.1) ∧ b.2 = p.2

/-- Checks that agree one by one have the same first failure. -/
theorem firstHolds_iff_firstFailing {l : List (Bool × Cause)} {checks : List (Prop × Cause)}
    (h : List.Forall₂ checkAgrees l checks) (c : Cause) : firstHolds checks c ↔ firstFailing l = some c := by
  induction h with
  | nil => simp [firstHolds, firstFailing]
  | @cons b p l checks hbp _ ih =>
    obtain ⟨failed, cause⟩ := b
    obtain ⟨holds, cause'⟩ := p
    obtain ⟨hiff, rfl⟩ : (failed = true ↔ holds) ∧ cause = cause' := hbp
    cases failed with
    | true => simp [firstHolds, firstFailing, ← hiff, eq_comm]
    | false => simp [firstHolds, firstFailing, ← hiff, ih]

/-- An operation whose CHECKS agree one by one with the stated ones raises the first that holds, and only it. -/
theorem raisesFirst_of_agrees {i : Instr} {s : State} {un : UnitState} {checks : List (Prop × Cause)}
    (hu : s.units[s.cur]? = some un)
    (h : List.Forall₂ checkAgrees ((planOf i s.params un.latch).pre ++
      [((planOf i s.params un.latch).nullPointer, .nullPointer), ((planOf i s.params un.latch).addrWrap, .addrWrap),
       ((planOf i s.params un.latch).overlap, .overlap)]) checks) :
    raisesFirst i s un checks := by
  have hcheck : ∀ c, firstHolds checks c ↔ (planOf i s.params un.latch).check = some c :=
    firstHolds_iff_firstFailing h
  rw [raisesFirst, exec_eq_runPlan]
  refine ⟨fun c hc => runPlan_fault hu ((hcheck c).1 hc), fun hnone => ?_⟩
  have hpass : (planOf i s.params un.latch).check = none :=
    Option.eq_none_iff_forall_ne_some.2 fun c hc => hnone c ((hcheck c).2 hc)
  cases hadm : (planOf i s.params un.latch).admittedBy s.admitted s.mem.read with
  | true => exact ⟨_, .inl (runPlan_done hu hpass hadm)⟩
  | false => exact ⟨_, .inr (runPlan_stuck hu hpass hadm)⟩

theorem movePlan_nullPointer (d : Descriptor) :
    (movePlan d).nullPointer = true ↔ 0 < d.size.toNat ∧ (d.src0.toNat = 0 ∨ d.dst0.toNat = 0) := by
  simp only [Plan.nullPointer, movePlan_planes, List.any_cons, List.any_nil, Bool.or_false, Bool.or_eq_true,
    Bool.and_eq_true, decide_eq_true_eq, Bool.not_eq_true', rowFootprint_isEmpty, BitVec.toNat_eq, BitVec.ofNat_eq_ofNat,
    BitVec.toNat_zero]
  rw [← or_and_right, and_comm]

theorem movePlan_addrWrap (d : Descriptor) :
    (movePlan d).addrWrap = true ↔ 0 < d.size.toNat ∧
      (2 ^ 64 < d.src0.toNat + d.size.toNat ∨ 2 ^ 64 < d.dst0.toNat + d.size.toNat) := by
  simp only [Plan.addrWrap, movePlan_planes, List.any_cons, List.any_nil, Bool.or_false, Bool.or_eq_true,
    rowFootprint_wraps, and_or_left]

theorem movePlan_overlap (d : Descriptor) :
    (movePlan d).overlap = true ↔ 0 < d.size.toNat ∧ d.src0.toNat < d.dst0.toNat + d.size.toNat ∧
      d.dst0.toNat < d.src0.toNat + d.size.toNat := by
  simp only [Plan.overlap, movePlan_planes, List.map_cons, List.map_nil, anyOverlap, List.any_cons, List.any_nil,
    Bool.or_false, rowFootprint_overlaps]

/-- Settles O24: the mover's only checks are the three of its planes, each as R125 states it. -/
theorem moveChecksInOrder : Obligations.MoveChecksInOrder := by
  unfold Obligations.MoveChecksInOrder
  intro i s un hi hu src dst size
  have hp : planOf i s.params un.latch = movePlan un.latch := by
    rcases hi with rfl | rfl <;> rfl
  refine raisesFirst_of_agrees hu ?_
  rw [hp]
  exact .cons ⟨movePlan_nullPointer _, rfl⟩ (.cons ⟨movePlan_addrWrap _, rfl⟩
    (.cons ⟨movePlan_overlap _, rfl⟩ .nil))

/-! ### The access pattern (R122, R123, R124) -/

theorem mem_pieceOffsets {first len i : Nat} : i ∈ pieceOffsets first len ↔ first ≤ i ∧ i < first + len := by
  simp only [pieceOffsets, List.mem_map, List.mem_range]
  constructor
  · rintro ⟨k, hk, rfl⟩
    omega
  · rintro ⟨hle, hlt⟩
    exact ⟨i - first, by omega, by omega⟩

/-- The bulk of R123: `n` chunks in a row cover the bytes from the first one's start to the last one's end. -/
theorem mem_chunkOffsets {first chunk n i : Nat} (hchunk : 0 < chunk) :
    i ∈ (List.range n).flatMap (fun k => pieceOffsets (first + k * chunk) chunk) ↔
      first ≤ i ∧ i < first + n * chunk := by
  simp only [List.mem_flatMap, List.mem_range, mem_pieceOffsets]
  constructor
  · rintro ⟨k, hk, hle, hlt⟩
    have hend : (k + 1) * chunk ≤ n * chunk := Nat.mul_le_mul_right _ hk
    rw [Nat.add_one_mul] at hend
    omega
  · rintro ⟨hle, hlt⟩
    have hk : (i - first) / chunk < n := (Nat.div_lt_iff_lt_mul hchunk).2 (by omega)
    have hdiv := Nat.div_add_mod' (i - first) chunk
    have hmod := Nat.mod_lt (i - first) hchunk
    exact ⟨(i - first) / chunk, hk, by omega, by omega⟩

/-- R124, full coverage: the pieces are the offsets below SIZE, some of them more than once. -/
theorem mem_moveOffsets {dst size chunk head tail : Nat} (hchunk : 0 < chunk) (hhead : headBytes dst ≤ head)
    (hheadSize : head ≤ size) (htail : tailRem dst size chunk ≤ tail) (htailSize : tail ≤ size) (i : Nat) :
    i ∈ moveOffsets dst size chunk head tail ↔ i < size := by
  have hbulk : chunkCount dst size chunk * chunk ≤ size - headBytes dst := Nat.div_mul_le_self _ _
  have hrem : tailRem dst size chunk = size - headBytes dst - chunkCount dst size chunk * chunk := rfl
  unfold moveOffsets
  split
  · simp [mem_pieceOffsets]
  · simp only [List.mem_append, mem_pieceOffsets, mem_chunkOffsets hchunk]
    split
    · simp only [List.not_mem_nil, or_false]
      omega
    · rw [mem_pieceOffsets]
      omega

/-- The cells of the per-byte copy at some offsets, each byte read before any is written. -/
def copyCells (src dst : Nat) (m : Memory) (offsets : List Nat) : List Host.Cell :=
  offsets.map fun i => (dst + i, m.read (src + i))

/-- R124: no source byte is a destination byte, so each byte re-read is the one of the beginning. -/
theorem copyOffsets_eq_writeAll {src dst size : Nat} (hsize : dst + size ≤ 2 ^ 64)
    (hdisj : src + size ≤ dst ∨ dst + size ≤ src) {offsets : List Nat} (hlt : ∀ i ∈ offsets, i < size) {m : Memory}
    (hm : m.wf = true) : copyOffsets src dst m offsets = m.writeAll (copyCells src dst m offsets) := by
  induction offsets generalizing m with
  | nil => rfl
  | cons i rest ih =>
    have hi := hlt i (List.mem_cons_self ..)
    have hrest : ∀ j ∈ rest, j < size := fun j hj => hlt j (List.mem_cons_of_mem _ hj)
    have hwf : (m.write (dst + i) (m.read (src + i))).wf = true :=
      Memory.wf_write hm (by rw [Config.spaceBytes]; omega) _
    have hsame : copyCells src dst (m.write (dst + i) (m.read (src + i))) rest = copyCells src dst m rest := by
      refine List.map_congr_left fun j hj => ?_
      have hj := hrest j hj
      rw [Memory.read_write_wf hm, if_neg (by omega)]
    calc copyOffsets src dst m (i :: rest)
        = copyOffsets src dst (m.write (dst + i) (m.read (src + i))) rest := rfl
      _ = (m.write (dst + i) (m.read (src + i))).writeAll (copyCells src dst m rest) := by rw [ih hrest hwf, hsame]
      _ = m.writeAll (copyCells src dst m (i :: rest)) := rfl

/-- Copies of the same offsets leave the same memory, whatever their order and repetitions (R73). -/
theorem copyOffsets_eq_of_mem_iff {src dst size : Nat} (hsize : dst + size ≤ 2 ^ 64)
    (hdisj : src + size ≤ dst ∨ dst + size ≤ src) {offsets offsets' : List Nat} (hlt : ∀ i ∈ offsets, i < size)
    (hmem : ∀ i, i ∈ offsets' ↔ i ∈ offsets) {m : Memory} (hm : m.wf = true) :
    copyOffsets src dst m offsets' = copyOffsets src dst m offsets := by
  rw [copyOffsets_eq_writeAll hsize hdisj hlt hm,
    copyOffsets_eq_writeAll hsize hdisj (fun i hi => hlt i ((hmem i).1 hi)) hm]
  refine Memory.writeAll_eq_of_mem_iff hm (fun c hc => ?_) (fun c hc d hd he => ?_) fun c => ?_
  · obtain ⟨i, hi, rfl⟩ := List.mem_map.1 hc
    have := hlt i hi
    show dst + i < 2 ^ 64
    omega
  · obtain ⟨i, -, rfl⟩ := List.mem_map.1 hc
    obtain ⟨j, -, rfl⟩ := List.mem_map.1 hd
    rw [Nat.add_left_cancel he]
  · simp only [copyCells, List.mem_map, hmem]

/-- Settles O39: the pieces and the per-byte copy have the same offsets (`mem_moveOffsets`). -/
theorem movePiecesLeaveTheSameMemory : Obligations.MovePiecesLeaveTheSameMemory := by
  unfold Obligations.MovePiecesLeaveTheSameMemory
  intro m src dst size chunk head tail hm hchunk hhead hheadSize htail htailSize hsize hdisj
  refine copyOffsets_eq_of_mem_iff hsize hdisj (fun i hi => List.mem_range.1 hi) (fun i => ?_) hm
  rw [mem_moveOffsets hchunk hhead hheadSize htail htailSize, List.mem_range]

end Sys2Proof.Machine
end

section
/-! SUPPORT. Proofs about the packed 4:2:2 conversions (41_packed422_to_sp420.md): the bytes CVT.P422.SP420 and its
interlaced form leave (R140 to R148), and their checks in order (R146). -/

namespace Sys2Proof.Machine

/-! ### The planes of the P422 operations at DONE (R147, R148) -/

section P422
variable {i : Instr} {s : State} {un : UnitState} (h : ready i s un)
include h

/-- R147, R148: a luma byte is the even byte of its source sample. -/
theorem ready_p422Luma (hq : p422LumaDst un.latch ∈ (planOf i s.params un.latch).dst) {r x : Nat}
    (hr : r < croppedHeight un.latch) (hx : x < croppedWidth un.latch) :
    (doneMem i s un).read (un.latch.dst0.toNat + r * un.latch.dstPitchY.toNat + x) =
      s.mem.read (p422Luma un.latch r x) := by
  rw [← outH_eq] at hr
  rw [← outW_eq] at hx
  exact ready_copy h hq rfl hr hx rfl

/-- A chroma byte is its row's rule on the odd bytes of the two source rows, where the rule gives a byte. -/
theorem ready_p422Chroma {up down : Nat → Nat} {rule : Nat → Nat → Nat → Nat}
    (hq : p422ChromaDst un.latch (fun j x => .two (p422Chroma un.latch (up j) x) (p422Chroma un.latch (down j) x)
      fun a b => some (rule j a b)) ∈ (planOf i s.params un.latch).dst)
    (hrule : ∀ j (a b : Byte), rule j a.toNat b.toNat < 256) {j x : Nat} (hj : j < croppedHeight un.latch / 2)
    (hx : x < croppedWidth un.latch) :
    ((doneMem i s un).read (cbase un.latch + j * un.latch.dstPitchY.toNat + x)).toNat =
      rule j (s.mem.read (p422Chroma un.latch (up j) x)).toNat (s.mem.read (p422Chroma un.latch (down j) x)).toNat := by
  rw [← outH_eq] at hj
  rw [← outW_eq] at hx
  exact ready_two h hq rfl hj hx rfl (hrule ..)

/-- R72: a byte in neither destination plane. -/
theorem ready_p422Outside {sample : Nat → Nat → Sample}
    (hd : (planOf i s.params un.latch).dst = [p422LumaDst un.latch, p422ChromaDst un.latch sample]) {a : Nat}
    (ha : ¬ inRows un.latch.dst0.toNat un.latch.dstPitchY.toNat (croppedHeight un.latch) (croppedWidth un.latch) a)
    (ha' : ¬ inRows (cbase un.latch) un.latch.dstPitchY.toNat (croppedHeight un.latch / 2) (croppedWidth un.latch) a) :
    (doneMem i s un).read a = s.mem.read a := by
  rw [← outH_eq, ← outW_eq, ← Nat.mul_one (outW _)] at ha ha'
  exact ready_outside_two h hd ha ha'

end P422

/-- Settles O17: `ready_p422Luma`, and `ready_p422Chroma` with the average of rows 2j and 2j + 1. -/
theorem cvtP422Converts : Obligations.CvtP422Converts := by
  unfold Obligations.CvtP422Converts
  intro nt s un h d yp dp w hgt start chroma
  have hl : p422LumaDst d ∈ (planOf (.cvtP422 nt) s.params d).dst := List.mem_cons_self ..
  refine ⟨_, ready_exec h, fun r hr x hx => ready_p422Luma h hl hr hx, fun j hj x hx => ?_,
    fun a ha ha' => ready_p422Outside h rfl ha ha'⟩
  exact ready_p422Chroma h (up := fun j => 2 * j) (down := fun j => 2 * j + 1) (rule := fun _ => avgU8)
    (List.mem_cons_of_mem _ (List.mem_singleton.2 rfl)) (fun _ => avgU8_lt) hj hx

/-! ### The fields of the interlaced form (R144, R145) -/

theorem tapU8_lt (a b : Nat) (w : Nat × Nat) : tapU8 a b w < 256 :=
  Nat.lt_succ_of_le (satU8_le _)

/-- R142, R145: the taps of the two fields, on bytes. -/
theorem tapU8_of_bytes (a b : Byte) :
    tapU8 a.toNat b.toNat (Config.weight 0) = (a.toNat + 3 * b.toNat + 2) >>> 2 ∧
      tapU8 a.toNat b.toNat (Config.weight 1) = (3 * a.toNat + b.toNat + 2) >>> 2 := by
  rw [Nat.shiftRight_eq_div_pow, Nat.shiftRight_eq_div_pow]
  exact tapU8_weight (Nat.le_of_lt_succ a.isLt) (Nat.le_of_lt_succ b.isLt)

/-- R148: chroma row `2g + k` is the tap of rows `4g + k` and `4g + k + 2` with the weights of field `k`. -/
theorem ready_p422Field {nt : StorePolicy} {s : State} {un : UnitState} (h : ready (.cvtP422I nt) s un) {g x k : Nat}
    (hk : k < 2) (hg : g < croppedHeight un.latch / 4) (hx : x < croppedWidth un.latch) :
    ((doneMem (.cvtP422I nt) s un).read (cbase un.latch + (2 * g + k) * un.latch.dstPitchY.toNat + x)).toNat =
      tapU8 (s.mem.read (p422Chroma un.latch (4 * g + k) x)).toNat
        (s.mem.read (p422Chroma un.latch (4 * g + k + 2) x)).toNat (Config.weight ⟨k, hk⟩) := by
  have hweight : fieldWeight (2 * g + k) = Config.weight ⟨k, hk⟩ :=
    congrArg Config.weight (Fin.ext (by simp only; omega))
  rw [← hweight, ← fieldDown_eq hk, ← fieldUp_eq hk]
  exact ready_p422Chroma h (rule := fun j a b => tapU8 a b (fieldWeight j))
    (List.mem_cons_of_mem _ (List.mem_singleton.2 rfl)) (fun _ _ _ => tapU8_lt ..) (by omega) hx

/-- Settles O18: `ready_p422Luma`, and `ready_p422Field` with the weights of each field. -/
theorem cvtP422InterlacedConverts : Obligations.CvtP422InterlacedConverts := by
  unfold Obligations.CvtP422InterlacedConverts
  intro nt s un h d yp dp w hgt start chroma
  have hl : p422LumaDst d ∈ (planOf (.cvtP422I nt) s.params d).dst := List.mem_cons_self ..
  refine ⟨_, ready_exec h, fun r hr x hx => ready_p422Luma h hl hr hx, fun g hg x hx => ⟨?_, ?_⟩,
    fun a ha ha' => ready_p422Outside h rfl ha ha'⟩
  · exact (ready_p422Field h (k := 0) (by decide) hg hx).trans (tapU8_of_bytes ..).1
  · exact (ready_p422Field h (k := 1) (by decide) hg hx).trans (tapU8_of_bytes ..).2

/-! ### Checks on the planes of an operation (R222, checks 8 to 10) -/

/-- A plane's base register and footprint as the rows of R71. -/
def planeRow (q : Word64 × Footprint) : PlaneRow :=
  { base := q.1.toNat, start := q.2.start, pitch := q.2.pitch, rows := q.2.rows, rowbytes := q.2.rowbytes }

theorem planeRow_covers (q : Word64 × Footprint) (a : Nat) : (planeRow q).covers a ↔ q.2.has a = true :=
  (has_iff_inRows q.2 a).symm

theorem Footprint.isEmpty_eq_false_iff (f : Footprint) : f.isEmpty = false ↔ ∃ a, f.has a = true := by
  refine ⟨fun h => ?_, fun ⟨a, ha⟩ => not_isEmpty_of_has ha⟩
  simp only [isEmpty, Bool.or_eq_false_iff, decide_eq_false_iff_not] at h
  exact ⟨_, (f.has_iff _).2 ⟨0, by omega, 0, by omega, rfl⟩⟩

theorem Plan.nullPointer_iff (p : Plan) :
    p.nullPointer = true ↔ ∃ r ∈ p.planes.map planeRow, r.base = 0 ∧ ∃ a, r.covers a := by
  simp only [nullPointer, List.any_eq_true, Bool.and_eq_true, decide_eq_true_eq, Bool.not_eq_true',
    Footprint.isEmpty_eq_false_iff, List.mem_map, exists_exists_and_eq_and, planeRow_covers]
  simp only [planeRow, BitVec.toNat_eq, BitVec.ofNat_eq_ofNat, BitVec.toNat_zero]

theorem Plan.addrWrap_iff (p : Plan) :
    p.addrWrap = true ↔ ∃ r ∈ p.planes.map planeRow, ∃ a, r.covers a ∧ 2 ^ 64 ≤ a := by
  simp only [addrWrap, List.any_eq_true, Footprint.wraps_iff, List.mem_map, exists_exists_and_eq_and,
    planeRow_covers, Config.spaceBytes]

theorem Plan.overlap_iff (p : Plan) :
    p.overlap = true ↔ ¬ (p.planes.map planeRow).Pairwise fun r r' => ∀ a, ¬ (r.covers a ∧ r'.covers a) := by
  rw [overlap, ← Bool.not_eq_false, anyOverlap_eq_false_iff, List.pairwise_map, List.pairwise_map]
  simp only [planeRow_covers, ← Bool.not_eq_true, Footprint.overlaps_iff, not_exists]

/-- An operation whose checks of orders 3 to 7 agree one by one with the stated ones, and whose planes are those stated,
raises the first of its checks that holds, and only it. -/
theorem raisesFirst_of_pre_agrees {i : Instr} {s : State} {un : UnitState} {checks : List (Prop × Cause)}
    {planes : List PlaneRow} (hu : s.units[s.cur]? = some un)
    (hpre : List.Forall₂ checkAgrees (planOf i s.params un.latch).pre checks)
    (hplanes : (planOf i s.params un.latch).planes.map planeRow = planes) :
    raisesFirst i s un (checks ++ pointerChecks planes) := by
  subst hplanes
  exact raisesFirst_of_agrees hu (List.rel_append hpre (.cons ⟨Plan.nullPointer_iff _, rfl⟩
    (.cons ⟨Plan.addrWrap_iff _, rfl⟩ (.cons ⟨Plan.overlap_iff _, rfl⟩ .nil))))

/-! ### The checks of the P422 operations (R146) -/

/-- The checks of orders 3 to 7, for either form's PARITY condition. -/
theorem p422Pre_agrees (d : Descriptor) {parity : Bool} {odd : Prop} (hparity : parity = true ↔ odd) :
    List.Forall₂ checkAgrees (p422Pre d parity)
      [(cropRangeFails d, .cropRange), (odd, .parity),
       (d.srcPitchY.toNat < 2 * d.width.toNat ∨ d.dstPitchY.toNat < croppedWidth d, .pitch),
       (d.dstHeight.toNat < croppedHeight d, .dstHeight)] :=
  .cons ⟨cropOutOfRange_iff d, rfl⟩ (.cons ⟨hparity, rfl⟩ (.cons ⟨by simp [outW_eq], rfl⟩
    (.cons ⟨by simp [outH_eq], rfl⟩ .nil)))

/-- FS0, FD0 and FD1 (R71) as the planes of a plan with either form's chroma samples. -/
theorem p422_planeRows {p : Plan} {d : Descriptor} {sample : Nat → Nat → Sample} (hsrc : p.src = [p422Src d])
    (hdst : p.dst = [p422LumaDst d, p422ChromaDst d sample]) :
    p.planes.map planeRow =
      [⟨d.src0.toNat, d.src0.toNat + d.cropT.toNat * d.srcPitchY.toNat + 2 * d.cropL.toNat, d.srcPitchY.toNat,
          croppedHeight d, 2 * croppedWidth d⟩,
       ⟨d.dst0.toNat, d.dst0.toNat, d.dstPitchY.toNat, croppedHeight d, croppedWidth d⟩,
       ⟨d.dst0.toNat, d.dst0.toNat + d.dstPitchY.toNat * d.dstHeight.toNat, d.dstPitchY.toNat, croppedHeight d / 2,
          croppedWidth d⟩] := by
  simp [Plan.planes, hsrc, hdst, planeRow, p422Src, p422Start, srcStart, p422LumaDst, p422ChromaDst, cbase, DstPlane.fp,
    outH_eq, outW_eq]

/-- Settles O25: the plans of the two forms differ in PARITY and in the chroma samples, which no check reads. -/
theorem p422ChecksInOrder : Obligations.P422ChecksInOrder := by
  unfold Obligations.P422ChecksInOrder
  intro i nt s un hi hu d yp dp w hgt
  rcases hi with rfl | rfl
  · have hparity : ¬ (Instr.cvtP422 nt = .cvtP422I nt ∧ hgt % 4 ≠ 0) := by simp
    refine raisesFirst_of_pre_agrees hu (p422Pre_agrees d ?_) (p422_planeRows rfl rfl)
    rw [or_iff_left hparity]
    exact anyOddGeometry_iff d
  · refine raisesFirst_of_pre_agrees hu (p422Pre_agrees d ?_) (p422_planeRows rfl rfl)
    rw [Bool.or_eq_true, anyOddGeometry_iff, decide_eq_true_eq, outH_eq, eq_self_iff_true, true_and]

end Sys2Proof.Machine
end

section
/-! SUPPORT. Proofs about the planar 4:2:0 conversions (42_planar420_to_sp420.md): the bytes CVT.PL420.SP420 and its UV
form leave (R160 to R164), and their checks in order (R162). -/

namespace Sys2Proof.Machine

/-! ### The source samples (R66, R69, R160) -/

/-- Row `r` of a source footprint starts `top + r` pitches above the plane's base (R71). -/
theorem srcStart_add_row (base : Word64) (pitch : Word32) (top left r : Nat) :
    srcStart base pitch top left + r * pitch.toNat = base.toNat + (top + r) * pitch.toNat + left := by
  simp only [srcStart]
  ring

theorem pl420Luma_eq (d : Descriptor) (r x : Nat) :
    pl420LumaStart d + r * d.srcPitchY.toNat + x =
      d.src0.toNat + (d.cropT.toNat + r) * d.srcPitchY.toNat + d.cropL.toNat + x := by
  rw [pl420LumaStart, srcStart_add_row]

theorem pl420U_eq (d : Descriptor) (j k : Nat) :
    pl420U d j k = d.src1.toNat + (d.cropT.toNat / 2 + j) * d.srcPitchC.toNat + d.cropL.toNat / 2 + k := by
  rw [pl420U, pl420ChromaStart, srcStart_add_row]

theorem pl420V_eq (d : Descriptor) (j k : Nat) :
    pl420V d j k = d.src2.toNat + (d.cropT.toNat / 2 + j) * d.srcPitchC.toNat + d.cropL.toNat / 2 + k := by
  rw [pl420V, pl420ChromaStart, srcStart_add_row]

/-- The source address of byte `x` of chroma row `j` (R161). -/
def pl420Chroma (d : Descriptor) (j x : Nat) : Nat :=
  if x % 2 = 0 then pl420U d j (x / 2) else pl420V d j (x / 2)

@[simp] theorem pl420Chroma_even (d : Descriptor) (j k : Nat) : pl420Chroma d j (2 * k) = pl420U d j k := by
  simp [pl420Chroma]

@[simp] theorem pl420Chroma_odd (d : Descriptor) (j k : Nat) : pl420Chroma d j (2 * k + 1) = pl420V d j k := by
  have hmod : (2 * k + 1) % 2 = 1 := by omega
  have hdiv : (2 * k + 1) / 2 = k := by omega
  simp [pl420Chroma, hmod, hdiv]

theorem pl420ChromaDst_sample (d : Descriptor) (j x : Nat) :
    (pl420ChromaDst d).sample j x = .one (pl420Chroma d j x) some :=
  (apply_ite (Sample.one · some) ..).symm

/-! ### The planes of the PL420 operations at DONE (R163, R164) -/

section Pl420
variable {i : Instr} {s : State} {un : UnitState} (h : ready i s un)
include h

/-- R163: a luma byte is its source sample's. -/
theorem ready_pl420Luma (hq : pl420LumaDst un.latch ∈ (planOf i s.params un.latch).dst) {r x : Nat}
    (hr : r < croppedHeight un.latch) (hx : x < croppedWidth un.latch) :
    (doneMem i s un).read (un.latch.dst0.toNat + r * un.latch.dstPitchY.toNat + x) =
      s.mem.read (un.latch.src0.toNat + (un.latch.cropT.toNat + r) * un.latch.srcPitchY.toNat +
        un.latch.cropL.toNat + x) := by
  rw [← outH_eq] at hr
  rw [← outW_eq] at hx
  rw [← pl420Luma_eq]
  exact ready_copy h hq rfl hr hx rfl

variable (hq : pl420ChromaDst un.latch ∈ (planOf i s.params un.latch).dst)
include hq

/-- A chroma byte is the byte of its source sample, whichever of the two operations writes it. -/
theorem ready_pl420ChromaByte {j x : Nat} (hj : j < croppedHeight un.latch / 2) (hx : x < croppedWidth un.latch) :
    (doneMem i s un).read (cbase un.latch + j * un.latch.dstPitchY.toNat + x) =
      s.mem.read (pl420Chroma un.latch j x) := by
  rw [← outH_eq] at hj
  rw [← outW_eq] at hx
  exact ready_copy h hq rfl hj hx (pl420ChromaDst_sample ..)

/-- R161: pair `k` of a chroma row is `U(j, k)`, `V(j, k)`. -/
theorem ready_pl420ChromaPair {j k : Nat} (hj : j < croppedHeight un.latch / 2) (hk : k < croppedWidth un.latch / 2) :
    (doneMem i s un).read (cbase un.latch + j * un.latch.dstPitchY.toNat + 2 * k) =
        s.mem.read (un.latch.src1.toNat + (un.latch.cropT.toNat / 2 + j) * un.latch.srcPitchC.toNat +
          un.latch.cropL.toNat / 2 + k) ∧
      (doneMem i s un).read (cbase un.latch + j * un.latch.dstPitchY.toNat + 2 * k + 1) =
        s.mem.read (un.latch.src2.toNat + (un.latch.cropT.toNat / 2 + j) * un.latch.srcPitchC.toNat +
          un.latch.cropL.toNat / 2 + k) := by
  have hu := ready_pl420ChromaByte h hq hj (x := 2 * k) (by omega)
  have hv := ready_pl420ChromaByte h hq hj (x := 2 * k + 1) (by omega)
  rw [pl420Chroma_even, pl420U_eq] at hu
  rw [pl420Chroma_odd, pl420V_eq] at hv
  exact ⟨hu, hv⟩

end Pl420

/-- Settles O19: `ready_pl420Luma` and `ready_pl420ChromaPair`, on an operation of two destination planes. -/
theorem cvtPl420Converts : Obligations.CvtPl420Converts := by
  unfold Obligations.CvtPl420Converts
  intro nt s un h d yp cp dp w hgt chroma
  have hl : pl420LumaDst d ∈ (planOf (.cvtPl420 nt) s.params d).dst := List.mem_cons_self ..
  have hc : pl420ChromaDst d ∈ (planOf (.cvtPl420 nt) s.params d).dst :=
    List.mem_cons_of_mem _ (List.mem_singleton.2 rfl)
  refine ⟨_, ready_exec h, fun r hr x hx => ready_pl420Luma h hl hr hx,
    fun j hj k hk => ready_pl420ChromaPair h hc hj hk, fun a ha ha' => ?_⟩
  refine ready_outside_two h (q := pl420LumaDst d) (q' := pl420ChromaDst d) rfl ?_ ?_
  · simpa [pl420LumaDst, outH_eq, outW_eq] using ha
  · simpa [pl420ChromaDst, outH_eq, outW_eq, chroma, cbase, dp] using ha'

/-- Settles O20: `ready_pl420ChromaPair`, on an operation whose one destination plane is the chroma plane. -/
theorem cvtPl420UvConverts : Obligations.CvtPl420UvConverts := by
  unfold Obligations.CvtPl420UvConverts
  intro nt s un h d cp dp w hgt chroma
  have hc : pl420ChromaDst d ∈ (planOf (.cvtPl420Uv nt) s.params d).dst := List.mem_singleton.2 rfl
  refine ⟨_, ready_exec h, fun j hj k hk => ready_pl420ChromaPair h hc hj hk,
    fun a ha => ready_outside h fun f hf => ?_⟩
  obtain rfl : f = (pl420ChromaDst d).fp := List.mem_singleton.1 hf
  refine has_false_of_not_inRows ?_
  simpa [pl420ChromaDst, DstPlane.fp, outH_eq, outW_eq, chroma, cbase, dp] using ha

/-- Settles O36: both operations write a chroma byte from the same source sample (`ready_pl420ChromaByte`). -/
theorem uvWritesTheSameChroma : Obligations.UvWritesTheSameChroma := by
  unfold Obligations.UvWritesTheSameChroma
  intro nt nt' s un h h' d
  refine ⟨_, _, ready_exec h, ready_exec h', ?_⟩
  rintro a ⟨j, hj, x, hx, rfl⟩
  exact (ready_pl420ChromaByte h (List.mem_cons_of_mem _ (List.mem_singleton.2 rfl)) hj hx).trans
    (ready_pl420ChromaByte h' (List.mem_singleton.2 rfl) hj hx).symm

/-! ### The checks of the PL420 operations (R162) -/

/-- The checks of orders 3 to 6, for either operation's PITCH condition. -/
theorem pl420Pre_agrees (d : Descriptor) {pitch : Bool} {bad : Prop} (hpitch : pitch = true ↔ bad) :
    List.Forall₂ checkAgrees
      [(cropOutOfRange d, .cropRange), (anyOddGeometry d, .parity), (pitch, .pitch),
       (decide (d.dstHeight.toNat < outH d), .dstHeight)]
      [(cropRangeFails d, .cropRange), (oddGeometry d, .parity), (bad, .pitch),
       (d.dstHeight.toNat < croppedHeight d, .dstHeight)] :=
  .cons ⟨cropOutOfRange_iff d, rfl⟩ (.cons ⟨anyOddGeometry_iff d, rfl⟩ (.cons ⟨hpitch, rfl⟩
    (.cons ⟨by rw [decide_eq_true_eq, outH_eq], rfl⟩ .nil)))

/-- Settles O26: the checks before those of the planes by `pl420Pre_agrees`; the planes are FS0 to FD1 of R71, and those
without FS0 and FD0 for UV. -/
theorem pl420ChecksInOrder : Obligations.Pl420ChecksInOrder := by
  unfold Obligations.Pl420ChecksInOrder
  intro nt s un hu d yp cp dp w hgt fs0 fs1 fs2 fd0 fd1
  have hfs0 : planeRow (d.src0, (pl420LumaSrc d).fp) = fs0 := by
    simp [planeRow, pl420LumaSrc, pl420LumaStart, srcStart, outH_eq, outW_eq, fs0, yp, hgt, w]
  have hfs1 : planeRow (d.src1, (pl420ChromaSrc d.src1 d).fp) = fs1 := by
    simp [planeRow, pl420ChromaSrc, pl420ChromaStart, srcStart, outH_eq, outW_eq, fs1, cp, hgt, w]
  have hfs2 : planeRow (d.src2, (pl420ChromaSrc d.src2 d).fp) = fs2 := by
    simp [planeRow, pl420ChromaSrc, pl420ChromaStart, srcStart, outH_eq, outW_eq, fs2, cp, hgt, w]
  have hfd0 : planeRow (d.dst0, (pl420LumaDst d).fp) = fd0 := by
    simp [planeRow, DstPlane.fp, pl420LumaDst, outH_eq, outW_eq, fd0, dp, hgt, w]
  have hfd1 : planeRow (d.dst0, (pl420ChromaDst d).fp) = fd1 := by
    simp [planeRow, DstPlane.fp, pl420ChromaDst, cbase, outH_eq, outW_eq, fd1, dp, hgt, w]
  constructor
  · refine raisesFirst_of_pre_agrees hu (pl420Pre_agrees d ?_) ?_
    · simp [or_assoc, outW_eq, d, yp, cp, dp, w]
    · rw [← hfs0, ← hfs1, ← hfs2, ← hfd0, ← hfd1]
      rfl
  · refine raisesFirst_of_pre_agrees hu (pl420Pre_agrees d ?_) ?_
    · simp [outW_eq, d, cp, dp, w]
    · rw [← hfs1, ← hfs2, ← hfd1]
      rfl

end Sys2Proof.Machine
end

section
/-! SUPPORT. Proofs about the planar 4:4:4 copy (43_planar444_copy.md): the bytes COPY.PL444 leaves (R180, R181), and its
checks in order (R182). -/

namespace Sys2Proof.Machine

/-! ### The planes of COPY.PL444 at DONE (R181) -/

/-- R180, R181: a byte of a destination plane is its source sample's, whatever the plane's bases and source pitch. -/
theorem ready_pl444Plane {i : Instr} {s : State} {un : UnitState} (h : ready i s un) {dst src : Word64} {pitch : Word32}
    (hq : pl444Dst dst src pitch un.latch ∈ (planOf i s.params un.latch).dst) {r x : Nat}
    (hr : r < croppedHeight un.latch) (hx : x < croppedWidth un.latch) :
    (doneMem i s un).read (dst.toNat + r * un.latch.dstPitchY.toNat + x) =
      s.mem.read (src.toNat + (un.latch.cropT.toNat + r) * pitch.toNat + un.latch.cropL.toNat + x) := by
  rw [← outH_eq] at hr
  rw [← outW_eq] at hx
  rw [← srcStart_add_row]
  exact ready_copy h hq rfl hr hx rfl

/-- R70, R71: an address outside the cropped region of a destination plane is not in the plane's footprint. -/
theorem pl444Dst_has_false {d : Descriptor} {dst src : Word64} {pitch : Word32} {a : Nat}
    (ha : ¬ inRows dst.toNat d.dstPitchY.toNat (croppedHeight d) (croppedWidth d) a) :
    (pl444Dst dst src pitch d).fp.has a = false := by
  refine has_false_of_not_inRows ?_
  simpa [pl444Dst, DstPlane.fp, outH_eq, outW_eq] using ha

/-- Settles O21: `ready_pl444Plane` on each of the three destination planes, `pl444Dst_has_false` for the other bytes. -/
theorem copyPl444Copies : Obligations.CopyPl444Copies := by
  unfold Obligations.CopyPl444Copies
  intro nt s un h d yp cp dp w hgt
  have h0 : pl444Dst d.dst0 d.src0 d.srcPitchY d ∈ (planOf (.copyPl444 nt) s.params d).dst := List.mem_cons_self ..
  have h1 : pl444Dst d.dst1 d.src1 d.srcPitchC d ∈ (planOf (.copyPl444 nt) s.params d).dst :=
    List.mem_cons_of_mem _ (List.mem_cons_self ..)
  have h2 : pl444Dst d.dst2 d.src2 d.srcPitchC d ∈ (planOf (.copyPl444 nt) s.params d).dst :=
    List.mem_cons_of_mem _ (List.mem_cons_of_mem _ (List.mem_singleton.2 rfl))
  refine ⟨_, ready_exec h, fun r hr x hx => ⟨ready_pl444Plane h h0 hr hx, ready_pl444Plane h h1 hr hx,
    ready_pl444Plane h h2 hr hx⟩, fun a ha0 ha1 ha2 => ready_outside h fun f hf => ?_⟩
  have hfp : f = (pl444Dst d.dst0 d.src0 d.srcPitchY d).fp ∨ f = (pl444Dst d.dst1 d.src1 d.srcPitchC d).fp ∨
      f = (pl444Dst d.dst2 d.src2 d.srcPitchC d).fp := by
    simpa [planOf, planCopyPl444, Plan.dstFps] using hf
  rcases hfp with rfl | rfl | rfl
  · exact pl444Dst_has_false ha0
  · exact pl444Dst_has_false ha1
  · exact pl444Dst_has_false ha2

/-! ### The checks of COPY.PL444 (R182) -/

/-- The checks of orders 3 to 7: CROP_RANGE and PITCH only. -/
theorem pl444Pre_agrees (p : Config.Params) (d : Descriptor) :
    List.Forall₂ checkAgrees (planCopyPl444 p d).pre
      [(cropRangeFails d, .cropRange),
       (d.srcPitchY.toNat < d.width.toNat ∨ d.srcPitchC.toNat < d.width.toNat ∨ d.dstPitchY.toNat < croppedWidth d,
        .pitch)] :=
  .cons ⟨cropOutOfRange_iff d, rfl⟩ (.cons ⟨by simp [outW_eq, or_assoc], rfl⟩ .nil)

/-- FS0, FS1 and FS2 (R71), by the plane's base and pitch. -/
theorem pl444Src_planeRow (d : Descriptor) (base : Word64) (pitch : Word32) :
    planeRow ((pl444Src base pitch d).base, (pl444Src base pitch d).fp) =
      ⟨base.toNat, base.toNat + d.cropT.toNat * pitch.toNat + d.cropL.toNat, pitch.toNat, croppedHeight d,
        croppedWidth d⟩ := by
  simp [planeRow, pl444Src, pl444Start, srcStart, outH_eq, outW_eq]

/-- FD0, FD1 and FD2 (R71), by the plane's base, whatever its source. -/
theorem pl444Dst_planeRow (d : Descriptor) (dst src : Word64) (pitch : Word32) :
    planeRow ((pl444Dst dst src pitch d).base, (pl444Dst dst src pitch d).fp) =
      ⟨dst.toNat, dst.toNat, d.dstPitchY.toNat, croppedHeight d, croppedWidth d⟩ := by
  simp [planeRow, pl444Dst, DstPlane.fp, outH_eq, outW_eq]

/-- Settles O27: the checks before those of the planes by `pl444Pre_agrees`; the planes are FS0 to FD2 of R71, by
`pl444Src_planeRow` and `pl444Dst_planeRow`. -/
theorem pl444ChecksInOrder : Obligations.Pl444ChecksInOrder := by
  unfold Obligations.Pl444ChecksInOrder
  intro nt s un hu d yp cp dp w hgt fs fd
  refine raisesFirst_of_pre_agrees hu (pl444Pre_agrees s.params d) ?_
  simp only [planOf, Plan.planes, planCopyPl444, List.map_cons, List.map_nil, List.cons_append, List.nil_append,
    pl444Src_planeRow, pl444Dst_planeRow]
  rfl

end Sys2Proof.Machine
end

section
/-! SUPPORT. Proofs about the high-bit-depth gather and rescale (44_hb_gather_rescale.md): the biased shift (R195), the
rescales and their 32-bit range (R196 to R199), and the checks of CVT.PK444W.SP420W and its interlaced form (R200). -/

namespace Sys2Proof.Machine

/-! ### The biased shift (R195, R197) -/

/-- The library's quotient for `>>>`, with the power taken in the integers, as R195 and R199 write it. -/
theorem shiftRight_eq_div_two_pow (v : Int) (k : Nat) : v >>> k = v / 2 ^ k := by
  rw [Int.shiftRight_eq_div_pow, Nat.cast_pow, Nat.cast_ofNat]

/-- R195: the bias of the shift rounds half up, for `k = 0` too, where there is no bias and nothing to round. -/
theorem biasedShift_eq (v : Int) (k : Nat) : (v + bias k) >>> k = (2 * v + 2 ^ k) / 2 ^ (k + 1) := by
  rw [shiftRight_eq_div_two_pow]
  cases k with
  | zero =>
    simp only [bias]
    omega
  | succ k =>
    calc (v + 2 ^ k) / 2 ^ (k + 1)
        = 2 * (v + 2 ^ k) / (2 * 2 ^ (k + 1)) := (Int.mul_ediv_mul_of_pos _ _ two_pos).symm
      _ = (2 * v + 2 ^ (k + 1)) / 2 ^ (k + 1 + 1) := by rw [mul_add, ← pow_succ', ← pow_succ']

/-- R197: an offset before the shift by `k`, scaled by it, is the offset after it. -/
theorem shiftRight_add_mul_pow (v off : Int) (k : Nat) : (v + off * 2 ^ k) >>> k = (v >>> k) + off := by
  rw [shiftRight_eq_div_two_pow, shiftRight_eq_div_two_pow, Int.add_mul_ediv_right v off (pow_ne_zero k two_ne_zero)]

/-- Settles O41: `biasedShift_eq`, and `shiftRight_add_mul_pow` at the combined shift. -/
theorem shiftsRoundHalfUp : Obligations.ShiftsRoundHalfUp := by
  unfold Obligations.ShiftsRoundHalfUp
  exact fun v off k => ⟨biasedShift_eq v k, shiftRight_add_mul_pow v off (k + 1)⟩

/-! ### The rescales in range and out of it (R196 to R199) -/

theorem satU16_eq (v : Int) : satU16 v = (max 0 (min 65535 v)).toNat := by
  simp only [satU16]
  omega

/-- R199: a rescale is the value of its formula where all four intermediates fit, and open elsewhere. -/
theorem rescale_eq (c : Config.Coef) (k : Nat) (sum : Int) [Decidable (intermediatesFit c k sum)] :
    rescale c k sum = if intermediatesFit c k sum then some (rescaledValue c k sum) else none := by
  simp only [rescale, rescaledValue, intermediatesFit, Bool.and_eq_true, in32_iff, satU16_eq, bias_eq,
    shiftRight_eq_div_two_pow, and_assoc]

/-- Settles O42: each of the three is `rescale_eq` at its own shift and sum. -/
theorem rescalesAreExactInRange : Obligations.RescalesAreExactInRange := by
  classical
  unfold Obligations.RescalesAreExactInRange
  intro c a b w
  simp only [rsY, rsCp, rsCi, rescale_eq]
  exact ⟨fun h => if_pos h, fun h => if_neg h, fun h => if_pos h, fun h => if_neg h, fun h => if_pos h,
    fun h => if_neg h⟩

/-! ### The checks of the PK444W operations (R200) -/

/-- The checks of orders 3 to 7, for either form's PARITY condition. -/
theorem pk444Pre_agrees (d : Descriptor) {parity : Bool} {odd : Prop} (hparity : parity = true ↔ odd) :
    List.Forall₂ checkAgrees (pk444Pre d parity)
      [(cropRangeFails d, .cropRange), (odd, .parity),
       (d.srcPitchY.toNat < 6 * d.width.toNat ∨ d.dstPitchY.toNat < 2 * croppedWidth d, .pitch),
       (d.dstHeight.toNat < croppedHeight d, .dstHeight),
       (d.src0.toNat % 2 = 1 ∨ d.srcPitchY.toNat % 2 = 1 ∨ d.dst0.toNat % 2 = 1 ∨ d.dstPitchY.toNat % 2 = 1,
        .align)] :=
  .cons ⟨cropOutOfRange_iff d, rfl⟩ (.cons ⟨hparity, rfl⟩ (.cons ⟨by simp [outW_eq], rfl⟩
    (.cons ⟨by simp [outH_eq], rfl⟩ (.cons ⟨by simp, rfl⟩ .nil))))

/-- FS0, FD0 and FD1 (R71) as the planes of a plan with either form's chroma rows and rule. -/
theorem pk444_planeRows {p : Config.Params} {pl : Plan} {d : Descriptor} {up down : Nat → Nat}
    {combine : Nat → Int → Int → Option Nat} (hsrc : pl.src = [pk444Src d])
    (hdst : pl.dst = [pk444LumaDst p d, pk444ChromaDst p d up down combine]) :
    pl.planes.map planeRow =
      [⟨d.src0.toNat, d.src0.toNat + d.cropT.toNat * d.srcPitchY.toNat + 6 * d.cropL.toNat, d.srcPitchY.toNat,
          croppedHeight d, 6 * croppedWidth d⟩,
       ⟨d.dst0.toNat, d.dst0.toNat, d.dstPitchY.toNat, croppedHeight d, 2 * croppedWidth d⟩,
       ⟨d.dst0.toNat, d.dst0.toNat + d.dstPitchY.toNat * d.dstHeight.toNat, d.dstPitchY.toNat, croppedHeight d / 2,
          2 * croppedWidth d⟩] := by
  simp [Plan.planes, hsrc, hdst, planeRow, pk444Src, pk444Start, srcStart, pk444LumaDst, pk444ChromaDst, cbase,
    DstPlane.fp, outH_eq, outW_eq, Nat.mul_comm 2]

/-- Settles O28: the plans of the two forms differ in PARITY and in the chroma samples, which no check reads. -/
theorem pk444wChecksInOrder : Obligations.Pk444wChecksInOrder := by
  unfold Obligations.Pk444wChecksInOrder
  intro i nt s un hi hu d yp dp w hgt
  rcases hi with rfl | rfl
  · have hparity : ¬ (Instr.cvtPk444w nt = .cvtPk444wI nt ∧ hgt % 4 ≠ 0) := by simp
    refine raisesFirst_of_pre_agrees hu (pk444Pre_agrees d ?_) (pk444_planeRows rfl rfl)
    rw [or_iff_left hparity]
    exact anyOddGeometry_iff d
  · refine raisesFirst_of_pre_agrees hu (pk444Pre_agrees d ?_) (pk444_planeRows rfl rfl)
    rw [Bool.or_eq_true, anyOddGeometry_iff, decide_eq_true_eq, outH_eq, eq_self_iff_true, true_and]

end Sys2Proof.Machine
end

section
/-! SUPPORT. Proofs about exceptions and the end of a run (60_exceptions.md): what takes a unit out of idle (R234, R237),
the fault record's growth (R225), and the step of a run that is over (R238). -/

namespace Sys2Proof.Machine

/-! ### A unit that is idle (R237) -/

/-- Unit `u` of `units`, where there is one, has BUSY = 0. -/
def idleAt (units : List UnitState) (u : Nat) : Prop :=
  ∀ un, units[u]? = some un → un.busy = false

theorem idleAt_set {l : List UnitState} {u v : Nat} {vn : UnitState} (h : idleAt l u)
    (hv : v = u → vn.busy = false) : idleAt (l.set v vn) u := by
  intro un hu
  rw [List.getElem?_set] at hu
  split at hu
  · next hvu =>
    split at hu
    · cases hu
      exact hv hvu
    · cases hu
  · exact h un hu

theorem idleAt_map_noteForeign {l : List UnitState} {u : Nat} (h : idleAt l u) (fps gs : List Footprint) :
    idleAt (l.map (noteForeign fps gs)) u := by
  intro un hu
  obtain ⟨vn, hv, rfl⟩ := Option.map_eq_some_iff.1 (List.getElem?_map ▸ hu)
  exact (noteForeign_busy ..).trans (h vn hv)

theorem idleAt_beginOperation {s : State} {u v : Nat} (h : idleAt s.units u) (hvu : v ≠ u) (vn : UnitState) :
    idleAt (s.beginOperation v vn).units u :=
  idleAt_set (idleAt_map_noteForeign h _ _) fun he => absurd he hvu

/-- A slot's store leaves an idle unit idle, unless it stores START to that unit's CTRL (R34). -/
theorem storeSlot_idleAt {s : State} {u : Nat} (h : idleAt s.units u) (v slot : Nat) (x : Word64) :
    idleAt (s.storeSlot v slot x).units u ∨ (v = u ∧ slot = 0x90 / 8 ∧ x.getLsbD 0 = true) := by
  rcases storeSlot_cases s v slot x with hs | ⟨vn, hv, ⟨d, hs⟩ | ⟨hb, -, hs⟩ | ⟨-, hslot, h0, hs⟩⟩
  · exact .inl (by rwa [hs])
  · exact .inl (by rw [hs]; exact idleAt_set h fun hvu => h vn (hvu ▸ hv))
  · exact .inl (by rw [hs]; exact idleAt_set h fun _ => hb)
  · by_cases hvu : v = u
    · exact .inr ⟨hvu, hslot, h0⟩
    · rcases hs with hs | hs <;> exact .inl (by rw [hs]; exact idleAt_beginOperation h hvu _)

/-- The host's next statement stores START to the CTRL of unit `u`. -/
def State.hostStarts (s : State) (u : Nat) : Prop :=
  ∃ addr v rest, s.host.prog = .regStore addr 8 v :: rest ∧ regTarget s addr 8 = .ok (u, 0x90 / 8) ∧
    v.getLsbD 0 = true

theorem hostStep_idleAt {s t : State} {u : Nat} (ht : hostStep s = .next t) (h : idleAt s.units u) :
    idleAt t.units u ∨ s.hostStarts u := by
  obtain ⟨st, rest, rfl | ⟨hp, hc⟩⟩ := hostStep_cases ht
  · exact .inl h
  · rcases hc with ⟨addr, x, v, slot, rfl, htarget, rfl⟩ | ⟨x, rfl⟩ | rfl | ⟨a, b, rfl⟩ | ⟨x, rfl⟩
    · rcases storeSlot_idleAt h v slot x with hidle | ⟨rfl, rfl, h0⟩
      · exact .inl hidle
      · exact .inr ⟨addr, x, rest, hp, htarget, h0⟩
    · exact .inl h
    · exact .inl h
    · exact .inl (idleAt_map_noteForeign h _ _)
    · exact .inl h

/-- No unit's turn takes a unit out of idle: it ends an operation, or leaves BUSY as it was (R61). -/
theorem unitStep_idleAt {v u : Nat} {s t : State} (ht : unitStep v s = .next t) (h : idleAt s.units u) :
    idleAt t.units u := by
  rcases unitStep_cases ht with ⟨rfl, -⟩ | ⟨vn, hv, -, ⟨c, -, rfl⟩ | ⟨i, -, -, ⟨-, rfl⟩ | ⟨-, rfl⟩⟩⟩
  · exact h
  · exact idleAt_set h fun _ => rfl
  · exact idleAt_set h fun _ => rfl
  · exact idleAt_set h fun hvu => h vn (hvu ▸ hv)

theorem platformReset_idleAt (s : State) (u : Nat) : idleAt s.platformReset.units u := by
  intro un hu
  obtain ⟨vn, -, rfl⟩ := Option.map_eq_some_iff.1 (List.getElem?_map ▸ hu)
  rfl

theorem takeTurn_idleAt {a : Agent} {s t : State} {u : Nat} (ht : takeTurn a s = .next t) (h : idleAt s.units u) :
    idleAt t.units u ∨ s.hostStarts u := by
  cases a with
  | host => exact hostStep_idleAt ht h
  | unit v => exact .inl (unitStep_idleAt ht h)
  | platformReset =>
    cases ht
    exact .inl (platformReset_idleAt s u)

/-- Settles O51: a step is one agent's turn, and a turn leaves an idle unit idle unless the host starts it. -/
theorem onlyStartLeavesIdle : Obligations.OnlyStartLeavesIdle := by
  unfold Obligations.OnlyStartLeavesIdle
  intro s t u un un' hst hu hu' hb hb'
  obtain ⟨a, ts, ht, -⟩ := step_turn hst
  have hidle : idleAt s.units u := fun vn hv => Option.some.inj (hu.symm.trans hv) ▸ hb
  rcases takeTurn_idleAt (s := { s with turns := ts }) ht hidle with hlater | hstart
  · exact absurd hb' (by simp [hlater un' hu'])
  · exact hstart

/-! ### The fault record (R225) -/

theorem storeSlot_record (s : State) (u slot : Nat) (v : Word64) : (s.storeSlot u slot v).record = s.record := by
  rcases storeSlot_cases s u slot v with h | ⟨un, -, ⟨d, h⟩ | ⟨-, -, h⟩ | ⟨-, -, -, h | h⟩⟩ <;> rw [h] <;> rfl

/-- No statement of the host changes the record: neither CLEAR nor START does. -/
theorem hostStep_record {s t : State} (h : hostStep s = .next t) : t.record = s.record := by
  obtain ⟨st, rest, rfl | ⟨-, hc⟩⟩ := hostStep_cases h
  · rfl
  · rcases hc with ⟨addr, v, u, slot, -, -, rfl⟩ | ⟨v, rfl⟩ | rfl | ⟨a, b, rfl⟩ | ⟨v, rfl⟩
    · exact storeSlot_record s u slot v
    all_goals rfl

theorem unitStep_record {u : Nat} {s t : State} (h : unitStep u s = .next t) : s.record <+: t.record := by
  rcases unitStep_cases h with ⟨rfl, -⟩ | ⟨un, -, -, ⟨c, -, rfl⟩ | ⟨i, -, -, ⟨-, rfl⟩ | ⟨-, rfl⟩⟩⟩
  · exact List.prefix_rfl
  · exact List.prefix_append ..
  · exact List.prefix_rfl
  · exact List.prefix_append ..

/-- Settles O52: the host's turn leaves the record as it is, a unit's turn appends to it, and no other turn is left. -/
theorem faultRecordOnlyGrows : Obligations.FaultRecordOnlyGrows := by
  unfold Obligations.FaultRecordOnlyGrows
  intro s t h hnr
  obtain ⟨a, ts, ht, -, hreset⟩ := step_turn h
  cases a with
  | host => exact (hostStep_record ht).symm ▸ List.prefix_rfl
  | unit u => exact unitStep_record (s := { s with turns := ts }) ht
  | platformReset => exact absurd (hreset rfl) hnr

/-! ### A run that is over (R237, R238) -/

theorem runOver_iff {s : State} : s.runOver = true ↔ s.host.prog = [] ∧ ∀ un ∈ s.units, un.busy = false := by
  simp [State.runOver]

/-- With an empty schedule and no unit BUSY, the host moves (log 6). -/
theorem step_of_all_idle {s : State} (hs : s.units ≠ []) (hts : s.turns = [])
    (hidle : ∀ un ∈ s.units, un.busy = false) : step s = hostStep s := by
  have hnone : s.units.findIdx? UnitState.ready = none :=
    List.findIdx?_eq_none_iff.2 fun un hu => by simp [UnitState.ready, hidle un hu]
  simp [step, hs, hts, defaultTurn, hnone, takeTurn]

/-- Settles O60: it is the host's turn, and the host has no statement left. -/
theorem runOverIsFinal : Obligations.RunOverIsFinal := by
  unfold Obligations.RunOverIsFinal
  intro s hs hts hover
  obtain ⟨hprog, hidle⟩ := runOver_iff.1 hover
  rw [step_of_all_idle hs hts hidle]
  simp only [hostStep, hprog]

end Sys2Proof.Machine
end

section
/-! SUPPORT. Proofs about the state after reset (70_reset_and_hazards.md R250, R251, R253, R254): a unit's registers and
flags, the platform's reset of every unit, and the invariant of `State.reset` and of every launch. -/

namespace Sys2Proof.Machine

/-! ### One unit after reset (R251) -/

@[simp] theorem reset_load (base : Word64) (r : Reg) : (UnitState.reset base).load r = 0 := by
  cases r <;> rfl

/-- Each slot of a unit after reset, a register's or a reserved one, loads 0. -/
theorem loadSlot_of_reset {s : State} {u : Nat} {base : Word64} (hu : s.units[u]? = some (UnitState.reset base))
    (slot : Nat) : s.loadSlot u slot = 0 := by
  cases hr : regOfSlot slot with
  | none => exact loadSlot_none hr
  | some r => rw [loadSlot_eq hu hr, reset_load]

/-- Units put in the state of R251 at given places, as the platform's reset and a launch put them. -/
theorem eq_reset_of_get {α : Type} {l : List α} {place : α → Word64} {u : Nat} {un : UnitState}
    (hu : (l.map fun x => UnitState.reset (place x))[u]? = some un) : ∃ base, un = UnitState.reset base := by
  obtain ⟨x, -, rfl⟩ := Option.map_eq_some_iff.1 (List.getElem?_map ▸ hu)
  exact ⟨place x, rfl⟩

/-! ### The platform's reset (R250, R251) -/

/-- Settles O48: the step is `State.platformReset`, each unit of which is a reset one; an idle unit leaves no cell of an
operation in memory. -/
theorem platformResetState : Obligations.PlatformResetState := by
  unfold Obligations.PlatformResetState
  intro s hs
  refine ⟨_, step_platformReset hs, by simp, rfl, rfl, rfl, fun u un hu => ?_, fun hidle => ?_⟩
  · obtain ⟨base, rfl⟩ := eq_reset_of_get hu
    exact ⟨rfl, rfl, rfl, rfl, rfl, rfl, loadSlot_of_reset hu⟩
  · refine platformReset_mem_of_no_passing fun u un i hu hb => ?_
    exact absurd hb (by simp [hidle un (List.mem_of_getElem? hu)])

/-! ### `State.reset` and every launch (R251, R253, R254) -/

/-- With no statement of the host and no unit BUSY, the run of `State.reset` is over before its first step. -/
theorem reset_runOver : State.reset.runOver = true :=
  runOver_iff.2 ⟨rfl, List.forall_mem_singleton.2 rfl⟩

/-- Settles O50: a run that is over makes no step (R238), and the one unit is a reset one. -/
theorem resetStateIsIdle : Obligations.ResetStateIsIdle := by
  unfold Obligations.ResetStateIsIdle
  exact ⟨runOverIsFinal _ (List.cons_ne_nil _ _) rfl reset_runOver, rfl, rfl,
    List.forall_mem_singleton.2 ⟨rfl, rfl, rfl, rfl, rfl, rfl, rfl⟩⟩

/-- A launch starts with reset units, which owe the fault record nothing. -/
theorem launch_inv {m : Memory} (hm : m.wf = true) (p : Config.Params) (bases : List Word64) (rs : List Region)
    (prog : List HostStmt) (turns : List Agent) : (State.launch p bases m rs prog turns).Inv := by
  refine ⟨hm, fun u un hu => ?_⟩
  obtain ⟨base, rfl⟩ := eq_reset_of_get hu
  exact reset_okIn _ u base

/-- Settles O54: `launch_inv`, of which `State.reset`, with no memory listed, is one. -/
theorem launchMeetsTheInvariant : Obligations.LaunchMeetsTheInvariant := by
  unfold Obligations.LaunchMeetsTheInvariant
  exact ⟨launch_inv rfl .., fun p bases _ rs prog turns hm => launch_inv hm p bases rs prog turns⟩

end Sys2Proof.Machine
end
